-- ==== Sys2Proof/Word.lean ====
section
/-! DEFINITION. The fixed widths of the unit (00_scope.md R3): a byte is 8 bits, the CRC 16 bits, the command
word 16 bits, a result value 32 bits. -/

namespace Sys2Proof

/-- A byte of a buffer, of the transport or of a command word's operand (R3, R66). -/
abbrev Byte := BitVec 8

/-- A command word (30_encoding.md R80). -/
abbrev CmdWord := BitVec 16

/-- A CRC-16 value (R3, R5). -/
abbrev Crc := BitVec 16

/-- The `val` of a result record, and a status word (R3, R4). -/
abbrev Val := BitVec 32

end Sys2Proof
end

