-- ==== Sys2Proof/Syntax.lean ====
section
/-! DEFINITION. The 23 operations of 30_encoding.md R81, one constructor per row of spec/opcode_table.json. -/

namespace Sys2Proof

/-- An operation with its operand. Five operations carry the byte `d` = IMM8 (R82); the others carry nothing. -/
inductive Instr where
  /-- NOP, R250 -/
  | nop
  /-- RESET, R251 -/
  | reset
  /-- GET_FAULT, R252 -/
  | getFault
  /-- CRC_INIT, R112 -/
  | crcInit
  /-- CRC_BYTE d, R113 -/
  | crcByte (d : Byte)
  /-- CRC_READ, R114 -/
  | crcRead
  /-- LF_BYTE d, R131 -/
  | lfByte (d : Byte)
  /-- LF_DRAIN, R133 -/
  | lfDrain
  /-- LF_STATUS, R134 -/
  | lfStatus
  /-- RX_START, R151 -/
  | rxStart
  /-- RX_BYTE d, R152 -/
  | rxByte (d : Byte)
  /-- RX_TIMEOUT, R167 -/
  | rxTimeout
  /-- RX_ABORT, R169 -/
  | rxAbort
  /-- RX_STATUS, R170 -/
  | rxStatus
  /-- TX_OPEN, R201 -/
  | txOpen
  /-- TX_RESP d, R211 -/
  | txResp (d : Byte)
  /-- TX_TIMEOUT, R218 -/
  | txTimeout
  /-- TX_LOAD d, R203 -/
  | txLoad (d : Byte)
  /-- TX_SEND_HDR, R205 -/
  | txSendHdr
  /-- TX_SEND_DATA, R206 -/
  | txSendData
  /-- TX_SEND_EOT, R207 -/
  | txSendEot
  /-- TX_ABORT, R220 -/
  | txAbort
  /-- TX_STATUS, R222 -/
  | txStatus
  deriving DecidableEq, Repr

end Sys2Proof
end

