-- ==== Sys2Proof/WellFormed.lean ====
section
/-! DEFINITION. Well-formedness. Every operation of `Instr` is well formed, because its one operand is a byte and
every byte is legal (30_encoding.md R82); the checks that can fail are those on a command word (R83, R84), written
here from the reserved ranges and not from the decoder. -/

namespace Sys2Proof

/-- Bits [15:8] of a command word (R80). -/
def CmdWord.op (w : CmdWord) : Byte := w.extractLsb' 8 8

/-- Bits [7:0] of a command word (R80). -/
def CmdWord.imm8 (w : CmdWord) : Byte := w.extractLsb' 0 8

/-- The reserved OP values, as R84 lists them. -/
def opReserved (op : Byte) : Bool :=
  (0x03 ≤ op.toNat && op.toNat ≤ 0x0F) || (0x13 ≤ op.toNat && op.toNat ≤ 0x1F) ||
  (0x23 ≤ op.toNat && op.toNat ≤ 0x2F) || (0x35 ≤ op.toNat && op.toNat ≤ 0x3F) || 0x49 ≤ op.toNat

/-- The five OP values whose operation takes the byte IMM8 (R82). -/
def opTakesByte (op : Byte) : Bool :=
  op = 0x11#8 || op = 0x20#8 || op = 0x31#8 || op = 0x41#8 || op = 0x43#8

/-- A command word that names an operation: its OP is not reserved (R84), and its IMM8 is 0x00 unless the operation
takes a byte (R83). -/
def CmdWord.wellFormed (w : CmdWord) : Bool :=
  !opReserved w.op && (opTakesByte w.op || w.imm8 = 0#8)

/-- Every operand value of every operation is legal (R82), and there are no other operands. -/
def Instr.wellFormed (i : Instr) : Bool :=
  match i with
  | .crcByte d | .lfByte d | .rxByte d | .txResp d | .txLoad d => decide (d.toNat ≤ 0xFF)
  | .nop | .reset | .getFault | .crcInit | .crcRead | .lfDrain | .lfStatus | .rxStart | .rxTimeout | .rxAbort
  | .rxStatus | .txOpen | .txTimeout | .txSendHdr | .txSendData | .txSendEot | .txAbort | .txStatus => true

end Sys2Proof
end

