-- ==== Sys2Proof/Decode.lean ====
section
/-! DEFINITION. The decoder of 30_encoding.md R85, total over the 65536 command words and rejecting by name, and the
encoder written from the same table R81. -/

namespace Sys2Proof

/-- Why a command word is ILLEGAL_OP. -/
inductive Reject where
  /-- A reserved OP (R84). -/
  | reservedOp (op : Byte)
  /-- A nonzero IMM8 on an operation without operand (R83). -/
  | nonzeroImm (op imm : Byte)
  deriving DecidableEq, Repr

/-- What an OP value names: an operation without operand, or one that takes the byte IMM8 (R81, R82). -/
inductive Form where
  | plain (i : Instr)
  | imm8 (mk : Byte → Instr)

/-- The table of R81, row by row. -/
def opTable : List (Byte × Form) :=
  [(0x00#8, .plain .nop), (0x01#8, .plain .reset), (0x02#8, .plain .getFault),
   (0x10#8, .plain .crcInit), (0x11#8, .imm8 .crcByte), (0x12#8, .plain .crcRead),
   (0x20#8, .imm8 .lfByte), (0x21#8, .plain .lfDrain), (0x22#8, .plain .lfStatus),
   (0x30#8, .plain .rxStart), (0x31#8, .imm8 .rxByte), (0x32#8, .plain .rxTimeout),
   (0x33#8, .plain .rxAbort), (0x34#8, .plain .rxStatus),
   (0x40#8, .plain .txOpen), (0x41#8, .imm8 .txResp), (0x42#8, .plain .txTimeout),
   (0x43#8, .imm8 .txLoad), (0x44#8, .plain .txSendHdr), (0x45#8, .plain .txSendData),
   (0x46#8, .plain .txSendEot), (0x47#8, .plain .txAbort), (0x48#8, .plain .txStatus)]

/-- The first row of a table with this OP. -/
def findOp : List (Byte × Form) → Byte → Option Form
  | [], _ => none
  | (o, f) :: rows, op => if o = op then some f else findOp rows op

/-- The decoder of R85: exact match of OP, then IMM8 must be 0x00 where the operation takes no byte. -/
def decode (w : CmdWord) : Except Reject Instr :=
  match findOp opTable w.op with
  | none => .error (.reservedOp w.op)
  | some (.imm8 mk) => .ok (mk w.imm8)
  | some (.plain i) => if w.imm8 = 0#8 then .ok i else .error (.nonzeroImm w.op w.imm8)

/-- The OP value of an operation (R81). -/
def opOf : Instr → Byte
  | .nop => 0x00#8
  | .reset => 0x01#8
  | .getFault => 0x02#8
  | .crcInit => 0x10#8
  | .crcByte _ => 0x11#8
  | .crcRead => 0x12#8
  | .lfByte _ => 0x20#8
  | .lfDrain => 0x21#8
  | .lfStatus => 0x22#8
  | .rxStart => 0x30#8
  | .rxByte _ => 0x31#8
  | .rxTimeout => 0x32#8
  | .rxAbort => 0x33#8
  | .rxStatus => 0x34#8
  | .txOpen => 0x40#8
  | .txResp _ => 0x41#8
  | .txTimeout => 0x42#8
  | .txLoad _ => 0x43#8
  | .txSendHdr => 0x44#8
  | .txSendData => 0x45#8
  | .txSendEot => 0x46#8
  | .txAbort => 0x47#8
  | .txStatus => 0x48#8

/-- The IMM8 value of an operation: its operand (R82), or 0x00 (R83). -/
def immOf : Instr → Byte
  | .crcByte d | .lfByte d | .rxByte d | .txResp d | .txLoad d => d
  | .nop | .reset | .getFault | .crcInit | .crcRead | .lfDrain | .lfStatus | .rxStart | .rxTimeout | .rxAbort
  | .rxStatus | .txOpen | .txTimeout | .txSendHdr | .txSendData | .txSendEot | .txAbort | .txStatus => 0x00#8

/-- A command word from its two fields, `(OP << 8) OR IMM8` (R80, R95). -/
def mkWord (op imm : Byte) : CmdWord := op ++ imm

/-- The command word of an operation (R80, R81, R95). -/
def encode (i : Instr) : CmdWord := mkWord (opOf i) (immOf i)

/-- The instruction the decoder reads from a table row's bits: one 16-bit word, whose bit 0 is the table's bit 0
(R80, R64: a command word is a number, so no byte order applies). -/
def decodeTableWord (nbits w : Nat) : Option Instr :=
  match decode (BitVec.ofNat 16 (w % 2 ^ nbits)) with
  | .ok i => some i
  | .error _ => none

end Sys2Proof
end

