-- ==== Sys2Proof/Config.lean ====
section
/-! DEFINITION. The implementation parameters of 00_scope.md R2 and its constants. The three parameters the spec
leaves to the model's argument are one OPAQUE value, so that nothing proved of the unit depends on a choice of them
(log 2). -/

namespace Sys2Proof

/-- The parameters of R2. A field holds the parameter less one where the parameter starts at 1, so that every value
of the type is a legal configuration and every legal configuration is a value of the type. -/
structure Config where
  /-- RETRY_LIMIT - 1: RETRY_LIMIT is 1..15. -/
  retryLimitPred : Fin 15
  /-- LINE_MAX - 1: LINE_MAX is 1..65535 (OPEN, D7). -/
  lineMaxPred : Fin 65535
  /-- NULL_HEADER_ACK (OPEN, D16). -/
  nullHeaderAck : Bool
  deriving DecidableEq, Repr, Inhabited

namespace Config

/-- RETRY_LIMIT, 1..15 (R2, D32). -/
def retryLimit (c : Config) : Nat := c.retryLimitPred.val + 1

/-- LINE_MAX, 1..65535 (R2, D7). -/
def lineMax (c : Config) : Nat := c.lineMaxPred.val + 1

/-- The configuration of the unit at hand. It has no body: R2 gives RETRY_LIMIT a range and a default, and leaves
LINE_MAX and NULL_HEADER_ACK open. DESIGN CHOICE, safe (log 2): no theorem can use a particular value of it. -/
opaque unit : Config

/-- The default of RETRY_LIMIT (R2). The unit of the model is not fixed at it (log 2). -/
def retryLimitDefault : Nat := 5

/-- CAN_LIMIT: two consecutive CAN bytes cancel; not a parameter (R2, D33). -/
abbrev canLimit : Nat := 2

/-- SOH_PAYLOAD (R2). -/
abbrev sohPayload : Nat := 128

/-- STX_PAYLOAD (R2). -/
abbrev stxPayload : Nat := 1024

/-- CRC_INIT_VALUE (R2, R5). -/
abbrev crcInitValue : Crc := 0x0000#16

end Config

end Sys2Proof
end

