-- ==== Sys2Proof/Machine/State.lean ====
section
/-! DEFINITION. The state of the unit: every register and buffer of 10_state.md R20, the command port and the result
record of 00_scope.md R1 and R4, the state after reset (R46), and the reasons a step of the model can stop. -/

namespace Sys2Proof.Machine

/-- The fault codes of 60_exceptions.md R270, held in FAULT. Codes 6..255 are never written (R22). -/
inductive FaultCode where
  | none
  | illegalOp
  | lineOverflow
  | txBufferFull
  | txHeaderTooLong
  | txNotReady
  deriving DecidableEq, Repr

/-- The failure and reject codes of 60_exceptions.md R274, held in RX_ERR and TX_ERR. Codes 10..15 are never
written. -/
inductive ErrCode where
  | none
  | complementMismatch
  | sequenceMismatch
  | checksumMismatch
  | timeout
  | desync
  | retryLimitExceeded
  | remoteCancelled
  | aborted
  | attemptsExhausted
  deriving DecidableEq, Repr

/-- The codes of RX_PHASE (10_state.md R25). -/
inductive RxPhase where
  | idle
  | lead
  | seq
  | cmp
  | data
  | crch
  | crcl
  | purge
  | done
  | failed
  deriving DecidableEq, Repr

/-- The codes of TX_PHASE (10_state.md R35). -/
inductive TxPhase where
  | idle
  | waitC
  | ready
  | waitAck
  | waitEot
  | done
  | failed
  deriving DecidableEq, Repr

/-- The codes of TX_KIND (10_state.md R38). -/
inductive TxKind where
  | none
  | hdr
  | data
  | eot
  deriving DecidableEq, Repr

/-- A 1024-byte buffer (20_memory.md R60, R61) as (index, byte) cells in one canonical form: indices strictly
rising, none at or above the capacity, and no cell that holds what an unlisted index reads as. -/
abbrev Buf := List Host.Cell

/-- The registers of the RX unit (10_state.md R20, R25 to R34). -/
structure Rx where
  /-- RX_PHASE, R25 -/
  phase : RxPhase
  /-- RX_EXP, R26 -/
  exp : BitVec 8
  /-- RX_HDR, R27 -/
  hdr : Bool
  /-- RX_BIG, R28 -/
  big : Bool
  /-- RX_SEQB, R29 -/
  seqb : BitVec 8
  /-- RX_CMPB, R29 -/
  cmpb : BitVec 8
  /-- RX_CNT, R30 -/
  cnt : BitVec 11
  /-- RX_BUF, R30 -/
  buf : Buf
  /-- RX_CRC, R31 -/
  crc : Crc
  /-- RX_CRCH, R31 -/
  crch : BitVec 8
  /-- RX_EOTC, R32 -/
  eotc : BitVec 2
  /-- RX_CANC, R32 -/
  canc : BitVec 2
  /-- RX_RETRY, R33 -/
  retry : BitVec 4
  /-- RX_ERR, R34 -/
  err : ErrCode
  deriving DecidableEq, Repr

/-- The registers of the TX unit (10_state.md R20, R35 to R41). -/
structure Tx where
  /-- TX_PHASE, R35 -/
  phase : TxPhase
  /-- TX_SEQ, R36 -/
  seq : BitVec 8
  /-- TX_BUF, R37 -/
  buf : Buf
  /-- TX_LEN, R37 -/
  len : BitVec 11
  /-- TX_FRAME, R38 -/
  frame : List Byte
  /-- TX_KIND, R38 -/
  kind : TxKind
  /-- TX_RETRY, R39 -/
  retry : BitVec 4
  /-- TX_ATTEMPT, R39 -/
  attempt : BitVec 4
  /-- TX_CANC, R40 -/
  canc : BitVec 2
  /-- TX_ERR, R41 -/
  err : ErrCode
  deriving DecidableEq, Repr

/-- The `st` of a result record (00_scope.md R4). -/
inductive Status where
  | ok
  | notConsumed
  | faulted
  deriving DecidableEq, Repr

/-- The host events of 60_exceptions.md R276. -/
inductive Event where
  | line (l : List Byte)
  | rxHeader (p : List Byte)
  | rxNullHeader
  | rxData (p : List Byte)
  | rxDone
  | rxFailed (code : ErrCode)
  | txReady
  | txAcked
  | txDone
  | txFailed (code : ErrCode)
  deriving DecidableEq, Repr

/-- A result record (00_scope.md R4). -/
structure Res where
  st : Status
  val : Val
  bytes : List Byte
  tx : List Byte
  ev : List Event
  deriving DecidableEq, Repr

/-- The record whose every field is at its empty value (R4). -/
def Res.empty : Res := { st := .ok, val := 0#32, bytes := [], tx := [], ev := [] }

/-- The record of a fault, and of an operation refused by the fault latch (60_exceptions.md R271, R272). -/
def Res.faulted : Res := { st := .faulted, val := 0#32, bytes := [], tx := [], ev := [] }

/-- The state of the unit (10_state.md R20), with the command port and the last result record, which are the model's
own fields (log 3, log 5). -/
structure State where
  /-- FAULT, R22 -/
  fault : FaultCode
  /-- CRC_ACC, R23 -/
  crcAcc : Crc
  /-- LBUF, R24 -/
  lbuf : List Byte
  /-- the RX unit's registers -/
  rx : Rx
  /-- the TX unit's registers -/
  tx : Tx
  /-- The command words the host issues, next first (R1, R69). The model's own field, log 3. -/
  port : List CmdWord
  /-- The result record of the last operation (R4). The model's own field, log 5. -/
  res : Res
  deriving DecidableEq, Repr

/-- Where a step of the model stops. Both constructors are safe: they name an access to a buffer index that does not
exist (R61), which no state that meets the invariants of R48 makes (log 7). -/
inductive Fault where
  /-- Raised by RX_BYTE in phase DATA with RX_CNT at or above 1024. Safe. -/
  | rxBufRange
  /-- Raised by TX_LOAD, and by TX_SEND_DATA in READY, with TX_LEN above 1024. Safe. -/
  | txBufRange
  deriving DecidableEq, Repr

/-- Instructions without a meaning. No arm of `exec` raises it in this model. -/
inductive Refusal where
  /-- Raised by an arm of `exec` whose instruction has no meaning yet. Safe. -/
  | notModelled (mnemonic : String)
  deriving DecidableEq, Repr

/-- The RX registers after reset (10_state.md R46). RX_BUF, whose contents R46 leaves unspecified, is all zero:
DESIGN CHOICE, log 1. -/
def Rx.reset : Rx :=
  { phase := .idle, exp := 0#8, hdr := false, big := false, seqb := 0#8, cmpb := 0#8, cnt := 0#11, buf := [],
    crc := 0#16, crch := 0#8, eotc := 0#2, canc := 0#2, retry := 0#4, err := .none }

/-- The TX registers after reset (10_state.md R46). TX_BUF, whose contents R46 leaves unspecified, is all zero:
DESIGN CHOICE, log 1. -/
def Tx.reset : Tx :=
  { phase := .idle, seq := 0#8, buf := [], len := 0#11, frame := [], kind := .none, retry := 0#4, attempt := 0#4,
    canc := 0#2, err := .none }

/-- The state after reset (10_state.md R46, 70_reset_and_hazards.md R300). The host has issued nothing (log 3) and the
result record is empty (log 5). -/
def State.reset : State :=
  { fault := .none, crcAcc := 0#16, lbuf := [], rx := Rx.reset, tx := Tx.reset, port := [], res := Res.empty }

end Sys2Proof.Machine
end

