-- ==== Sys2Proof/Machine/Flags.lean ====
section
/-! DEFINITION. The unit has no condition codes (10_state.md R21); what it computes in their place are the codes of
its coded registers and the read-only status words of R42 to R45. -/

namespace Sys2Proof.Machine

/-- The 8-bit code of FAULT (60_exceptions.md R270). -/
def FaultCode.code : FaultCode → BitVec 8
  | .none => 0#8
  | .illegalOp => 1#8
  | .lineOverflow => 2#8
  | .txBufferFull => 3#8
  | .txHeaderTooLong => 4#8
  | .txNotReady => 5#8

/-- The 4-bit code of RX_ERR and TX_ERR (60_exceptions.md R274). -/
def ErrCode.code : ErrCode → BitVec 4
  | .none => 0#4
  | .complementMismatch => 1#4
  | .sequenceMismatch => 2#4
  | .checksumMismatch => 3#4
  | .timeout => 4#4
  | .desync => 5#4
  | .retryLimitExceeded => 6#4
  | .remoteCancelled => 7#4
  | .aborted => 8#4
  | .attemptsExhausted => 9#4

/-- The 4-bit code of RX_PHASE (10_state.md R25). -/
def RxPhase.code : RxPhase → BitVec 4
  | .idle => 0#4
  | .lead => 1#4
  | .seq => 2#4
  | .cmp => 3#4
  | .data => 4#4
  | .crch => 5#4
  | .crcl => 6#4
  | .purge => 7#4
  | .done => 8#4
  | .failed => 9#4

/-- The 4-bit code of TX_PHASE (10_state.md R35). -/
def TxPhase.code : TxPhase → BitVec 4
  | .idle => 0#4
  | .waitC => 1#4
  | .ready => 2#4
  | .waitAck => 3#4
  | .waitEot => 4#4
  | .done => 5#4
  | .failed => 6#4

/-- The 2-bit code of TX_KIND (10_state.md R38). -/
def TxKind.code : TxKind → BitVec 2
  | .none => 0#2
  | .hdr => 1#2
  | .data => 2#2
  | .eot => 3#2

/-- A field of a status word: its value, shifted to its lowest bit. -/
def field {n : Nat} (v : BitVec n) (lo : Nat) : Val := v.setWidth 32 <<< lo

/-- RX_STATUS (42_ymodem_rx.md R170, layout 10_state.md R42). -/
def rxStatusWord (r : Rx) : Val :=
  field r.phase.code 0 ||| field r.err.code 4 ||| field r.retry 8 ||| field r.eotc 12 ||| field r.canc 14
    ||| field r.exp 16 ||| field (BitVec.ofBool r.hdr) 24 ||| field (BitVec.ofBool r.big) 25

/-- TX_STATUS (43_ymodem_tx.md R222, layout 10_state.md R43). -/
def txStatusWord (t : Tx) : Val :=
  field t.phase.code 0 ||| field t.err.code 4 ||| field t.retry 8 ||| field t.attempt 12 ||| field t.seq 16
    ||| field t.kind.code 24 ||| field t.canc 26

/-- LF_STATUS (41_line_framer.md R134, layout 10_state.md R44). -/
def lfStatusWord (lbuf : List Byte) : Val := BitVec.ofNat 32 lbuf.length

/-- The FAULT word (44_system.md R252, layout 10_state.md R45). -/
def faultWord (f : FaultCode) : Val := f.code.setWidth 32

end Sys2Proof.Machine
end

