-- ==== Sys2Proof/Machine/Operands.lean ====
section
/-! DEFINITION. What an operand byte means: the wire control bytes (30_encoding.md R86), the lead bytes of the RX unit
(R87) and the response bytes of the TX unit (R88). -/

namespace Sys2Proof.Machine

/-- SOH, R86 -/
abbrev SOH : Byte := 0x01#8
/-- STX, R86 -/
abbrev STX : Byte := 0x02#8
/-- EOT, R86 -/
abbrev EOT : Byte := 0x04#8
/-- ACK, R86 -/
abbrev ACK : Byte := 0x06#8
/-- The line delimiter `\r`, R86, R130 -/
abbrev CR : Byte := 0x0D#8
/-- NAK, R86 -/
abbrev NAK : Byte := 0x15#8
/-- CAN, R86 -/
abbrev CAN : Byte := 0x18#8
/-- SUB, the pad byte, R86 -/
abbrev SUB : Byte := 0x1A#8
/-- NUL, R86 -/
abbrev NUL : Byte := 0x00#8
/-- The CRC-mode handshake byte 'C', R86 -/
abbrev HANDSHAKE : Byte := 0x43#8

/-- The meanings of a lead byte (R87). -/
inductive LeadByte where
  | soh
  | stx
  | eot
  | can
  | other
  deriving DecidableEq, Repr

/-- Exact match of all 8 bits of a lead byte (R87). -/
def leadByte (d : Byte) : LeadByte :=
  if d = SOH then .soh
  else if d = STX then .stx
  else if d = EOT then .eot
  else if d = CAN then .can
  else .other

/-- The meanings of a response byte (R88). -/
inductive RespByte where
  | handshake
  | ack
  | nak
  | can
  | other
  deriving DecidableEq, Repr

/-- Exact match of all 8 bits of a response byte (R88). -/
def respByte (d : Byte) : RespByte :=
  if d = HANDSHAKE then .handshake
  else if d = ACK then .ack
  else if d = NAK then .nak
  else if d = CAN then .can
  else .other

end Sys2Proof.Machine
end

