-- ==== Sys2Proof/Machine/Ops.lean ====
section
/-! DEFINITION. The named operations every meaning is built from: the pseudocode primitives of 00_scope.md section 6,
the buffers (20_memory.md), the CRC function (40_crc.md R110, R111), the frame of 43_ymodem_tx.md R204, the fault path
and the fault latch (60_exceptions.md R271, R272), the return from a fault (R281), and the command port. -/

namespace Sys2Proof.Machine

/-- What a meaning answers. -/
abbrev Out := Host.Outcome State Fault Refusal

/-! ## Register and result writes -/

/-- CRC_ACC <- v -/
def State.setCrcAcc (s : State) (v : Crc) : State := { s with crcAcc := v }

/-- LBUF <- l -/
def State.setLbuf (s : State) (l : List Byte) : State := { s with lbuf := l }

/-- Writes of RX registers. -/
def State.setRx (s : State) (r : Rx) : State := { s with rx := r }

/-- Writes of TX registers. -/
def State.setTx (s : State) (t : Tx) : State := { s with tx := t }

/-- An operation starts from the empty result record (R4). -/
def State.clearRes (s : State) : State := { s with res := Res.empty }

/-- `emit_tx(L)` (00_scope.md section 6). -/
def State.emitTx (s : State) (l : List Byte) : State := { s with res := { s.res with tx := s.res.tx ++ l } }

/-- `emit_ev(E)` (00_scope.md section 6). -/
def State.emitEv (s : State) (e : Event) : State := { s with res := { s.res with ev := s.res.ev ++ [e] } }

/-- `ret_val(v)` (00_scope.md section 6). -/
def State.retVal (s : State) (v : Val) : State := { s with res := { s.res with val := v } }

/-- `ret_bytes(L)` (00_scope.md section 6). -/
def State.retBytes (s : State) (l : List Byte) : State := { s with res := { s.res with bytes := l } }

/-- `ret_st(s)` (00_scope.md section 6). -/
def State.retSt (s : State) (v : Status) : State := { s with res := { s.res with st := v } }

/-! ## Faults: taking one, and the return from one -/

/-- `raise Fault(code)` (60_exceptions.md R271): FAULT <- code and the faulted result; every other register keeps the
value it had before the operation. `s` is the state before the operation's own effect. -/
def State.raiseFault (s : State) (code : FaultCode) : State := { s with fault := code, res := Res.faulted }

/-- The fault latch (60_exceptions.md R272): no effect, and the faulted result. -/
def State.refuseLatched (s : State) : State := { s with res := Res.faulted }

/-- The latch check of 60_exceptions.md R273 before an operation's own rule, which starts from the empty result. -/
def unlessLatched (s : State) (rule : State → Out) : Out :=
  if s.fault = .none then rule s.clearRes else .next s.refuseLatched

/-- The return from a fault (60_exceptions.md R281) and the RESET operation (44_system.md R251): every register of
R20 takes its reset value. The command port is the host's and keeps its words (log 6). -/
def State.resetUnit (s : State) : State := { State.reset with port := s.port }

/-! ## The 1024-byte buffers -/

/-- The capacity of RX_BUF and of TX_BUF (20_memory.md R61). -/
abbrev Buf.capacity : Nat := 1024

/-- What an index no cell lists reads as. R46 leaves the contents after reset unspecified: DESIGN CHOICE, log 1. -/
abbrev Buf.unlisted : Byte := 0x00#8

/-- The byte at an index. -/
def Buf.read : Buf → Nat → Byte
  | [], _ => Buf.unlisted
  | (a, b) :: m, i => if a = i then b else Buf.read m i

/-- Puts a byte in front of cells with higher indices, unless it is what an unlisted index reads as. -/
def Buf.cell (i : Nat) (v : Byte) (m : Buf) : Buf := if v = Buf.unlisted then m else (i, v) :: m

/-- Writes the byte at an index and keeps the canonical form. -/
def Buf.write : Buf → Nat → Byte → Buf
  | [], i, v => Buf.cell i v []
  | (a, b) :: m, i, v =>
    if i < a then Buf.cell i v ((a, b) :: m)
    else if i = a then Buf.cell i v m
    else (a, b) :: Buf.write m i v

/-- The bytes from an index on, `n` of them. -/
def Buf.slice (m : Buf) (i : Nat) : Nat → List Byte
  | 0 => []
  | n + 1 => Buf.read m i :: Buf.slice m (i + 1) n

/-- The writes of the bytes of a list, from an index on. -/
def Buf.fill (m : Buf) (i : Nat) : List Byte → Buf
  | [] => m
  | v :: l => Buf.fill (Buf.write m i v) (i + 1) l

/-- `MemRead(BUF, i, n)` (00_scope.md section 6); none where a byte would lie beyond the capacity (R61). -/
def memRead (m : Buf) (i n : Nat) : Option (List Byte) :=
  if i + n ≤ Buf.capacity then some (Buf.slice m i n) else none

/-- `MemWrite(BUF, i, n, v)` (00_scope.md section 6); none where a byte would lie beyond the capacity (R61). -/
def memWrite (m : Buf) (i : Nat) (v : List Byte) : Option Buf :=
  if i + v.length ≤ Buf.capacity then some (Buf.fill m i v) else none

/-- Cells in canonical form above a lower bound: indices strictly rising and below the capacity, no byte an unlisted
index reads as. -/
def Buf.wfFrom (lo : Nat) : Buf → Bool
  | [] => true
  | (a, b) :: m => decide (lo ≤ a) && decide (a < Buf.capacity) && decide (b ≠ Buf.unlisted) && Buf.wfFrom (a + 1) m

/-- A buffer in canonical form. -/
def Buf.wf (m : Buf) : Bool := Buf.wfFrom 0 m

/-! ## The CRC -/

/-- One round of the loop of 40_crc.md R110, with the generator polynomial 0x1021 (R5). -/
def crcRound (c : Crc) : Crc := if c.getLsbD 15 then (c <<< 1) ^^^ 0x1021#16 else c <<< 1

/-- `n` rounds. -/
def crcRounds : Nat → Crc → Crc
  | 0, c => c
  | n + 1, c => crcRounds n (crcRound c)

/-- `crc_step(c, d)` (40_crc.md R110). -/
def crcStep (c : Crc) (d : Byte) : Crc := crcRounds 8 (c ^^^ (d.setWidth 16 <<< 8))

/-- `CRC16(L)` (40_crc.md R111). -/
def crc16 (l : List Byte) : Crc := l.foldl crcStep Config.crcInitValue

/-- crc[15:8], the byte that travels first (20_memory.md R62). -/
def crcHi (c : Crc) : Byte := c.extractLsb' 8 8

/-- crc[7:0] (20_memory.md R62). -/
def crcLo (c : Crc) : Byte := c.extractLsb' 0 8

/-- The checksum formed from its two received bytes (20_memory.md R62). -/
def crcJoin (hi lo : Byte) : Crc := (hi.setWidth 16 <<< 8) ||| lo.setWidth 16

/-! ## Frames -/

/-- `make_frame(mode, seq, P)` (43_ymodem_tx.md R204, layout 30_encoding.md R89). -/
def makeFrame (mode sq : Byte) (p : List Byte) : List Byte :=
  [mode, sq, 255#8 - sq] ++ p ++ [crcHi (crc16 p), crcLo (crc16 p)]

/-! ## The command port -/

/-- The host issues a command word (00_scope.md R1): it is the next one the unit takes. -/
def State.issue (s : State) (w : CmdWord) : State := { s with port := w :: s.port }

/-- The next command word of the port, and the state in which its operation runs. -/
def State.fetch (s : State) : Option (CmdWord × State) :=
  match s.port with
  | [] => none
  | w :: rest => some (w, { s with port := rest })

/-- A command word that decodes to ILLEGAL_OP (30_encoding.md R83, R84), under the order of checks of
60_exceptions.md R273: a latched fault is kept, otherwise ILLEGAL_OP is raised. -/
def illegalWord (s : State) : Out := unlessLatched s fun s => .next (s.raiseFault .illegalOp)

end Sys2Proof.Machine
end

