-- ==== Sys2Proof/Machine/Crc.lean ====
section
/-! DEFINITION. The CRC unit (40_crc.md). -/

namespace Sys2Proof.Machine

/-- CRC_INIT (R112). -/
def execCrcInit (s : State) : Out := unlessLatched s fun s => .next (s.setCrcAcc Config.crcInitValue)

/-- CRC_BYTE d (R113). -/
def execCrcByte (d : Byte) (s : State) : Out := unlessLatched s fun s => .next (s.setCrcAcc (crcStep s.crcAcc d))

/-- CRC_READ (R114). -/
def execCrcRead (s : State) : Out := unlessLatched s fun s => .next (s.retVal (s.crcAcc.setWidth 32))

end Sys2Proof.Machine
end

