-- ==== Sys2Proof/Machine/LineFramer.lean ====
section
/-! DEFINITION. The line framer (41_line_framer.md). It never interprets a line's content (R136). -/

namespace Sys2Proof.Machine

/-- The rule of LF_BYTE (R131), with R130's delimiter; an empty line is a line (R132). -/
def lfByte (c : Config) (d : Byte) (s : State) : State :=
  if d = CR then (s.emitEv (.line s.lbuf)).setLbuf []
  else if s.lbuf.length = c.lineMax then s.raiseFault .lineOverflow
  else s.setLbuf (s.lbuf ++ [d])

/-- LF_BYTE d (R131). -/
def execLfByte (d : Byte) (s : State) : Out := unlessLatched s fun s => .next (lfByte Config.unit d s)

/-- LF_DRAIN (R133). -/
def execLfDrain (s : State) : Out := unlessLatched s fun s => .next ((s.retBytes s.lbuf).setLbuf [])

/-- LF_STATUS (R134). -/
def execLfStatus (s : State) : Out := unlessLatched s fun s => .next (s.retVal (lfStatusWord s.lbuf))

end Sys2Proof.Machine
end

