-- ==== Sys2Proof/Machine/Rx.lean ====
section
/-! DEFINITION. The YMODEM receive framer (42_ymodem_rx.md). -/

namespace Sys2Proof.Machine

/-- `size`: the payload size of the block in progress (10_state.md R28). -/
def Rx.size (r : Rx) : Nat := if r.big then Config.stxPayload else Config.sohPayload

/-- The end of a transfer in phase FAILED with a failure code (60_exceptions.md R274, R275). -/
def rxFail (code : ErrCode) (s : State) : State :=
  (s.setRx { s.rx with phase := .failed, err := code }).emitEv (.rxFailed code)

/-- `NakPath(reason)` (R165). -/
def nakPath (c : Config) (reason : ErrCode) (s : State) : State :=
  let s := s.setRx { s.rx with cnt := 0#11, retry := s.rx.retry + 1#4 }
  if s.rx.retry.toNat = c.retryLimit then rxFail .retryLimitExceeded s
  else s.setRx { s.rx with err := reason, phase := .purge }

/-- The consecutive counters of a lead byte (R154). -/
def rxCountLead (d : Byte) (s : State) : State :=
  s.setRx { s.rx with eotc := if d = EOT then s.rx.eotc else 0#2, canc := if d = CAN then s.rx.canc else 0#2 }

/-- Lead byte SOH or STX (R155). -/
def rxOpenBlock (big : Bool) (s : State) : State := s.setRx { s.rx with big := big, phase := .seq }

/-- Lead byte EOT (R156). -/
def rxLeadEot (s : State) : State :=
  let s := s.setRx { s.rx with eotc := s.rx.eotc + 1#2 }
  if s.rx.eotc.toNat = 2 then ((s.emitTx [ACK]).setRx { s.rx with phase := .done }).emitEv .rxDone
  else s.emitTx [NAK]

/-- Lead byte CAN (R157). -/
def rxLeadCan (s : State) : State :=
  let s := s.emitTx [ACK]
  let s := s.setRx { s.rx with canc := s.rx.canc + 1#2 }
  if s.rx.canc.toNat = Config.canLimit then rxFail .remoteCancelled s else s

/-- A byte in phase LEAD (R152: R154, then R155 to R158). -/
def rxLead (c : Config) (d : Byte) (s : State) : State :=
  let s := rxCountLead d s
  match leadByte d with
  | .soh => rxOpenBlock false s
  | .stx => rxOpenBlock true s
  | .eot => rxLeadEot s
  | .can => rxLeadCan s
  | .other => nakPath c .desync s

/-- A byte in phase SEQ (R159). -/
def rxSeq (d : Byte) (s : State) : State := s.setRx { s.rx with seqb := d, phase := .cmp }

/-- A byte in phase CMP (R159). -/
def rxCmp (d : Byte) (s : State) : State :=
  s.setRx { s.rx with cmpb := d, cnt := 0#11, crc := Config.crcInitValue, phase := .data }

/-- A byte in phase DATA (R160). -/
def rxData (d : Byte) (s : State) : Out :=
  match memWrite s.rx.buf s.rx.cnt.toNat [d] with
  | none => .fault .rxBufRange
  | some buf =>
    let s := s.setRx { s.rx with buf := buf, crc := crcStep s.rx.crc d, cnt := s.rx.cnt + 1#11 }
    .next (if s.rx.cnt.toNat = s.rx.size then s.setRx { s.rx with phase := .crch } else s)

/-- A byte in phase CRCH (R161). -/
def rxCrch (d : Byte) (s : State) : State := s.setRx { s.rx with crch := d, phase := .crcl }

/-- An accepted block clears the counters of the block and of the NAK path (R163, R164). -/
def rxClearBlock (s : State) : State := s.setRx { s.rx with cnt := 0#11, retry := 0#4, err := .none }

/-- An accepted header block with payload `p` (R163). -/
def rxHeader (c : Config) (p : List Byte) (s : State) : State :=
  let s := rxClearBlock s
  if p.all (· = NUL) then
    let s := s.emitEv .rxNullHeader
    let s := if c.nullHeaderAck then s.emitTx [ACK] else s
    (s.setRx { s.rx with phase := .done }).emitEv .rxDone
  else
    let s := (s.emitEv (.rxHeader p)).emitTx [ACK, HANDSHAKE]
    s.setRx { s.rx with hdr := true, exp := s.rx.exp + 1#8, phase := .lead }

/-- An accepted data block with payload `p` (R164). -/
def rxDataBlock (p : List Byte) (s : State) : State :=
  let s := ((rxClearBlock s).emitEv (.rxData p)).emitTx [ACK]
  s.setRx { s.rx with exp := s.rx.exp + 1#8, phase := .lead }

/-- Accept (R162): the block is a header block if RX_HDR = 0 (R163), else a data block (R164). -/
def rxAccept (c : Config) (s : State) : Out :=
  match memRead s.rx.buf 0 s.rx.size with
  | none => .fault .rxBufRange
  | some p => .next (if s.rx.hdr then rxDataBlock p s else rxHeader c p s)

/-- A byte in phase CRCL: the three checks in their order (R162). -/
def rxCrcl (c : Config) (d : Byte) (s : State) : Out :=
  if s.rx.seqb.toNat + s.rx.cmpb.toNat ≠ 255 then .next (nakPath c .complementMismatch s)
  else if s.rx.seqb ≠ s.rx.exp then .next (nakPath c .sequenceMismatch s)
  else if s.rx.crc ≠ crcJoin s.rx.crch d then .next (nakPath c .checksumMismatch s)
  else rxAccept c s

/-- The dispatch of RX_BYTE on RX_PHASE (R152, R153). -/
def rxByte (c : Config) (d : Byte) (s : State) : Out :=
  match s.rx.phase with
  | .idle | .done | .failed => .next (s.retSt .notConsumed)
  | .purge => .next s
  | .lead => .next (rxLead c d s)
  | .seq => .next (rxSeq d s)
  | .cmp => .next (rxCmp d s)
  | .data => rxData d s
  | .crch => .next (rxCrch d s)
  | .crcl => rxCrcl c d s

/-- The rule of RX_TIMEOUT (R167, R166). -/
def rxTimeout (c : Config) (s : State) : State :=
  match s.rx.phase with
  | .idle | .done | .failed => s
  | .purge => (s.emitTx [NAK]).setRx { s.rx with phase := .lead }
  | .lead | .seq | .cmp | .data | .crch | .crcl =>
    nakPath c .timeout (s.setRx { s.rx with eotc := 0#2, canc := 0#2 })

/-- The registers RX_START writes (R151): all but RX_BUF. -/
def Rx.started (r : Rx) : Rx :=
  { r with phase := .lead, exp := 0#8, hdr := false, big := false, seqb := 0#8, cmpb := 0#8, cnt := 0#11,
           crc := Config.crcInitValue, crch := 0#8, eotc := 0#2, canc := 0#2, retry := 0#4, err := .none }

/-- The rule of RX_ABORT (R169). -/
def rxAbort (s : State) : State :=
  match s.rx.phase with
  | .idle | .done | .failed => s
  | .lead | .seq | .cmp | .data | .crch | .crcl | .purge =>
    rxFail .aborted (s.setRx { s.rx with cnt := 0#11 })

/-- RX_START (R151). -/
def execRxStart (s : State) : Out := unlessLatched s fun s => .next ((s.setRx s.rx.started).emitTx [HANDSHAKE])

/-- RX_BYTE d (R152). -/
def execRxByte (d : Byte) (s : State) : Out := unlessLatched s (rxByte Config.unit d)

/-- RX_TIMEOUT (R167). -/
def execRxTimeout (s : State) : Out := unlessLatched s fun s => .next (rxTimeout Config.unit s)

/-- RX_ABORT (R169). -/
def execRxAbort (s : State) : Out := unlessLatched s fun s => .next (rxAbort s)

/-- RX_STATUS (R170). -/
def execRxStatus (s : State) : Out := unlessLatched s fun s => .next (s.retVal (rxStatusWord s.rx))

end Sys2Proof.Machine
end

