-- ==== Sys2Proof/Machine/System.lean ====
section
/-! DEFINITION. The system operations (44_system.md). -/

namespace Sys2Proof.Machine

/-- NOP (R250). -/
def execNop (s : State) : Out := unlessLatched s .next

/-- RESET (R251): it runs whether or not FAULT is latched (60_exceptions.md R273). -/
def execReset (s : State) : Out := .next s.resetUnit.clearRes

/-- GET_FAULT (R252): it runs whether or not FAULT is latched (60_exceptions.md R273). -/
def execGetFault (s : State) : Out := .next (s.clearRes.retVal (faultWord s.fault))

end Sys2Proof.Machine
end

