-- ==== Sys2Proof/Machine/Tx.lean ====
section
/-! DEFINITION. The YMODEM send framer (43_ymodem_tx.md). -/

namespace Sys2Proof.Machine

/-- `Fail(code)` (43_ymodem_tx.md, before section 1). -/
def txFail (code : ErrCode) (s : State) : State :=
  (s.setTx { s.tx with phase := .failed, err := code }).emitEv (.txFailed code)

/-- `NoResolve` (R215). -/
def txNoResolve (c : Config) (s : State) : State :=
  let s := s.setTx { s.tx with attempt := s.tx.attempt + 1#4 }
  if s.tx.attempt.toNat = c.retryLimit then txFail .attemptsExhausted s else s

/-- `Resend` (R217). -/
def txResend (s : State) : State := (s.emitTx s.tx.frame).setTx { s.tx with attempt := 0#4 }

/-- The retry of a NAKed block (R214) and of an EOT that was not ACKed (R216). -/
def txRetryOrFail (c : Config) (s : State) : State :=
  let s := s.setTx { s.tx with retry := s.tx.retry + 1#4 }
  if s.tx.retry.toNat = c.retryLimit then txFail .retryLimitExceeded s else txResend s

/-- A CAN response in a wait phase (R212). -/
def txCan (s : State) : State :=
  let s := s.setTx { s.tx with canc := s.tx.canc + 1#2 }
  if s.tx.canc.toNat = Config.canLimit then txFail .remoteCancelled s else s

/-- A byte that is not CAN, or a timeout, ends a run of CAN bytes (R211, R218). -/
def txClearCanc (s : State) : State := s.setTx { s.tx with canc := 0#2 }

/-- A non-CAN response in WAIT_C (R213). -/
def txRespWaitC (c : Config) (d : Byte) (s : State) : State :=
  match respByte d with
  | .handshake => (s.setTx { s.tx with attempt := 0#4, phase := .ready }).emitEv .txReady
  | .ack | .nak | .can | .other => txNoResolve c s

/-- A non-CAN response in WAIT_ACK (R214, R215). -/
def txRespWaitAck (c : Config) (d : Byte) (s : State) : State :=
  match respByte d with
  | .ack =>
    (s.setTx { s.tx with seq := s.tx.seq + 1#8, retry := 0#4, attempt := 0#4, phase := .ready }).emitEv .txAcked
  | .nak => txRetryOrFail c s
  | .handshake | .can | .other => txNoResolve c s

/-- A non-CAN response in WAIT_EOT (R216). -/
def txRespWaitEot (c : Config) (d : Byte) (s : State) : State :=
  match respByte d with
  | .ack => (s.setTx { s.tx with phase := .done }).emitEv .txDone
  | .handshake | .nak | .can | .other => txRetryOrFail c s

/-- The dispatch of TX_RESP on TX_PHASE (R211). -/
def txResp (c : Config) (d : Byte) (s : State) : State :=
  match s.tx.phase with
  | .idle | .done | .failed => s.retSt .notConsumed
  | .ready => s
  | .waitC => if d = CAN then txCan s else txRespWaitC c d (txClearCanc s)
  | .waitAck => if d = CAN then txCan s else txRespWaitAck c d (txClearCanc s)
  | .waitEot => if d = CAN then txCan s else txRespWaitEot c d (txClearCanc s)

/-- The rule of TX_TIMEOUT (R218). -/
def txTimeout (c : Config) (s : State) : State :=
  match s.tx.phase with
  | .idle | .ready | .done | .failed => s
  | .waitC | .waitAck => txNoResolve c (txClearCanc s)
  | .waitEot => txRetryOrFail c (txClearCanc s)

/-- The rule of TX_LOAD (R203, in any phase: R202). -/
def txLoad (d : Byte) (s : State) : Out :=
  if s.tx.len.toNat = Buf.capacity then .next (s.raiseFault .txBufferFull)
  else
    match memWrite s.tx.buf s.tx.len.toNat [d] with
    | none => .fault .txBufRange
    | some buf => .next (s.setTx { s.tx with buf := buf, len := s.tx.len + 1#11 })

/-- What the three send operations share (R205 to R207): the frame is kept for a resend and emitted whole (R209). -/
def txSend (kind : TxKind) (phase : TxPhase) (f : List Byte) (s : State) : State :=
  (s.setTx { s.tx with frame := f, kind := kind, retry := 0#4, attempt := 0#4, phase := phase }).emitTx f

/-- A block: the loaded bytes padded to `size` with `pad`, framed and sent; the buffer is then empty (R205, R206). -/
def txSendBlock (mode : Byte) (size : Nat) (pad : Byte) (kind : TxKind) (s : State) : Out :=
  match memRead s.tx.buf 0 s.tx.len.toNat with
  | none => .fault .txBufRange
  | some l =>
    let p := l ++ List.replicate (size - s.tx.len.toNat) pad
    .next (txSend kind .waitAck (makeFrame mode s.tx.seq p) (s.setTx { s.tx with len := 0#11 }))

/-- The rule of TX_SEND_HDR, its two faults in the order of R205. -/
def txSendHdr (s : State) : Out :=
  if s.tx.phase ≠ .ready then .next (s.raiseFault .txNotReady)
  else if s.tx.len.toNat > Config.sohPayload then .next (s.raiseFault .txHeaderTooLong)
  else txSendBlock SOH Config.sohPayload NUL .hdr s

/-- The rule of TX_SEND_DATA (R206). -/
def txSendData (s : State) : Out :=
  if s.tx.phase ≠ .ready then .next (s.raiseFault .txNotReady)
  else txSendBlock STX Config.stxPayload SUB .data s

/-- The rule of TX_SEND_EOT (R207). -/
def txSendEot (s : State) : State :=
  if s.tx.phase ≠ .ready then s.raiseFault .txNotReady else txSend .eot .waitEot [EOT] s

/-- The rule of TX_ABORT (R220). -/
def txAbort (s : State) : State :=
  match s.tx.phase with
  | .waitC | .ready | .waitAck | .waitEot => txFail .aborted s
  | .idle | .done | .failed => s

/-- The registers TX_OPEN writes (R201): all but TX_BUF. -/
def Tx.opened (t : Tx) : Tx :=
  { t with phase := .waitC, seq := 0#8, len := 0#11, frame := [], kind := .none, retry := 0#4, attempt := 0#4,
           canc := 0#2, err := .none }

/-- TX_OPEN (R201). -/
def execTxOpen (s : State) : Out := unlessLatched s fun s => .next (s.setTx s.tx.opened)

/-- TX_RESP d (R211). -/
def execTxResp (d : Byte) (s : State) : Out := unlessLatched s fun s => .next (txResp Config.unit d s)

/-- TX_TIMEOUT (R218). -/
def execTxTimeout (s : State) : Out := unlessLatched s fun s => .next (txTimeout Config.unit s)

/-- TX_LOAD d (R203). -/
def execTxLoad (d : Byte) (s : State) : Out := unlessLatched s (txLoad d)

/-- TX_SEND_HDR (R205). -/
def execTxSendHdr (s : State) : Out := unlessLatched s txSendHdr

/-- TX_SEND_DATA (R206). -/
def execTxSendData (s : State) : Out := unlessLatched s txSendData

/-- TX_SEND_EOT (R207). -/
def execTxSendEot (s : State) : Out := unlessLatched s fun s => .next (txSendEot s)

/-- TX_ABORT (R220). -/
def execTxAbort (s : State) : Out := unlessLatched s fun s => .next (txAbort s)

/-- TX_STATUS (R222). -/
def execTxStatus (s : State) : Out := unlessLatched s fun s => .next (s.retVal (txStatusWord s.tx))

end Sys2Proof.Machine
end

