-- ==== Sys2Proof/Machine/Dispatch.lean ====
section
/-! DEFINITION. The dispatch of a decoded operation to its meaning (30_encoding.md R81), one arm per constructor. -/

namespace Sys2Proof.Machine

def exec (i : Instr) (s : State) : Host.Outcome State Fault Refusal :=
  match i with
  | .nop => Sys2Proof.Machine.execNop s
  | .reset => Sys2Proof.Machine.execReset s
  | .getFault => Sys2Proof.Machine.execGetFault s
  | .crcInit => Sys2Proof.Machine.execCrcInit s
  | .crcByte d => Sys2Proof.Machine.execCrcByte d s
  | .crcRead => Sys2Proof.Machine.execCrcRead s
  | .lfByte d => Sys2Proof.Machine.execLfByte d s
  | .lfDrain => Sys2Proof.Machine.execLfDrain s
  | .lfStatus => Sys2Proof.Machine.execLfStatus s
  | .rxStart => Sys2Proof.Machine.execRxStart s
  | .rxByte d => Sys2Proof.Machine.execRxByte d s
  | .rxTimeout => Sys2Proof.Machine.execRxTimeout s
  | .rxAbort => Sys2Proof.Machine.execRxAbort s
  | .rxStatus => Sys2Proof.Machine.execRxStatus s
  | .txOpen => Sys2Proof.Machine.execTxOpen s
  | .txResp d => Sys2Proof.Machine.execTxResp d s
  | .txTimeout => Sys2Proof.Machine.execTxTimeout s
  | .txLoad d => Sys2Proof.Machine.execTxLoad d s
  | .txSendHdr => Sys2Proof.Machine.execTxSendHdr s
  | .txSendData => Sys2Proof.Machine.execTxSendData s
  | .txSendEot => Sys2Proof.Machine.execTxSendEot s
  | .txAbort => Sys2Proof.Machine.execTxAbort s
  | .txStatus => Sys2Proof.Machine.execTxStatus s

end Sys2Proof.Machine
end

