-- ==== Sys2Proof/Machine/Step.lean ====
section
/-! DEFINITION. The step of one command word (60_exceptions.md R273). -/

namespace Sys2Proof.Machine

/-- One step: the next command word of the port is decoded (30_encoding.md R85) and its operation runs, or ILLEGAL_OP
is raised (R273). With no command word issued the unit does nothing and holds its state (00_scope.md R1,
60_exceptions.md R284; log 4). -/
def step (s : State) : Host.Outcome State Fault Refusal :=
  match s.fetch with
  | none => .next s
  | some (w, s') =>
    match decode w with
    | .ok i => exec i s'
    | .error _ => illegalWord s'

/-- The state in which the host issues the word with these bits as the next command word (log 3). -/
def State.withFetchWord (s : State) (nbits w : Nat) : State := s.issue (BitVec.ofNat 16 (w % 2 ^ nbits))

end Sys2Proof.Machine
end

