-- ==== Sys2Proof/Machine/Asm.lean ====
section
/-! DEFINITION. The spec's assembler (30_encoding.md R95) and its pseudo-operations (R96). Neither is part of a step:
a line assembles to one command word the host may issue, a pseudo-operation is a list of operations. -/

namespace Sys2Proof.Machine

/-! ## Assembler lines (R95) -/

/-- The mnemonic of an operation (R81). -/
def mnemonicOf : Instr → String
  | .nop => "NOP"
  | .reset => "RESET"
  | .getFault => "GET_FAULT"
  | .crcInit => "CRC_INIT"
  | .crcByte _ => "CRC_BYTE"
  | .crcRead => "CRC_READ"
  | .lfByte _ => "LF_BYTE"
  | .lfDrain => "LF_DRAIN"
  | .lfStatus => "LF_STATUS"
  | .rxStart => "RX_START"
  | .rxByte _ => "RX_BYTE"
  | .rxTimeout => "RX_TIMEOUT"
  | .rxAbort => "RX_ABORT"
  | .rxStatus => "RX_STATUS"
  | .txOpen => "TX_OPEN"
  | .txResp _ => "TX_RESP"
  | .txTimeout => "TX_TIMEOUT"
  | .txLoad _ => "TX_LOAD"
  | .txSendHdr => "TX_SEND_HDR"
  | .txSendData => "TX_SEND_DATA"
  | .txSendEot => "TX_SEND_EOT"
  | .txAbort => "TX_ABORT"
  | .txStatus => "TX_STATUS"

/-- A hexadecimal digit, in either case (log 9). -/
def hexDigit (ch : Char) : Option Nat :=
  let n := ch.toNat
  if 48 ≤ n ∧ n ≤ 57 then some (n - 48)
  else if 65 ≤ n ∧ n ≤ 70 then some (n - 55)
  else if 97 ≤ n ∧ n ≤ 102 then some (n - 87)
  else none

/-- The control byte names an operand may use (R95), with the bytes of R86. -/
def controlNames : List (List Char × Byte) :=
  [("SOH".toList, SOH), ("STX".toList, STX), ("EOT".toList, EOT), ("ACK".toList, ACK), ("NAK".toList, NAK),
   ("CAN".toList, CAN), ("SUB".toList, SUB), ("NUL".toList, NUL), ("CR".toList, CR)]

/-- The byte of an operand: a control name, `0xHH`, or a character in single quotes (R95), an ASCII one (log 9). -/
def operandByte (l : List Char) : Option Byte :=
  match controlNames.lookup l with
  | some b => some b
  | none =>
    match l with
    | [z, x, h, k] =>
      if z = '0' ∧ x = 'x' then
        match hexDigit h, hexDigit k with
        | some a, some b => some (BitVec.ofNat 8 (16 * a + b))
        | _, _ => none
      else none
    | [q, ch, r] => if q.toNat = 39 ∧ r.toNat = 39 ∧ ch.toNat < 128 then some (BitVec.ofNat 8 ch.toNat) else none
    | _ => none

/-- Whether a row of the table R81 is named by this mnemonic. -/
def Form.named (f : Form) (m : List Char) : Bool :=
  match f with
  | .plain i => decide ((mnemonicOf i).toList = m)
  | .imm8 mk => decide ((mnemonicOf (mk 0#8)).toList = m)

/-- The characters of a line before its comment and without trailing spaces. The comment starts at the first `;`, one in
single quotes included, so that `TX_LOAD ';'` assembles to nothing and the byte is written `0x3B`: DESIGN CHOICE, log 9
(R95 allows a character in quotes, says that `;` starts a comment, and does not say which holds there). -/
def lineText (line : List Char) : List Char :=
  ((line.takeWhile (· ≠ ';')).reverse.dropWhile (· = ' ')).reverse

/-- The command word of a line (R95): a mnemonic, then for an operation with an operand one space and the byte; none
for any other text (log 9). -/
def assembleLine (line : String) : Option CmdWord :=
  let t := lineText line.toList
  let m := t.takeWhile (· ≠ ' ')
  match opTable.find? (fun row => Form.named row.2 m), t.drop m.length with
  | some (op, .plain _), [] => some (mkWord op 0x00#8)
  | some (op, .imm8 _), _ :: l => (operandByte l).map (mkWord op)
  | _, _ => none

/-- The ASCII bytes of a text (00_scope.md section 6, R96). A character that is not ASCII, whose bytes the spec does not
give, stands for the low 8 bits of its code point: DESIGN CHOICE, log 11. -/
def asciiBytes (text : String) : List Byte := text.toList.map fun ch => BitVec.ofNat 8 ch.toNat

/-! ## Pseudo-operations (R96) -/

/-- CRC_BYTES -/
def crcBytes (l : List Byte) : List Instr := l.map .crcByte

/-- CRC_OF -/
def crcOf (l : List Byte) : List Instr := .crcInit :: crcBytes l ++ [.crcRead]

/-- LF_BYTES -/
def lfBytes (l : List Byte) : List Instr := l.map .lfByte

/-- RX_BYTES -/
def rxBytes (l : List Byte) : List Instr := l.map .rxByte

/-- The payload size a mode byte stands for (30_encoding.md R89): 1024 for STX, 128 for SOH. R89 gives no other mode a
size, and any other byte counts as 128: DESIGN CHOICE, log 11. -/
def modeSize (mode : Byte) : Nat := if mode = STX then Config.stxPayload else Config.sohPayload

/-- RX_FRAME m, s, P: P is padded with 0x00 to the size of mode m. A P longer than that, for which R96 gives no
expansion, stays whole: DESIGN CHOICE, log 11. -/
def rxFrame (mode sq : Byte) (p : List Byte) : List Instr :=
  rxBytes (makeFrame mode sq (p ++ List.replicate (modeSize mode - p.length) NUL))

/-- TX_LOADS -/
def txLoads (l : List Byte) : List Instr := l.map .txLoad

end Sys2Proof.Machine
end

