-- ==== Sys2Proof/Machine/HostDuty.lean ====
section
/-! DEFINITION. The host's side of 70_reset_and_hazards.md, as far as it is a function of the unit's state and of the
bytes the host holds: which timer it runs (R306), to which operation it passes a byte (R304), when a transfer has ended
(R313), what it issues in a transfer (R303, R305) and at a teardown (R308). No step of the unit uses any of it: the
unit cannot check a host (R304), so the machine allows every sequence of command words (log 10). -/

namespace Sys2Proof.Machine

/-! ## When a transfer has ended, and which one is active -/

/-- A receive transfer has ended (R313). -/
def receiveEnded (s : State) : Bool := s.rx.phase = .done || s.rx.phase = .failed

/-- A send transfer has ended (R313). -/
def sendEnded (s : State) : Bool := s.tx.phase = .done || s.tx.phase = .failed

/-- The RX unit is in an active phase. -/
def receiveActive (s : State) : Bool := s.rx.phase ≠ .idle && !receiveEnded s

/-- The TX unit is in an active phase. -/
def sendActive (s : State) : Bool := s.tx.phase ≠ .idle && !sendEnded s

/-- At most one transfer at a time: a duty of the host that the unit does not check (R309). -/
def oneTransfer (s : State) : Bool := !(receiveActive s && sendActive s)

/-! ## The timer duty (R306) -/

/-- The two timers of R2 and R306. -/
inductive HostTimer where
  /-- RX_TIMEOUT_MS -/
  | receive
  /-- PURGE_TIMEOUT_MS -/
  | purge
  deriving DecidableEq, Repr

/-- The timer the host runs for the RX unit, and the operation it issues when that timer expires. -/
def rxTimer (s : State) : Option (HostTimer × Instr) :=
  match s.rx.phase with
  | .lead | .seq | .cmp | .data | .crch | .crcl => some (.receive, .rxTimeout)
  | .purge => some (.purge, .rxTimeout)
  | .idle | .done | .failed => none

/-- The same for the TX unit. -/
def txTimer (s : State) : Option (HostTimer × Instr) :=
  match s.tx.phase with
  | .waitC | .waitAck | .waitEot => some (.receive, .txTimeout)
  | .idle | .ready | .done | .failed => none

/-! ## The byte hand-off duty (R304) -/

/-- A byte is passed to each handler in turn until one consumes it, and to none after that. -/
def handOff : List (Byte → Instr) → Byte → State → Option (State × List Res)
  | [], _, s => some (s, [])
  | h :: hs, d, s =>
    match exec (h d) s with
    | .next t =>
      if t.res.st = .ok then some (t, [t.res])
      else (handOff hs d t).map fun p => (p.1, t.res :: p.2)
    | .fault _ | .refused _ => none

/-- Bytes in arrival order. -/
def handOffAll (hs : List (Byte → Instr)) : List Byte → State → Option (State × List Res)
  | [], s => some (s, [])
  | d :: l, s =>
    match handOff hs d s with
    | none => none
    | some (t, rs) => (handOffAll hs l t).map fun p => (p.1, rs ++ p.2)

/-- The handlers of a byte during a receive transfer, and after it (R303 steps 4 and 5). -/
def receiveHandlers : List (Byte → Instr) := [.rxByte, .lfByte]

/-- The handlers of a byte during a send transfer, and after it (R305 steps 4 and 8). -/
def sendHandlers : List (Byte → Instr) := [.txResp, .lfByte]

/-! ## Transfers -/

/-- Steps 2 to 5 of a receive transfer (R303): drain, start, then the drained bytes and the received ones. -/
def receiveTransfer (received : List Byte) (s : State) : Option (State × List Res) :=
  match exec .lfDrain s with
  | .fault _ | .refused _ => none
  | .next t =>
    match exec .rxStart t with
    | .fault _ | .refused _ => none
    | .next u => (handOffAll receiveHandlers (t.res.bytes ++ received) u).map fun p => (p.1, t.res :: u.res :: p.2)

/-- Step 5 of a send transfer (R305): the header text. -/
def sendHeaderOps (text : List Byte) : List Instr := txLoads text ++ [.txSendHdr]

/-- Step 6 of a send transfer (R305): one piece of the file. -/
def sendPieceOps (piece : List Byte) : List Instr := txLoads piece ++ [.txSendData]

/-- What the host issues when a stream is destroyed or the transport ends (R308). With both units active, against R309,
RX_ABORT comes first: DESIGN CHOICE, log 10. -/
def teardownOps (s : State) : List Instr :=
  (if receiveActive s then [.rxAbort] else []) ++ (if sendActive s then [.txAbort] else [])

end Sys2Proof.Machine
end

