-- ==== Sys2Proof/Safety.lean ====
section
/-! DEFINITION. The terms claims use: runs of operations with their results, the reset values of R46, the invariants of
10_state.md R48 and what makes them inductive, the visible part of a state (R47), and the encoding of an operation with
its illegal words. -/

namespace Sys2Proof.Safety

open Sys2Proof.Machine

/-! ## Runs -/

/-- The host issues operations one after another; the final state and the result records in order (R67, R69). None if
a step stops. -/
def runOps : List Instr → State → Option (State × List Res)
  | [], s => some (s, [])
  | i :: is, s =>
    match exec i s with
    | .next t => (runOps is t).map fun p => (p.1, t.res :: p.2)
    | .fault _ | .refused _ => none

/-- The same over command words, each through a step of the machine. -/
def runWords : List CmdWord → State → Option (State × List Res)
  | [], s => some (s, [])
  | w :: ws, s =>
    match step (s.issue w) with
    | .next t => (runWords ws t).map fun p => (p.1, t.res :: p.2)
    | .fault _ | .refused _ => none

/-- All bytes emitted toward the transport, in order (R69). -/
def wire (rs : List Res) : List Byte := rs.flatMap Res.tx

/-- All events, in order (R69, R277). -/
def events (rs : List Res) : List Event := rs.flatMap Res.ev

/-- Every byte handed to the unit was consumed. -/
def allOk (rs : List Res) : Prop := ∀ r ∈ rs, r.st = .ok

/-! ## Records and encodings -/

/-- A result record of status OK with only these fields set (R4). -/
def okRes (val : Val) (bytes tx : List Byte) (ev : List Event) : Res :=
  { st := .ok, val := val, bytes := bytes, tx := tx, ev := ev }

/-- A record of status NOT_CONSUMED with every other field empty (R4, R152, R211). -/
def notConsumedRes : Res := { st := .notConsumed, val := 0#32, bytes := [], tx := [], ev := [] }

/-- The step of this command word raises ILLEGAL_OP when no fault is latched, and is refused by the latch, which keeps
its code, when one is (30_encoding.md R83, R84; 60_exceptions.md R271 to R273). -/
def RaisesIllegalOp (w : CmdWord) : Prop :=
  ∀ (s : State) (rest : List CmdWord), s.port = w :: rest →
    (s.fault = .none →
      step s = .next { s with port := rest, fault := .illegalOp, res := Res.faulted }) ∧
    (s.fault ≠ .none → step s = .next { s with port := rest, res := Res.faulted })

/-- An operation without operand: OP = `op` with IMM8 = 0x00 is its word, and `op` with any other IMM8 is illegal
(R81, R83). -/
def EncodesPlain (i : Instr) (op : Byte) : Prop :=
  encode i = op ++ 0x00#8 ∧ decode (op ++ 0x00#8) = .ok i ∧ ∀ imm : Byte, imm ≠ 0x00#8 → RaisesIllegalOp (op ++ imm)

/-- An operation with the operand d: OP = `op` with IMM8 = d is its word, for every d (R81, R82). -/
def EncodesByte (mk : Byte → Instr) (op : Byte) : Prop :=
  ∀ d : Byte, encode (mk d) = op ++ d ∧ decode (op ++ d) = .ok (mk d)

/-! ## Reset -/

/-- Every register of R46's table at its reset value. RX_BUF and TX_BUF are left out: R46 leaves them unspecified. -/
structure AtResetValues (s : State) : Prop where
  fault : s.fault = .none
  crcAcc : s.crcAcc = 0x0000#16
  lbuf : s.lbuf = []
  rxPhase : s.rx.phase = .idle
  rxExp : s.rx.exp = 0#8
  rxHdr : s.rx.hdr = false
  rxBig : s.rx.big = false
  rxSeqb : s.rx.seqb = 0#8
  rxCmpb : s.rx.cmpb = 0#8
  rxCnt : s.rx.cnt = 0#11
  rxCrc : s.rx.crc = 0#16
  rxCrch : s.rx.crch = 0#8
  rxEotc : s.rx.eotc = 0#2
  rxCanc : s.rx.canc = 0#2
  rxRetry : s.rx.retry = 0#4
  rxErr : s.rx.err = .none
  txPhase : s.tx.phase = .idle
  txSeq : s.tx.seq = 0#8
  txLen : s.tx.len = 0#11
  txFrame : s.tx.frame = []
  txKind : s.tx.kind = .none
  txRetry : s.tx.retry = 0#4
  txAttempt : s.tx.attempt = 0#4
  txCanc : s.tx.canc = 0#2
  txErr : s.tx.err = .none

/-! ## What the protocol rules write -/

/-- What `NakPath(reason)` (R165) writes from `s`, on top of the consecutive counters `e` and `k` that the operation
left. -/
def NakPathFrom (reason : ErrCode) (e k : BitVec 2) (s t : State) : Prop :=
  if (s.rx.retry + 1#4).toNat = Config.unit.retryLimit then
    t = { s with
          rx := { s.rx with eotc := e, canc := k, cnt := 0#11, retry := s.rx.retry + 1#4,
                            phase := .failed, err := .retryLimitExceeded },
          res := okRes 0#32 [] [] [.rxFailed .retryLimitExceeded] }
  else
    t = { s with
          rx := { s.rx with eotc := e, canc := k, cnt := 0#11, retry := s.rx.retry + 1#4,
                            phase := .purge, err := reason },
          res := okRes 0#32 [] [] [] }

/-- A block whose three checks of R162 hold when its last byte `d` arrives. -/
def BlockIsValid (r : Rx) (d : Byte) : Prop :=
  r.seqb.toNat + r.cmpb.toNat = 255 ∧ r.seqb = r.exp ∧ r.crc = (r.crch.setWidth 16 <<< 8) ||| d.setWidth 16

/-- The bytes of a buffer from its start, one read per index. -/
def firstBytes (m : Buf) (n : Nat) : List Byte := (List.range n).map (Buf.read m)

/-- The frame of R89 for a payload. -/
def frameOf (mode sq : Byte) (p : List Byte) : List Byte :=
  [mode, sq, 255#8 - sq] ++ p ++ [(crc16 p).extractLsb' 8 8, (crc16 p).extractLsb' 0 8]

/-- `NoResolve` (R215) from `s`, on top of the cleared CAN counter. -/
def NoResolveFrom (s t : State) : Prop :=
  if (s.tx.attempt + 1#4).toNat = Config.unit.retryLimit then
    t = { s with
          tx := { s.tx with canc := 0#2, attempt := s.tx.attempt + 1#4, phase := .failed, err := .attemptsExhausted },
          res := okRes 0#32 [] [] [.txFailed .attemptsExhausted] }
  else
    t = { s with tx := { s.tx with canc := 0#2, attempt := s.tx.attempt + 1#4 }, res := okRes 0#32 [] [] [] }

/-- A counted retry from `s` (R214, R216): the failure at the limit, else `Resend` (R217) of the last frame. -/
def RetryFrom (s t : State) : Prop :=
  if (s.tx.retry + 1#4).toNat = Config.unit.retryLimit then
    t = { s with
          tx := { s.tx with canc := 0#2, retry := s.tx.retry + 1#4, phase := .failed, err := .retryLimitExceeded },
          res := okRes 0#32 [] [] [.txFailed .retryLimitExceeded] }
  else
    t = { s with
          tx := { s.tx with canc := 0#2, retry := s.tx.retry + 1#4, attempt := 0#4 },
          res := okRes 0#32 [] s.tx.frame [] }

/-! ## Invariants -/

/-- The phases in which a payload is held: RX_CNT = 0 outside them (R48). -/
def holdsPayload (p : RxPhase) : Prop := p = .data ∨ p = .crch ∨ p = .crcl

/-- The invariants of R48, as the rule lists them. FAULT is 0..5 by its type (log 8). -/
structure ListedInvariants (c : Config) (s : State) : Prop where
  lbufLength : s.lbuf.length ≤ c.lineMax
  lbufNoCr : 0x0D#8 ∉ s.lbuf
  rxCnt : s.rx.cnt.toNat ≤ 1024
  rxCntSmall : s.rx.big = false → s.rx.cnt.toNat ≤ 128
  rxCntZero : ¬ holdsPayload s.rx.phase → s.rx.cnt = 0#11
  txLen : s.tx.len.toNat ≤ 1024
  rxRetry : s.rx.phase ≠ .failed → s.rx.retry.toNat < c.retryLimit
  txRetry : s.tx.phase ≠ .failed → s.tx.retry.toNat < c.retryLimit
  txAttempt : s.tx.phase ≠ .failed → s.tx.attempt.toNat < c.retryLimit
  rxEotc : s.rx.phase ≠ .done → s.rx.eotc.toNat ≤ 1
  rxCanc : s.rx.phase ≠ .failed → s.rx.canc.toNat ≤ 1
  txCanc : s.tx.phase ≠ .failed → s.tx.canc.toNat ≤ 1
  fault : s.fault.code.toNat ≤ 5

/-- What every step keeps of the RX unit: R48's clauses, the ranges of R20 and R30 to R34, RX_BUF in canonical form,
and RX_CRC the CRC of the payload received so far (R31). -/
structure RxInv (c : Config) (r : Rx) : Prop where
  buf : Buf.wf r.buf = true
  data : r.phase = .data → r.cnt.toNat < r.size
  full : r.phase = .crch ∨ r.phase = .crcl → r.cnt.toNat = r.size
  crc : holdsPayload r.phase → r.crc = crc16 (Buf.slice r.buf 0 r.cnt.toNat)
  empty : ¬ holdsPayload r.phase → r.cnt = 0#11
  retry : r.retry.toNat ≤ c.retryLimit
  retryLimit : r.retry.toNat = c.retryLimit → r.phase = .failed
  eotc : r.eotc.toNat ≤ 2
  eotcTwo : r.eotc.toNat = 2 → r.phase = .done
  canc : r.canc.toNat ≤ 2
  cancTwo : r.canc.toNat = 2 → r.phase = .failed
  errFailed : r.phase = .failed → r.err = .retryLimitExceeded ∨ r.err = .remoteCancelled ∨ r.err = .aborted
  errActive : r.phase ≠ .failed →
    r.err ≠ .retryLimitExceeded ∧ r.err ≠ .remoteCancelled ∧ r.err ≠ .aborted ∧ r.err ≠ .attemptsExhausted
  errIdle : r.phase = .idle → r.err = .none

/-- What every step keeps of the TX unit: R48's clauses, the ranges of R20 and R37 to R41, TX_BUF in canonical form,
and TX_FRAME a frame of the kind TX_KIND says (R38). -/
structure TxInv (c : Config) (t : Tx) : Prop where
  buf : Buf.wf t.buf = true
  len : t.len.toNat ≤ 1024
  retry : t.retry.toNat ≤ c.retryLimit
  retryLimit : t.retry.toNat = c.retryLimit → t.phase = .failed
  attempt : t.attempt.toNat ≤ c.retryLimit
  attemptLimit : t.attempt.toNat = c.retryLimit → t.phase = .failed
  canc : t.canc.toNat ≤ 2
  cancTwo : t.canc.toNat = 2 → t.phase = .failed
  errFailed : t.phase = .failed →
    t.err = .retryLimitExceeded ∨ t.err = .remoteCancelled ∨ t.err = .aborted ∨ t.err = .attemptsExhausted
  errActive : t.phase ≠ .failed → t.err = .none
  kindNone : t.kind = .none → t.frame = []
  kindHdr : t.kind = .hdr → t.frame.length = 133
  kindData : t.kind = .data → t.frame.length = 1029
  kindEot : t.kind = .eot → t.frame = [EOT]
  waitAck : t.phase = .waitAck → t.kind = .hdr ∨ t.kind = .data
  waitEot : t.phase = .waitEot → t.kind = .eot

/-- The invariant of the unit. -/
structure UnitInv (s : State) : Prop where
  lbufLength : s.lbuf.length ≤ Config.unit.lineMax
  lbufNoCr : CR ∉ s.lbuf
  rx : RxInv Config.unit s.rx
  tx : TxInv Config.unit s.tx

/-! ## Sub-units -/

/-- The sub-units of 00_scope.md section 1, and the system operations beside them (44_system.md). -/
inductive SubUnit where
  | system
  | crc
  | lf
  | rx
  | tx
  deriving DecidableEq, Repr

/-- The sub-unit an operation belongs to, by the file of spec/ that holds its rule. -/
def subUnit : Instr → SubUnit
  | .nop | .reset | .getFault => .system
  | .crcInit | .crcByte _ | .crcRead => .crc
  | .lfByte _ | .lfDrain | .lfStatus => .lf
  | .rxStart | .rxByte _ | .rxTimeout | .rxAbort | .rxStatus => .rx
  | .txOpen | .txResp _ | .txTimeout | .txLoad _ | .txSendHdr | .txSendData | .txSendEot | .txAbort | .txStatus => .tx

/-! ## Observability -/

/-- Two states that differ at most in the bytes R47 calls unobservable: RX_BUF from RX_CNT on, TX_BUF from TX_LEN on.
The buffers of both are in canonical form. -/
structure SameVisible (s t : State) : Prop where
  fields : t = { s with rx := { s.rx with buf := t.rx.buf }, tx := { s.tx with buf := t.tx.buf } }
  rxBuf : ∀ i, i < s.rx.cnt.toNat → Buf.read t.rx.buf i = Buf.read s.rx.buf i
  txBuf : ∀ i, i < s.tx.len.toNat → Buf.read t.tx.buf i = Buf.read s.tx.buf i
  rxWf : Buf.wf s.rx.buf = true ∧ Buf.wf t.rx.buf = true
  txWf : Buf.wf s.tx.buf = true ∧ Buf.wf t.tx.buf = true

/-! ## Resends -/

/-- The operations that put a new frame on the wire (R205 to R207). -/
def isSend : Instr → Bool
  | .txSendHdr | .txSendData | .txSendEot => true
  | .nop | .reset | .getFault | .crcInit | .crcByte _ | .crcRead | .lfByte _ | .lfDrain | .lfStatus | .rxStart
  | .rxByte _ | .rxTimeout | .rxAbort | .rxStatus | .txOpen | .txResp _ | .txTimeout | .txLoad _ | .txAbort
  | .txStatus => false

/-- The inputs that can make the TX unit resend (R214, R216, R218). -/
def isTxInput : Instr → Bool
  | .txResp _ | .txTimeout => true
  | .nop | .reset | .getFault | .crcInit | .crcByte _ | .crcRead | .lfByte _ | .lfDrain | .lfStatus | .rxStart
  | .rxByte _ | .rxTimeout | .rxAbort | .rxStatus | .txOpen | .txLoad _ | .txSendHdr | .txSendData | .txSendEot
  | .txAbort | .txStatus => false

/-- The frames the TX unit puts on the wire in answer to responses and timeouts, in order, over a run. -/
def resent : List Instr → State → List (List Byte)
  | [], _ => []
  | i :: is, s =>
    match exec i s with
    | .next t => (if isTxInput i && !t.res.tx.isEmpty then [t.res.tx] else []) ++ resent is t
    | .fault _ | .refused _ => []

end Sys2Proof.Safety
end

