-- ==== Sys2Proof/Certificates/Slice0/Obligations.lean ====
section
/-! DEFINITION. The statements for the provers. Each docstring names the rule of spec/ it formalises. The parameters of
R2 are the opaque `Config.unit`, so every statement holds for every legal value of them. A right-hand side that is a
record update of `s` states the whole frame: every register, buffer and word of the command port it does not name is
unchanged. -/

open Sys2Proof Sys2Proof.Machine Sys2Proof.Safety

/-! ## System operations and reset -/

/-- R46, R251: power-on reset leaves every register of R46's table at its reset value; RESET runs whether or not FAULT is latched, writes the reset values, emits nothing, and is the only operation
that clears FAULT; with a nonzero IMM8 the word is illegal, and has no effect where a fault is latched. That the
command port keeps its words is the model's choice (log 6). -/
def Obligations.ResetOperation : Prop :=
  AtResetValues State.reset ∧
  EncodesPlain .reset 0x01#8 ∧
  (∀ s : State, ∃ t, exec .reset s = .next t ∧ AtResetValues t ∧ t.res = okRes 0#32 [] [] [] ∧ t.port = s.port) ∧
  ∀ (i : Instr) (s t : State), exec i s = .next t → s.fault ≠ .none → t.fault = .none → i = .reset

/-- R250: NOP changes no state and answers OK, or FAULTED with no effect where FAULT is latched. -/
def Obligations.NopOperation : Prop :=
  EncodesPlain .nop 0x00#8 ∧
  ∀ s : State,
    (s.fault = .none → exec .nop s = .next { s with res := okRes 0#32 [] [] [] }) ∧
    (s.fault ≠ .none → exec .nop s = .next { s with res := Res.faulted })

/-- R252, R45: GET_FAULT answers the fault word, latched or not, and changes no state. -/
def Obligations.GetFaultOperation : Prop :=
  EncodesPlain .getFault 0x02#8 ∧
  ∀ s : State, ∃ v : Val,
    exec .getFault s = .next { s with res := okRes v [] [] [] } ∧
    v.extractLsb' 0 8 = s.fault.code ∧ v.extractLsb' 8 24 = 0#24

/-! ## CRC unit -/

/-- R112: CRC_INIT clears the accumulator and nothing else. -/
def Obligations.CrcInitOperation : Prop :=
  EncodesPlain .crcInit 0x10#8 ∧
  ∀ s : State, s.fault = .none →
    exec .crcInit s = .next { s with crcAcc := 0x0000#16, res := okRes 0#32 [] [] [] }

/-- R113: CRC_BYTE steps the accumulator and nothing else; a run of zero bytes leaves 0, and 0x01 gives 0x1021. -/
def Obligations.CrcByteOperation : Prop :=
  EncodesByte .crcByte 0x11#8 ∧
  (∀ (d : Byte) (s : State), s.fault = .none →
    exec (.crcByte d) s = .next { s with crcAcc := crcStep s.crcAcc d, res := okRes 0#32 [] [] [] }) ∧
  (∀ n : Nat, (List.replicate n 0x00#8).foldl crcStep 0x0000#16 = 0x0000#16) ∧
  crcStep 0x0000#16 0x01#8 = 0x1021#16

/-- R114: CRC_READ answers the accumulator, zero-extended, and changes no state. -/
def Obligations.CrcReadOperation : Prop :=
  EncodesPlain .crcRead 0x12#8 ∧
  ∀ s : State, s.fault = .none → ∃ v : Val,
    exec .crcRead s = .next { s with res := okRes v [] [] [] } ∧
    v.extractLsb' 0 16 = s.crcAcc ∧ v.extractLsb' 16 16 = 0#16

/-- R96, R111 to R114: CRC_OF over any byte list reads the CRC-16 of the list and leaves every other register. Its
check value over "123456789" is the one R5 and R114 give. -/
def Obligations.CrcOfReadsCrc16 : Prop :=
  (∀ (l : List Byte) (s : State), s.fault = .none →
    ∃ rs, runOps (crcOf l) s =
        some ({ s with crcAcc := crc16 l, res := okRes ((crc16 l).setWidth 32) [] [] [] }, rs) ∧ allOk rs) ∧
  crc16 (asciiBytes "123456789") = 0x31C3#16

/-- R115: a list followed by its CRC, high byte first, has CRC zero. -/
def Obligations.CrcResidueIsZero : Prop :=
  ∀ l : List Byte, crc16 (l ++ [(crc16 l).extractLsb' 8 8, (crc16 l).extractLsb' 0 8]) = 0x0000#16

/-- R116: CRC-16 is linear over XOR on lists of one length, zero on zeros, and the null header's frame ends in two zero
bytes. -/
def Obligations.CrcIsLinear : Prop :=
  (∀ a b : List Byte, a.length = b.length →
    crc16 (List.zipWith (fun x y => x ^^^ y) a b) = crc16 a ^^^ crc16 b) ∧
  (∀ n : Nat, crc16 (List.replicate n 0x00#8) = 0x0000#16) ∧
  ∀ sq : Byte, ∃ l : List Byte, makeFrame SOH sq (List.replicate 128 0x00#8) = l ++ [0x00#8, 0x00#8]

/-! ## Line framer -/

/-- R131: LF_BYTE appends, ends a line at 0x0D, or faults on a byte that is no delimiter with LBUF full. -/
def Obligations.LfByteOperation : Prop :=
  EncodesByte .lfByte 0x20#8 ∧
  ∀ (d : Byte) (s : State), s.fault = .none →
    (d = 0x0D#8 →
      exec (.lfByte d) s = .next { s with lbuf := [], res := okRes 0#32 [] [] [.line s.lbuf] }) ∧
    (d ≠ 0x0D#8 → s.lbuf.length = Config.unit.lineMax →
      exec (.lfByte d) s = .next { s with fault := .lineOverflow, res := Res.faulted }) ∧
    (d ≠ 0x0D#8 → s.lbuf.length ≠ Config.unit.lineMax →
      exec (.lfByte d) s = .next { s with lbuf := s.lbuf ++ [d], res := okRes 0#32 [] [] [] })

/-- R133: LF_DRAIN answers the pending bytes in arrival order and empties LBUF, with no event. -/
def Obligations.LfDrainOperation : Prop :=
  EncodesPlain .lfDrain 0x21#8 ∧
  ∀ s : State, s.fault = .none →
    exec .lfDrain s = .next { s with lbuf := [], res := okRes 0#32 s.lbuf [] [] }

/-- R134, R44: LF_STATUS answers the number of pending bytes and changes no state. The value's two fields are stated
for an LBUF within LINE_MAX (R24). -/
def Obligations.LfStatusOperation : Prop :=
  EncodesPlain .lfStatus 0x22#8 ∧
  ∀ s : State, s.fault = .none → s.lbuf.length ≤ Config.unit.lineMax → ∃ v : Val,
    exec .lfStatus s = .next { s with res := okRes v [] [] [] } ∧
    (v.extractLsb' 0 16).toNat = s.lbuf.length ∧ v.extractLsb' 16 16 = 0#16

/-- R135: a chunk of bytes yields one LINE event per delimiter, in order, and leaves the bytes after the last one. The
pending bytes and the chunk together are lines each ended by 0x0D and a rest; none of them is over LINE_MAX. -/
def Obligations.LfChunkYieldsItsLines : Prop :=
  ∀ (chunk rest : List Byte) (lines : List (List Byte)) (s : State),
    s.fault = .none → 0x0D#8 ∉ s.lbuf →
    s.lbuf ++ chunk = lines.flatMap (fun l => l ++ [0x0D#8]) ++ rest →
    (∀ l ∈ rest :: lines, 0x0D#8 ∉ l ∧ l.length ≤ Config.unit.lineMax) →
    ∃ t rs, runOps (lfBytes chunk) s = some (t, rs) ∧
      events rs = lines.map Event.line ∧ allOk rs ∧ wire rs = [] ∧
      t = { s with lbuf := rest, res := t.res }

/-! ## Receive framer -/

/-- R151: RX_START clears the RX registers, whatever the phase, and emits 'C'. RX_BUF keeps its unobservable bytes. -/
def Obligations.RxStartOperation : Prop :=
  EncodesPlain .rxStart 0x30#8 ∧
  ∀ s : State, s.fault = .none →
    exec .rxStart s = .next { s with
      rx := { phase := .lead, exp := 0#8, hdr := false, big := false, seqb := 0#8, cmpb := 0#8, cnt := 0#11,
              buf := s.rx.buf, crc := 0#16, crch := 0#8, eotc := 0#2, canc := 0#2, retry := 0#4, err := .none },
      res := okRes 0#32 [] [0x43#8] [] }

/-- R152, R153: RX_BYTE is not consumed in IDLE, DONE and FAILED, is consumed without effect in PURGE, and answers OK
in every phase but the three. -/
def Obligations.RxByteDispatch : Prop :=
  EncodesByte .rxByte 0x31#8 ∧
  ∀ (d : Byte) (s : State), s.fault = .none →
    (s.rx.phase = .idle ∨ s.rx.phase = .done ∨ s.rx.phase = .failed →
      exec (.rxByte d) s = .next { s with res := notConsumedRes }) ∧
    (s.rx.phase = .purge → exec (.rxByte d) s = .next { s with res := okRes 0#32 [] [] [] }) ∧
    (¬ (s.rx.phase = .idle ∨ s.rx.phase = .done ∨ s.rx.phase = .failed) →
      ∀ t, exec (.rxByte d) s = .next t → t.res.st = .ok ∧ t.fault = .none)

/-- R154, R155: SOH and STX open a block of 128 or 1024 bytes and reset both consecutive counters. -/
def Obligations.RxLeadByteOpensBlock : Prop :=
  ∀ (d : Byte) (s : State), s.fault = .none → s.rx.phase = .lead → d = 0x01#8 ∨ d = 0x02#8 →
    exec (.rxByte d) s = .next { s with
      rx := { s.rx with eotc := 0#2, canc := 0#2, big := decide (d = 0x02#8), phase := .seq },
      res := okRes 0#32 [] [] [] }

/-- R156: the first EOT is NAKed at once, the second consecutive one is ACKed and ends the transfer. A count of 2 or
more in LEAD is ruled out by the premise (R32). -/
def Obligations.RxLeadEotEndsTransfer : Prop :=
  ∀ s : State, s.fault = .none → s.rx.phase = .lead → s.rx.eotc.toNat ≤ 1 →
    (s.rx.eotc = 0#2 → exec (.rxByte 0x04#8) s = .next { s with
      rx := { s.rx with eotc := 1#2, canc := 0#2 }, res := okRes 0#32 [] [0x15#8] [] }) ∧
    (s.rx.eotc = 1#2 → exec (.rxByte 0x04#8) s = .next { s with
      rx := { s.rx with eotc := 2#2, canc := 0#2, phase := .done }, res := okRes 0#32 [] [0x06#8] [.rxDone] })

/-- R157: a single CAN is ACKed, the second consecutive one is ACKed and cancels the transfer. -/
def Obligations.RxLeadCanCancels : Prop :=
  ∀ s : State, s.fault = .none → s.rx.phase = .lead → s.rx.canc.toNat ≤ 1 →
    (s.rx.canc = 0#2 → exec (.rxByte 0x18#8) s = .next { s with
      rx := { s.rx with eotc := 0#2, canc := 1#2 }, res := okRes 0#32 [] [0x06#8] [] }) ∧
    (s.rx.canc = 1#2 → exec (.rxByte 0x18#8) s = .next { s with
      rx := { s.rx with eotc := 0#2, canc := 2#2, phase := .failed, err := .remoteCancelled },
      res := okRes 0#32 [] [0x06#8] [.rxFailed .remoteCancelled] })

/-- R158, R165: any other lead byte takes the NAK path with reason DESYNC. -/
def Obligations.RxLeadDesyncTakesNakPath : Prop :=
  ∀ (d : Byte) (s : State), s.fault = .none → s.rx.phase = .lead →
    d ≠ 0x01#8 → d ≠ 0x02#8 → d ≠ 0x04#8 → d ≠ 0x18#8 →
    ∃ t, exec (.rxByte d) s = .next t ∧ NakPathFrom .desync 0#2 0#2 s t

/-- R159, R161: the sequence, complement and high CRC bytes are stored and nothing is checked or emitted. -/
def Obligations.RxFrameFieldBytes : Prop :=
  ∀ (d : Byte) (s : State), s.fault = .none →
    (s.rx.phase = .seq → exec (.rxByte d) s = .next { s with
      rx := { s.rx with seqb := d, phase := .cmp }, res := okRes 0#32 [] [] [] }) ∧
    (s.rx.phase = .cmp → exec (.rxByte d) s = .next { s with
      rx := { s.rx with cmpb := d, cnt := 0#11, crc := 0x0000#16, phase := .data }, res := okRes 0#32 [] [] [] }) ∧
    (s.rx.phase = .crch → exec (.rxByte d) s = .next { s with
      rx := { s.rx with crch := d, phase := .crcl }, res := okRes 0#32 [] [] [] })

/-- R160: a payload byte is stored at RX_CNT and only there, enters RX_CRC, is counted, and the last one ends phase
DATA. RX_BUF is in canonical form and RX_CNT is within the buffer. -/
def Obligations.RxPayloadByteIsStored : Prop :=
  ∀ (d : Byte) (s : State), s.fault = .none → s.rx.phase = .data →
    s.rx.cnt.toNat < 1024 → Buf.wf s.rx.buf = true →
    ∃ buf : Buf,
      exec (.rxByte d) s = .next { s with
        rx := { s.rx with
          buf := buf, crc := crcStep s.rx.crc d, cnt := s.rx.cnt + 1#11,
          phase := if s.rx.cnt.toNat + 1 = (if s.rx.big then 1024 else 128) then .crch else .data },
        res := okRes 0#32 [] [] [] } ∧
      Buf.wf buf = true ∧
      Buf.read buf s.rx.cnt.toNat = d ∧
      ∀ i, i ≠ s.rx.cnt.toNat → Buf.read buf i = Buf.read s.rx.buf i

/-- R162, R165: on the last CRC byte the first failing check of complement, sequence and CRC, in that order, rejects
the block. -/
def Obligations.RxRejectsBadBlock : Prop :=
  ∀ (d : Byte) (s : State), s.fault = .none → s.rx.phase = .crcl →
    let r := s.rx
    let recv : Crc := (r.crch.setWidth 16 <<< 8) ||| d.setWidth 16
    (r.seqb.toNat + r.cmpb.toNat ≠ 255 →
      ∃ t, exec (.rxByte d) s = .next t ∧ NakPathFrom .complementMismatch r.eotc r.canc s t) ∧
    (r.seqb.toNat + r.cmpb.toNat = 255 → r.seqb ≠ r.exp →
      ∃ t, exec (.rxByte d) s = .next t ∧ NakPathFrom .sequenceMismatch r.eotc r.canc s t) ∧
    (r.seqb.toNat + r.cmpb.toNat = 255 → r.seqb = r.exp → r.crc ≠ recv →
      ∃ t, exec (.rxByte d) s = .next t ∧ NakPathFrom .checksumMismatch r.eotc r.canc s t)

/-- R163: an accepted header block ends the transfer if its payload is all zero, ACKed only under NULL_HEADER_ACK, and
otherwise is handed over whole, ACKed with 'C', and advances RX_EXP. -/
def Obligations.RxAcceptsHeaderBlock : Prop :=
  ∀ (d : Byte) (s : State), s.fault = .none → s.rx.phase = .crcl → BlockIsValid s.rx d → s.rx.hdr = false →
    let p := firstBytes s.rx.buf (if s.rx.big then 1024 else 128)
    ((∀ b ∈ p, b = 0x00#8) → exec (.rxByte d) s = .next { s with
      rx := { s.rx with cnt := 0#11, retry := 0#4, err := .none, phase := .done },
      res := okRes 0#32 [] (if Config.unit.nullHeaderAck then [0x06#8] else []) [.rxNullHeader, .rxDone] }) ∧
    ((∃ b ∈ p, b ≠ 0x00#8) → exec (.rxByte d) s = .next { s with
      rx := { s.rx with cnt := 0#11, retry := 0#4, err := .none, hdr := true, exp := s.rx.exp + 1#8, phase := .lead },
      res := okRes 0#32 [] [0x06#8, 0x43#8] [.rxHeader p] })

/-- R164: an accepted data block is handed over whole, ACKed, and advances RX_EXP modulo 256. -/
def Obligations.RxAcceptsDataBlock : Prop :=
  ∀ (d : Byte) (s : State), s.fault = .none → s.rx.phase = .crcl → BlockIsValid s.rx d → s.rx.hdr = true →
    exec (.rxByte d) s = .next { s with
      rx := { s.rx with cnt := 0#11, retry := 0#4, err := .none, exp := s.rx.exp + 1#8, phase := .lead },
      res := okRes 0#32 [] [0x06#8] [.rxData (firstBytes s.rx.buf (if s.rx.big then 1024 else 128))] }

/-- R167: RX_TIMEOUT does nothing in IDLE, DONE and FAILED, sends the deferred NAK at the end of a purge, and elsewhere
clears the consecutive counters and takes the NAK path. -/
def Obligations.RxTimeoutOperation : Prop :=
  EncodesPlain .rxTimeout 0x32#8 ∧
  ∀ s : State, s.fault = .none →
    (s.rx.phase = .idle ∨ s.rx.phase = .done ∨ s.rx.phase = .failed →
      exec .rxTimeout s = .next { s with res := okRes 0#32 [] [] [] }) ∧
    (s.rx.phase = .purge → exec .rxTimeout s = .next { s with
      rx := { s.rx with phase := .lead }, res := okRes 0#32 [] [0x15#8] [] }) ∧
    (s.rx.phase = .lead ∨ s.rx.phase = .seq ∨ s.rx.phase = .cmp ∨ s.rx.phase = .data ∨ s.rx.phase = .crch ∨
        s.rx.phase = .crcl →
      ∃ t, exec .rxTimeout s = .next t ∧ NakPathFrom .timeout 0#2 0#2 s t)

/-- R169: RX_ABORT fails an active transfer and emits nothing toward the transport. -/
def Obligations.RxAbortOperation : Prop :=
  EncodesPlain .rxAbort 0x33#8 ∧
  ∀ s : State, s.fault = .none →
    (s.rx.phase = .idle ∨ s.rx.phase = .done ∨ s.rx.phase = .failed →
      exec .rxAbort s = .next { s with res := okRes 0#32 [] [] [] }) ∧
    (¬ (s.rx.phase = .idle ∨ s.rx.phase = .done ∨ s.rx.phase = .failed) →
      exec .rxAbort s = .next { s with
        rx := { s.rx with cnt := 0#11, phase := .failed, err := .aborted },
        res := okRes 0#32 [] [] [.rxFailed .aborted] })

/-- R170, R42: RX_STATUS answers the word whose every field is R42's, and changes no state; the codes of RX_PHASE and
of RX_ERR are those of R25 and R274. -/
def Obligations.RxStatusOperation : Prop :=
  EncodesPlain .rxStatus 0x34#8 ∧
  (∀ s : State, s.fault = .none → ∃ v : Val,
    exec .rxStatus s = .next { s with res := okRes v [] [] [] } ∧
    v.extractLsb' 0 4 = s.rx.phase.code ∧ v.extractLsb' 4 4 = s.rx.err.code ∧ v.extractLsb' 8 4 = s.rx.retry ∧
    v.extractLsb' 12 2 = s.rx.eotc ∧ v.extractLsb' 14 2 = s.rx.canc ∧ v.extractLsb' 16 8 = s.rx.exp ∧
    v.getLsbD 24 = s.rx.hdr ∧ v.getLsbD 25 = s.rx.big ∧ v.extractLsb' 26 6 = 0#6) ∧
  [RxPhase.idle, .lead, .seq, .cmp, .data, .crch, .crcl, .purge, .done, .failed].map RxPhase.code =
    [0#4, 1#4, 2#4, 3#4, 4#4, 5#4, 6#4, 7#4, 8#4, 9#4] ∧
  [ErrCode.none, .complementMismatch, .sequenceMismatch, .checksumMismatch, .timeout, .desync, .retryLimitExceeded,
    .remoteCancelled, .aborted, .attemptsExhausted].map ErrCode.code =
    [0#4, 1#4, 2#4, 3#4, 4#4, 5#4, 6#4, 7#4, 8#4, 9#4]

/-! ## Send framer -/

/-- R201: TX_OPEN clears the TX registers, whatever the phase, and emits nothing. TX_BUF keeps its unobservable
bytes. -/
def Obligations.TxOpenOperation : Prop :=
  EncodesPlain .txOpen 0x40#8 ∧
  ∀ s : State, s.fault = .none →
    exec .txOpen s = .next { s with
      tx := { phase := .waitC, seq := 0#8, buf := s.tx.buf, len := 0#11, frame := [], kind := .none, retry := 0#4,
              attempt := 0#4, canc := 0#2, err := .none },
      res := okRes 0#32 [] [] [] }

/-- R203, R202: TX_LOAD stores the byte at TX_LEN and only there, in every phase, or faults when 1024 are loaded.
TX_BUF is in canonical form. -/
def Obligations.TxLoadOperation : Prop :=
  EncodesByte .txLoad 0x43#8 ∧
  ∀ (d : Byte) (s : State), s.fault = .none → Buf.wf s.tx.buf = true →
    (s.tx.len.toNat = 1024 →
      exec (.txLoad d) s = .next { s with fault := .txBufferFull, res := Res.faulted }) ∧
    (s.tx.len.toNat < 1024 → ∃ buf : Buf,
      exec (.txLoad d) s = .next { s with
        tx := { s.tx with buf := buf, len := s.tx.len + 1#11 }, res := okRes 0#32 [] [] [] } ∧
      Buf.wf buf = true ∧
      Buf.read buf s.tx.len.toNat = d ∧
      ∀ i, i ≠ s.tx.len.toNat → Buf.read buf i = Buf.read s.tx.buf i)

/-- R205, R204: TX_SEND_HDR sends the loaded bytes, zero-filled to 128, as an SOH frame of 133 bytes; its two faults
are tested in the rule's order. -/
def Obligations.TxSendHdrOperation : Prop :=
  EncodesPlain .txSendHdr 0x44#8 ∧
  ∀ s : State, s.fault = .none →
    (s.tx.phase ≠ .ready →
      exec .txSendHdr s = .next { s with fault := .txNotReady, res := Res.faulted }) ∧
    (s.tx.phase = .ready → s.tx.len.toNat > 128 →
      exec .txSendHdr s = .next { s with fault := .txHeaderTooLong, res := Res.faulted }) ∧
    (s.tx.phase = .ready → s.tx.len.toNat ≤ 128 → ∃ f : List Byte,
      f = frameOf 0x01#8 s.tx.seq
        (firstBytes s.tx.buf s.tx.len.toNat ++ List.replicate (128 - s.tx.len.toNat) 0x00#8) ∧
      f.length = 133 ∧
      exec .txSendHdr s = .next { s with
        tx := { s.tx with frame := f, kind := .hdr, len := 0#11, retry := 0#4, attempt := 0#4, phase := .waitAck },
        res := okRes 0#32 [] f [] })

/-- R206, R204: TX_SEND_DATA sends the loaded bytes, padded to 1024 with SUB, as an STX frame of 1029 bytes. TX_LEN is
at most 1024 (R37). -/
def Obligations.TxSendDataOperation : Prop :=
  EncodesPlain .txSendData 0x45#8 ∧
  ∀ s : State, s.fault = .none →
    (s.tx.phase ≠ .ready →
      exec .txSendData s = .next { s with fault := .txNotReady, res := Res.faulted }) ∧
    (s.tx.phase = .ready → s.tx.len.toNat ≤ 1024 → ∃ f : List Byte,
      f = frameOf 0x02#8 s.tx.seq
        (firstBytes s.tx.buf s.tx.len.toNat ++ List.replicate (1024 - s.tx.len.toNat) 0x1A#8) ∧
      f.length = 1029 ∧
      exec .txSendData s = .next { s with
        tx := { s.tx with frame := f, kind := .data, len := 0#11, retry := 0#4, attempt := 0#4, phase := .waitAck },
        res := okRes 0#32 [] f [] })

/-- R207: TX_SEND_EOT sends the one byte EOT; the loaded bytes and TX_SEQ stay. -/
def Obligations.TxSendEotOperation : Prop :=
  EncodesPlain .txSendEot 0x46#8 ∧
  ∀ s : State, s.fault = .none →
    (s.tx.phase ≠ .ready →
      exec .txSendEot s = .next { s with fault := .txNotReady, res := Res.faulted }) ∧
    (s.tx.phase = .ready → exec .txSendEot s = .next { s with
      tx := { s.tx with frame := [0x04#8], kind := .eot, retry := 0#4, attempt := 0#4, phase := .waitEot },
      res := okRes 0#32 [] [0x04#8] [] })

/-- R211: TX_RESP is not consumed in IDLE, DONE and FAILED, and is consumed and ignored in READY. -/
def Obligations.TxRespDispatch : Prop :=
  EncodesByte .txResp 0x41#8 ∧
  ∀ (d : Byte) (s : State), s.fault = .none →
    (s.tx.phase = .idle ∨ s.tx.phase = .done ∨ s.tx.phase = .failed →
      exec (.txResp d) s = .next { s with res := notConsumedRes }) ∧
    (s.tx.phase = .ready → exec (.txResp d) s = .next { s with res := okRes 0#32 [] [] [] })

/-- R212: in a wait phase a single CAN only counts, and the second consecutive one fails the transfer. -/
def Obligations.TxRespCanCancels : Prop :=
  ∀ s : State, s.fault = .none → s.tx.phase = .waitC ∨ s.tx.phase = .waitAck ∨ s.tx.phase = .waitEot →
    (s.tx.canc = 0#2 → exec (.txResp 0x18#8) s = .next { s with
      tx := { s.tx with canc := 1#2 }, res := okRes 0#32 [] [] [] }) ∧
    (s.tx.canc = 1#2 → exec (.txResp 0x18#8) s = .next { s with
      tx := { s.tx with canc := 2#2, phase := .failed, err := .remoteCancelled },
      res := okRes 0#32 [] [] [.txFailed .remoteCancelled] })

/-- R213: in WAIT_C the byte 'C' makes the unit ready, and any other byte but CAN is unresolved. -/
def Obligations.TxRespInWaitC : Prop :=
  ∀ (d : Byte) (s : State), s.fault = .none → s.tx.phase = .waitC → d ≠ 0x18#8 →
    (d = 0x43#8 → exec (.txResp d) s = .next { s with
      tx := { s.tx with canc := 0#2, attempt := 0#4, phase := .ready }, res := okRes 0#32 [] [] [.txReady] }) ∧
    (d ≠ 0x43#8 → ∃ t, exec (.txResp d) s = .next t ∧ NoResolveFrom s t)

/-- R214, R217: in WAIT_ACK an ACK advances TX_SEQ modulo 256, a NAK resends the frame or fails at the limit, and any
other byte but CAN is unresolved. -/
def Obligations.TxRespInWaitAck : Prop :=
  ∀ (d : Byte) (s : State), s.fault = .none → s.tx.phase = .waitAck → d ≠ 0x18#8 →
    (d = 0x06#8 → exec (.txResp d) s = .next { s with
      tx := { s.tx with canc := 0#2, seq := s.tx.seq + 1#8, retry := 0#4, attempt := 0#4, phase := .ready },
      res := okRes 0#32 [] [] [.txAcked] }) ∧
    (d = 0x15#8 → ∃ t, exec (.txResp d) s = .next t ∧ RetryFrom s t) ∧
    (d ≠ 0x06#8 → d ≠ 0x15#8 → ∃ t, exec (.txResp d) s = .next t ∧ NoResolveFrom s t)

/-- R216, R217: in WAIT_EOT an ACK ends the transfer and keeps TX_RETRY, and any other byte but CAN is a counted retry
that resends the last frame below the limit. That frame is EOT: the emitted bytes are [0x04] under the invariant of the
TX unit, which every step keeps (StepKeepsInvariant). -/
def Obligations.TxRespInWaitEot : Prop :=
  ∀ (d : Byte) (s : State), s.fault = .none → s.tx.phase = .waitEot → d ≠ 0x18#8 →
    (d = 0x06#8 → exec (.txResp d) s = .next { s with
      tx := { s.tx with canc := 0#2, phase := .done }, res := okRes 0#32 [] [] [.txDone] }) ∧
    (d ≠ 0x06#8 → ∃ t, exec (.txResp d) s = .next t ∧ RetryFrom s t ∧
      (TxInv Config.unit s.tx →
        t.res.tx = if (s.tx.retry + 1#4).toNat = Config.unit.retryLimit then [] else [0x04#8]))

/-- R218: TX_TIMEOUT does nothing outside the wait phases, is unresolved in WAIT_C and WAIT_ACK, and is a counted retry
in WAIT_EOT, which below the limit emits [0x04] under the invariant of the TX unit. -/
def Obligations.TxTimeoutOperation : Prop :=
  EncodesPlain .txTimeout 0x42#8 ∧
  ∀ s : State, s.fault = .none →
    (s.tx.phase = .idle ∨ s.tx.phase = .ready ∨ s.tx.phase = .done ∨ s.tx.phase = .failed →
      exec .txTimeout s = .next { s with res := okRes 0#32 [] [] [] }) ∧
    (s.tx.phase = .waitC ∨ s.tx.phase = .waitAck → ∃ t, exec .txTimeout s = .next t ∧ NoResolveFrom s t) ∧
    (s.tx.phase = .waitEot → ∃ t, exec .txTimeout s = .next t ∧ RetryFrom s t ∧
      (TxInv Config.unit s.tx →
        t.res.tx = if (s.tx.retry + 1#4).toNat = Config.unit.retryLimit then [] else [0x04#8]))

/-- R220: TX_ABORT fails an active transfer and emits nothing toward the transport. -/
def Obligations.TxAbortOperation : Prop :=
  EncodesPlain .txAbort 0x47#8 ∧
  ∀ s : State, s.fault = .none →
    (s.tx.phase = .waitC ∨ s.tx.phase = .ready ∨ s.tx.phase = .waitAck ∨ s.tx.phase = .waitEot →
      exec .txAbort s = .next { s with
        tx := { s.tx with phase := .failed, err := .aborted }, res := okRes 0#32 [] [] [.txFailed .aborted] }) ∧
    (s.tx.phase = .idle ∨ s.tx.phase = .done ∨ s.tx.phase = .failed →
      exec .txAbort s = .next { s with res := okRes 0#32 [] [] [] })

/-- R222, R43: TX_STATUS answers the word whose every field is R43's, and changes no state; the codes of TX_PHASE, of
TX_ERR and of TX_KIND are those of R35, R274 and R38. -/
def Obligations.TxStatusOperation : Prop :=
  EncodesPlain .txStatus 0x48#8 ∧
  (∀ s : State, s.fault = .none → ∃ v : Val,
    exec .txStatus s = .next { s with res := okRes v [] [] [] } ∧
    v.extractLsb' 0 4 = s.tx.phase.code ∧ v.extractLsb' 4 4 = s.tx.err.code ∧ v.extractLsb' 8 4 = s.tx.retry ∧
    v.extractLsb' 12 4 = s.tx.attempt ∧ v.extractLsb' 16 8 = s.tx.seq ∧ v.extractLsb' 24 2 = s.tx.kind.code ∧
    v.extractLsb' 26 2 = s.tx.canc ∧ v.extractLsb' 28 4 = 0#4) ∧
  [TxPhase.idle, .waitC, .ready, .waitAck, .waitEot, .done, .failed].map TxPhase.code =
    [0#4, 1#4, 2#4, 3#4, 4#4, 5#4, 6#4] ∧
  [ErrCode.none, .retryLimitExceeded, .remoteCancelled, .aborted, .attemptsExhausted].map ErrCode.code =
    [0#4, 6#4, 7#4, 8#4, 9#4] ∧
  [TxKind.none, .hdr, .data, .eot].map TxKind.code = [0#2, 1#2, 2#2, 3#2]

/-! ## Decode, step and faults -/

/-- R273, R272, R1: the step takes the next command word of the port and runs the operation it decodes to; a word that
decodes to none raises ILLEGAL_OP, or, with a fault latched, has no effect and keeps the first fault's code (R83, R84);
with no word issued the unit does nothing (the model's reading of R1, log 4). -/
def Obligations.StepRunsDecodedOperation : Prop :=
  (∀ (s : State) (w : CmdWord) (rest : List CmdWord) (i : Instr),
    s.port = w :: rest → decode w = .ok i → step s = exec i { s with port := rest }) ∧
  (∀ (w : CmdWord) (e : Reject), decode w = .error e → RaisesIllegalOp w) ∧
  ∀ s : State, s.port = [] → step s = .next s

/-- Words written out from the encodings of R80 and R81 decode to their operations, and two illegal words of 30_encoding
R83 and R84 are rejected by name. -/
def Obligations.WordsDecodeAsTheTableSays : Prop :=
  decode 0b0000000000000000#16 = .ok .nop ∧ decode 0b0000000100000000#16 = .ok .reset ∧
  decode 0b0001000100110001#16 = .ok (.crcByte 0x31#8) ∧ decode 0b0010000100000000#16 = .ok .lfDrain ∧
  decode 0b0011000100000001#16 = .ok (.rxByte 0x01#8) ∧ decode 0b0011000000000000#16 = .ok .rxStart ∧
  decode 0b0100000101000011#16 = .ok (.txResp 0x43#8) ∧ decode 0b0100010000000000#16 = .ok .txSendHdr ∧
  decode 0b0000001100000000#16 = .error (.reservedOp 0x03#8) ∧
  decode 0b0000000000000001#16 = .error (.nonzeroImm 0x00#8 0x01#8)

/-- Decode and encode agree, in both directions: every operation is what its word decodes to, with every operand, and
every word that decodes is the word of its operation. -/
def Obligations.DecodeEncodeAgree : Prop :=
  (∀ i : Instr, i.wellFormed = true → decode (encode i) = .ok i) ∧
  ∀ (w : CmdWord) (i : Instr), decode w = .ok i → encode i = w ∧ i.wellFormed = true

/-- R83, R84, R85: a word is a named operation exactly when its OP is in no reserved range and its IMM8 is 0x00 unless
its OP is one of the five that take a byte. -/
def Obligations.DecodeRejectsExactlyIllegalWords : Prop :=
  ∀ w : CmdWord,
    let op := w.toNat / 256
    let imm := w.toNat % 256
    (∃ i, decode w = .ok i) ↔
      ¬ ((0x03 ≤ op ∧ op ≤ 0x0F) ∨ (0x13 ≤ op ∧ op ≤ 0x1F) ∨ (0x23 ≤ op ∧ op ≤ 0x2F) ∨ (0x35 ≤ op ∧ op ≤ 0x3F) ∨
          (0x49 ≤ op ∧ op ≤ 0xFF)) ∧
      (imm = 0 ∨ op = 0x11 ∨ op = 0x20 ∨ op = 0x31 ∨ op = 0x41 ∨ op = 0x43)

/-- R272: while a fault is latched, any run of operations without RESET changes nothing; every result but GET_FAULT's
is FAULTED with empty outputs. -/
def Obligations.LatchedFaultStopsTheUnit : Prop :=
  ∀ (is : List Instr) (s : State), s.fault ≠ .none → .reset ∉ is →
    ∃ t rs, runOps is s = some (t, rs) ∧ t = { s with res := t.res } ∧
      List.Forall₂ (fun i r =>
        r = if i = Instr.getFault then okRes (s.fault.code.setWidth 32) [] [] [] else Res.faulted) is rs

/-- R271: a step whose result is FAULTED changes no register but FAULT, takes its word from the port, and answers the
empty faulted record. -/
def Obligations.FaultsArePrecise : Prop :=
  ∀ (s t : State) (w : CmdWord) (rest : List CmdWord), s.port = w :: rest → step s = .next t →
    (t.fault ≠ s.fault → t.fault ≠ .none → t.res.st = .faulted) ∧
    (t.res.st = .faulted → t = { s with port := rest, fault := t.fault, res := Res.faulted } ∧ t.fault ≠ .none)

/-- R270: which step raises which fault, and on what condition, with its code. -/
def Obligations.FaultsAreRaisedAsTheTableSays : Prop :=
  (∀ (s t : State) (w : CmdWord) (rest : List CmdWord),
    s.port = w :: rest → s.fault = .none → step s = .next t →
    (t.fault = .illegalOp ↔ ∃ e, decode w = .error e) ∧
    (t.fault = .lineOverflow ↔
      ∃ d, decode w = .ok (.lfByte d) ∧ d ≠ 0x0D#8 ∧ s.lbuf.length = Config.unit.lineMax) ∧
    (t.fault = .txBufferFull ↔ ∃ d, decode w = .ok (.txLoad d) ∧ s.tx.len.toNat = 1024) ∧
    (t.fault = .txHeaderTooLong ↔ decode w = .ok .txSendHdr ∧ s.tx.phase = .ready ∧ s.tx.len.toNat > 128) ∧
    (t.fault = .txNotReady ↔
      (decode w = .ok .txSendHdr ∨ decode w = .ok .txSendData ∨ decode w = .ok .txSendEot) ∧ s.tx.phase ≠ .ready)) ∧
  [FaultCode.none, .illegalOp, .lineOverflow, .txBufferFull, .txHeaderTooLong, .txNotReady].map FaultCode.code =
    [0#8, 1#8, 2#8, 3#8, 4#8, 5#8]

/-! ## Invariants -/

/-- The invariant holds right after reset. RX_BUF and TX_BUF all zero at reset is the model's choice (log 1). -/
def Obligations.ResetMeetsInvariant : Prop := UnitInv State.reset

/-- Every step from a state that meets the invariant answers a next state, and that state meets it: no step of the
machine stops on an index outside a buffer. -/
def Obligations.StepKeepsInvariant : Prop :=
  ∀ s : State, UnitInv s → ∃ t, step s = .next t ∧ UnitInv t

/-- R48: its invariants hold in every state the unit reaches from reset, whatever words the host issues. -/
def Obligations.ListedInvariantsHoldWhenReached : Prop :=
  ∀ ws : List CmdWord, ∃ t rs, runWords ws State.reset = some (t, rs) ∧ ListedInvariants Config.unit t

/-- Where the model stops (log 7): only on an index beyond a 1024-byte buffer (R61), in states that no run reaches, and
it refuses nothing. -/
def Obligations.ExecStopsOnlyBeyondABuffer : Prop :=
  ∀ (i : Instr) (s : State),
    (exec i s = .fault .rxBufRange ↔
      s.fault = .none ∧ (∃ d, i = .rxByte d) ∧ s.rx.phase = .data ∧ s.rx.cnt.toNat ≥ 1024) ∧
    (exec i s = .fault .txBufRange ↔
      s.fault = .none ∧ s.tx.len.toNat > 1024 ∧ ((∃ d, i = .txLoad d) ∨ (i = .txSendData ∧ s.tx.phase = .ready))) ∧
    ∀ r, exec i s ≠ .refused r

/-! ## Whole-unit rules -/

/-- R150: RX_PHASE moves only as its table says. RESET, which the table leaves out, is excluded (R251). -/
def Obligations.RxPhaseMovesAsTheTableSays : Prop :=
  ∀ (i : Instr) (s t : State), i ≠ .reset → exec i s = .next t →
    t.rx.phase = s.rx.phase ∨
    (i = .rxStart ∧ t.rx.phase = .lead) ∨
    (∃ d, i = .rxByte d ∧
      ((s.rx.phase = .lead ∧ (d = SOH ∨ d = STX) ∧ t.rx.phase = .seq) ∨
       (s.rx.phase = .lead ∧ d = EOT ∧ s.rx.eotc = 1#2 ∧ t.rx.phase = .done) ∨
       (s.rx.phase = .lead ∧ d = CAN ∧ s.rx.canc = 1#2 ∧ t.rx.phase = .failed) ∨
       (s.rx.phase = .lead ∧ leadByte d = .other ∧ (t.rx.phase = .purge ∨ t.rx.phase = .failed)) ∨
       (s.rx.phase = .seq ∧ t.rx.phase = .cmp) ∨
       (s.rx.phase = .cmp ∧ t.rx.phase = .data) ∨
       (s.rx.phase = .data ∧ t.rx.phase = .crch ∧ t.rx.cnt.toNat = s.rx.size) ∨
       (s.rx.phase = .crch ∧ t.rx.phase = .crcl) ∨
       (s.rx.phase = .crcl ∧ ¬ BlockIsValid s.rx d ∧ (t.rx.phase = .purge ∨ t.rx.phase = .failed)) ∨
       (s.rx.phase = .crcl ∧ BlockIsValid s.rx d ∧ (s.rx.hdr = true ∨ t.rx.hdr = true) ∧ t.rx.phase = .lead) ∨
       (s.rx.phase = .crcl ∧ BlockIsValid s.rx d ∧ s.rx.hdr = false ∧ (.rxNullHeader ∈ t.res.ev) ∧
          t.rx.phase = .done))) ∨
    (i = .rxTimeout ∧ s.rx.phase = .purge ∧ t.rx.phase = .lead) ∨
    (i = .rxTimeout ∧ (s.rx.phase = .lead ∨ s.rx.phase = .seq ∨ s.rx.phase = .cmp ∨ s.rx.phase = .data ∨
        s.rx.phase = .crch ∨ s.rx.phase = .crcl) ∧ (t.rx.phase = .purge ∨ t.rx.phase = .failed)) ∨
    (i = .rxAbort ∧ s.rx.phase ≠ .idle ∧ s.rx.phase ≠ .done ∧ s.rx.phase ≠ .failed ∧ t.rx.phase = .failed)

/-- R200: TX_PHASE moves only as its table says. RESET, which the table leaves out, is excluded (R251). -/
def Obligations.TxPhaseMovesAsTheTableSays : Prop :=
  ∀ (i : Instr) (s t : State), i ≠ .reset → exec i s = .next t →
    t.tx.phase = s.tx.phase ∨
    (i = .txOpen ∧ t.tx.phase = .waitC) ∨
    (s.tx.phase = .waitC ∧ i = .txResp HANDSHAKE ∧ t.tx.phase = .ready) ∨
    (s.tx.phase = .waitC ∧ (i = .txTimeout ∨ ∃ d, i = .txResp d ∧ d ≠ HANDSHAKE ∧ d ≠ CAN) ∧ t.tx.phase = .failed) ∨
    (s.tx.phase = .ready ∧ (i = .txSendHdr ∨ i = .txSendData) ∧ t.tx.phase = .waitAck) ∨
    (s.tx.phase = .ready ∧ i = .txSendEot ∧ t.tx.phase = .waitEot) ∨
    (s.tx.phase = .waitAck ∧ i = .txResp ACK ∧ t.tx.phase = .ready) ∨
    (s.tx.phase = .waitAck ∧ (i = .txTimeout ∨ ∃ d, i = .txResp d ∧ d ≠ ACK ∧ d ≠ CAN) ∧ t.tx.phase = .failed) ∨
    (s.tx.phase = .waitEot ∧ i = .txResp ACK ∧ t.tx.phase = .done) ∨
    (s.tx.phase = .waitEot ∧ (i = .txTimeout ∨ ∃ d, i = .txResp d ∧ d ≠ ACK ∧ d ≠ CAN) ∧ t.tx.phase = .failed) ∨
    ((s.tx.phase = .waitC ∨ s.tx.phase = .waitAck ∨ s.tx.phase = .waitEot) ∧ i = .txResp CAN ∧ s.tx.canc = 1#2 ∧
      t.tx.phase = .failed) ∨
    (i = .txAbort ∧ (s.tx.phase = .waitC ∨ s.tx.phase = .ready ∨ s.tx.phase = .waitAck ∨ s.tx.phase = .waitEot) ∧
      t.tx.phase = .failed)

/-- R47: RX_BUF from RX_CNT on and TX_BUF from TX_LEN on cannot affect any result or any later visible state. -/
def Obligations.BufferRestIsUnobservable : Prop :=
  ∀ (i : Instr) (s s' : State), UnitInv s → SameVisible s s' →
    ∃ t t', exec i s = .next t ∧ exec i s' = .next t' ∧ t.res = t'.res ∧ SameVisible t t'

/-- The CRC, LF, RX and TX units share no register (D5, R275): an operation of one, RESET aside, leaves the registers
of the others, and its result and everything it writes stay the same when another unit's registers are replaced (R23
for CRC_ACC). -/
def Obligations.SubUnitsAreIndependent : Prop :=
  ∀ (i : Instr) (s t : State), i ≠ .reset → exec i s = .next t →
    (t.port = s.port ∧
      (i ≠ .crcInit → (∀ d, i ≠ .crcByte d) → t.crcAcc = s.crcAcc) ∧
      (i ≠ .lfDrain → (∀ d, i ≠ .lfByte d) → t.lbuf = s.lbuf) ∧
      (i ≠ .rxStart → i ≠ .rxTimeout → i ≠ .rxAbort → (∀ d, i ≠ .rxByte d) → t.rx = s.rx) ∧
      (i ≠ .txOpen → i ≠ .txTimeout → i ≠ .txAbort → isSend i = false →
        (∀ d, i ≠ .txResp d) → (∀ d, i ≠ .txLoad d) → t.tx = s.tx)) ∧
    (subUnit i ≠ .crc → ∀ x : Crc, exec i { s with crcAcc := x } = .next { t with crcAcc := x }) ∧
    (subUnit i ≠ .lf → ∀ l : List Byte, exec i { s with lbuf := l } = .next { t with lbuf := l }) ∧
    (subUnit i ≠ .rx → ∀ r : Rx, exec i { s with rx := r } = .next { t with rx := r }) ∧
    (subUnit i ≠ .tx → ∀ x : Tx, exec i { s with tx := x } = .next { t with tx := x })

/-- R223, R217: once a frame is sent, responses and timeouts put it on the wire at most RETRY_LIMIT - 1 times more, each
time byte-identical, until the next send. -/
def Obligations.FrameIsResentBelowRetryLimit : Prop :=
  ∀ (send : Instr) (is : List Instr) (s t : State), UnitInv s → isSend send = true → exec send s = .next t →
    t.fault = .none → (∀ i ∈ is, isSend i = false) →
    (resent is t).length + 1 ≤ Config.unit.retryLimit ∧ ∀ f ∈ resent is t, f = t.tx.frame

/-- R89, R155, R159 to R162, R164: a well-formed frame with the expected sequence number, received in LEAD after a
header, delivers its payload whole and unchanged, is answered by one ACK, and advances RX_EXP modulo 256. -/
def Obligations.WellFormedDataFrameIsAccepted : Prop :=
  ∀ (mode : Byte) (p : List Byte) (s : State), s.fault = .none → s.rx.phase = .lead → s.rx.hdr = true →
    Buf.wf s.rx.buf = true →
    (mode = 0x01#8 ∧ p.length = 128) ∨ (mode = 0x02#8 ∧ p.length = 1024) →
    ∃ t rs, runOps (rxBytes (frameOf mode s.rx.exp p)) s = some (t, rs) ∧
      allOk rs ∧ wire rs = [0x06#8] ∧ events rs = [.rxData p] ∧
      t.rx.phase = .lead ∧ t.rx.exp = s.rx.exp + 1#8 ∧ t.rx.hdr = true ∧ t.rx.retry = 0#4 ∧ t.rx.err = .none ∧
      t = { s with rx := t.rx, res := t.res }

/-- R172, R162: a well-formed frame whose sequence number is not RX_EXP, a repeat of the last accepted block included,
delivers nothing, is not ACKed, and takes the NAK path with RX_EXP and RX_HDR unchanged. -/
def Obligations.WrongSequenceFrameIsRefused : Prop :=
  ∀ (mode sq : Byte) (p : List Byte) (s : State), s.fault = .none → s.rx.phase = .lead → sq ≠ s.rx.exp →
    (mode = 0x01#8 ∧ p.length = 128) ∨ (mode = 0x02#8 ∧ p.length = 1024) →
    ∃ t rs, runOps (rxBytes (frameOf mode sq p)) s = some (t, rs) ∧
      allOk rs ∧ wire rs = [] ∧ t.rx.exp = s.rx.exp ∧ t.rx.hdr = s.rx.hdr ∧ t.rx.retry = s.rx.retry + 1#4 ∧
      (t.rx.retry.toNat ≠ Config.unit.retryLimit →
        events rs = [] ∧ t.rx.phase = .purge ∧ t.rx.err = .sequenceMismatch) ∧
      (t.rx.retry.toNat = Config.unit.retryLimit →
        events rs = [.rxFailed .retryLimitExceeded] ∧ t.rx.phase = .failed ∧ t.rx.err = .retryLimitExceeded) ∧
      t = { s with rx := t.rx, res := t.res }

/-- The two framers agree (R206, R214 with R162, R164): the data frame one unit sends is accepted by another that
expects its sequence number, which delivers exactly the loaded bytes padded with SUB, and the receiver's answer makes
the sender ready for the next block. -/
def Obligations.SentDataBlockIsReceived : Prop :=
  ∀ s u : State, s.fault = .none → s.tx.phase = .ready → s.tx.len.toNat ≤ 1024 →
    u.fault = .none → u.rx.phase = .lead → u.rx.hdr = true → Buf.wf u.rx.buf = true → u.rx.exp = s.tx.seq →
    ∃ s1 u1 rs s2 qs,
      exec .txSendData s = .next s1 ∧
      runOps (rxBytes s1.res.tx) u = some (u1, rs) ∧
      events rs = [.rxData (firstBytes s.tx.buf s.tx.len.toNat ++ List.replicate (1024 - s.tx.len.toNat) 0x1A#8)] ∧
      runOps ((wire rs).map .txResp) s1 = some (s2, qs) ∧
      events qs = [.txAcked] ∧ s2.tx.phase = .ready ∧ s2.tx.seq = u1.rx.exp

/-- The hand-off of R304 during and after a receive transfer: with LBUF able to take the byte, exactly one handler
consumes it; while the RX unit is active LBUF is untouched, and otherwise the RX unit is untouched and the byte is the
LF unit's. -/
def Obligations.HandOffConsumesEachByteOnce : Prop :=
  ∀ (d : Byte) (s : State), UnitInv s → s.fault = .none → d = 0x0D#8 ∨ s.lbuf.length < Config.unit.lineMax →
    ∃ t rs, handOff receiveHandlers d s = some (t, rs) ∧ t.fault = .none ∧
      (rs.filter (fun r => r.st = .ok)).length = 1 ∧
      (receiveActive s = true → t.lbuf = s.lbuf ∧ rs.length = 1) ∧
      (receiveActive s = false → t.rx = s.rx ∧ rs.length = 2 ∧
        (d = 0x0D#8 → t.lbuf = [] ∧ events rs = [.line s.lbuf]) ∧
        (d ≠ 0x0D#8 → t.lbuf = s.lbuf ++ [d] ∧ events rs = []))
end

