-- ==== Sys2Proof/Laws/Buffer.lean ====
section
/-! SUPPORT. The laws of the 1024-byte buffers: a read after a write, the canonical form kept by every write, equal
contents are equal data, and what a slice holds. -/

namespace Sys2Proof.Machine

/-- A buffer in canonical form above `lo` reads as unlisted below it. -/
theorem Buf.read_of_lt {lo : Nat} {m : Buf} (h : Buf.wfFrom lo m = true) {i : Nat} (hi : i < lo) :
    Buf.read m i = Buf.unlisted := by
  induction m generalizing lo with
  | nil => rfl
  | cons c m ih =>
    obtain ⟨a, b⟩ := c
    simp only [Buf.wfFrom, Bool.and_eq_true, decide_eq_true_eq] at h
    obtain ⟨⟨⟨hlo, -⟩, -⟩, hm⟩ := h
    have : a ≠ i := by omega
    simp only [Buf.read, this, if_false]
    exact ih hm (by omega)

/-- A lower bound may be lowered. -/
theorem Buf.wfFrom_mono {lo lo' : Nat} {m : Buf} (h : Buf.wfFrom lo m = true) (hle : lo' ≤ lo) :
    Buf.wfFrom lo' m = true := by
  cases m with
  | nil => rfl
  | cons c m =>
    obtain ⟨a, b⟩ := c
    simp only [Buf.wfFrom, Bool.and_eq_true, decide_eq_true_eq] at h ⊢
    exact ⟨⟨⟨by omega, h.1.1.2⟩, h.1.2⟩, h.2⟩

theorem Buf.cell_wfFrom {lo i : Nat} {v : Byte} {m : Buf} (hlo : lo ≤ i) (hi : i < Buf.capacity)
    (h : Buf.wfFrom (i + 1) m = true) : Buf.wfFrom lo (Buf.cell i v m) = true := by
  unfold Buf.cell
  split
  · exact Buf.wfFrom_mono h (by omega)
  · simp_all [Buf.wfFrom]

theorem Buf.write_wfFrom {lo i : Nat} (v : Byte) {m : Buf} (hlo : lo ≤ i) (hi : i < Buf.capacity)
    (h : Buf.wfFrom lo m = true) : Buf.wfFrom lo (Buf.write m i v) = true := by
  induction m generalizing lo with
  | nil => exact Buf.cell_wfFrom hlo hi rfl
  | cons c m ih =>
    obtain ⟨a, b⟩ := c
    have h' := h
    simp only [Buf.wfFrom, Bool.and_eq_true, decide_eq_true_eq] at h
    obtain ⟨⟨⟨ha, hc⟩, hb⟩, hm⟩ := h
    simp only [Buf.write]
    split
    · next hia =>
      refine Buf.cell_wfFrom hlo hi ?_
      simp only [Buf.wfFrom, Bool.and_eq_true, decide_eq_true_eq]
      exact ⟨⟨⟨by omega, hc⟩, hb⟩, hm⟩
    · split
      · next hia => subst hia; exact Buf.cell_wfFrom hlo hi hm
      · simp only [Buf.wfFrom, Bool.and_eq_true, decide_eq_true_eq]
        exact ⟨⟨⟨ha, hc⟩, hb⟩, ih (by omega) hm⟩

/-- A write inside the capacity keeps the canonical form. -/
theorem Buf.write_wf {m : Buf} (h : Buf.wf m = true) {i : Nat} (hi : i < Buf.capacity) (v : Byte) :
    Buf.wf (Buf.write m i v) = true :=
  Buf.write_wfFrom v (Nat.zero_le i) hi h

theorem Buf.read_cell_self {i : Nat} {v : Byte} {m : Buf} (h : Buf.read m i = Buf.unlisted) :
    Buf.read (Buf.cell i v m) i = v := by
  unfold Buf.cell
  split
  · next hv => rw [h, hv]
  · simp [Buf.read]

theorem Buf.read_cell_ne {i j : Nat} (v : Byte) (m : Buf) (h : j ≠ i) :
    Buf.read (Buf.cell i v m) j = Buf.read m j := by
  unfold Buf.cell
  split
  · rfl
  · simp [Buf.read, Ne.symm h]

/-- A read after a write to the same index gives the byte written. -/
theorem Buf.read_write_self {lo : Nat} {m : Buf} (h : Buf.wfFrom lo m = true) (i : Nat) (v : Byte) :
    Buf.read (Buf.write m i v) i = v := by
  induction m generalizing lo with
  | nil => exact Buf.read_cell_self rfl
  | cons c m ih =>
    obtain ⟨a, b⟩ := c
    simp only [Buf.wfFrom, Bool.and_eq_true, decide_eq_true_eq] at h
    obtain ⟨⟨⟨-, -⟩, -⟩, hm⟩ := h
    simp only [Buf.write]
    split
    · next hia =>
      apply Buf.read_cell_self
      have : a ≠ i := by omega
      simp only [Buf.read, this, if_false]
      exact Buf.read_of_lt hm (by omega)
    · split
      · next hia => subst hia; exact Buf.read_cell_self (Buf.read_of_lt hm (by omega))
      · next hlt hne =>
        have : a ≠ i := fun e => hne e.symm
        simp only [Buf.read, this, if_false]
        exact ih hm

/-- A write leaves every other index alone. -/
theorem Buf.read_write_ne (m : Buf) {i j : Nat} (v : Byte) (h : j ≠ i) :
    Buf.read (Buf.write m i v) j = Buf.read m j := by
  induction m with
  | nil => exact Buf.read_cell_ne v [] h
  | cons c m ih =>
    obtain ⟨a, b⟩ := c
    simp only [Buf.write]
    split
    · exact Buf.read_cell_ne v _ h
    · split
      · next hia =>
        subst hia
        rw [Buf.read_cell_ne v m h]
        simp [Buf.read, Ne.symm h]
      · simp only [Buf.read, ih]

/-- Two buffers in canonical form that read alike are equal. -/
theorem Buf.ext_of_wfFrom {lo : Nat} {m m' : Buf} (h : Buf.wfFrom lo m = true) (h' : Buf.wfFrom lo m' = true)
    (hr : ∀ i, Buf.read m i = Buf.read m' i) : m = m' := by
  induction m generalizing lo m' with
  | nil =>
    cases m' with
    | nil => rfl
    | cons c m' =>
      obtain ⟨a, b⟩ := c
      simp only [Buf.wfFrom, Bool.and_eq_true, decide_eq_true_eq] at h'
      exact absurd (by simpa [Buf.read] using (hr a).symm) h'.1.2
  | cons c m ih =>
    obtain ⟨a, b⟩ := c
    simp only [Buf.wfFrom, Bool.and_eq_true, decide_eq_true_eq] at h
    cases m' with
    | nil => exact absurd (by simpa [Buf.read] using hr a) h.1.2
    | cons c' m' =>
      obtain ⟨a', b'⟩ := c'
      simp only [Buf.wfFrom, Bool.and_eq_true, decide_eq_true_eq] at h'
      have haa : a = a' := by
        by_contra hne
        rcases Nat.lt_or_gt_of_ne hne with hlt | hgt
        · have h1 := hr a
          simp only [Buf.read, if_true, Ne.symm hne, if_false] at h1
          exact h.1.2 (h1.trans (Buf.read_of_lt h'.2 (by omega)))
        · have h1 := hr a'
          simp only [Buf.read, if_true, hne, if_false] at h1
          exact h'.1.2 (h1.symm.trans (Buf.read_of_lt h.2 (by omega)))
      subst haa
      have hbb : b = b' := by simpa [Buf.read] using hr a
      subst hbb
      congr 1
      refine ih h.2 h'.2 fun i => ?_
      by_cases hi : a = i
      · subst hi
        rw [Buf.read_of_lt h.2 (by omega), Buf.read_of_lt h'.2 (by omega)]
      · simpa [Buf.read, hi] using hr i

@[simp] theorem Buf.length_slice (m : Buf) (i n : Nat) : (Buf.slice m i n).length = n := by
  induction n generalizing i with
  | zero => rfl
  | succ n ih => simp [Buf.slice, ih]

/-- A slice is one byte longer at its end. -/
theorem Buf.slice_succ (m : Buf) (i n : Nat) : Buf.slice m i (n + 1) = Buf.slice m i n ++ [Buf.read m (i + n)] := by
  induction n generalizing i with
  | zero => rfl
  | succ n ih =>
    rw [Buf.slice, ih (i + 1), show i + 1 + n = i + (n + 1) by omega]
    rfl

/-- A slice depends only on the bytes it covers. -/
theorem Buf.slice_congr {m m' : Buf} {i n : Nat} (h : ∀ j, i ≤ j → j < i + n → Buf.read m j = Buf.read m' j) :
    Buf.slice m i n = Buf.slice m' i n := by
  induction n generalizing i with
  | zero => rfl
  | succ n ih =>
    simp only [Buf.slice]
    rw [h i (by omega) (by omega), ih fun j h1 h2 => h j (by omega) (by omega)]

/-- A slice from the start is one read per index. -/
theorem Buf.slice_zero (m : Buf) (n : Nat) : Buf.slice m 0 n = Safety.firstBytes m n := by
  induction n with
  | zero => rfl
  | succ n ih => simp [Buf.slice_succ, ih, Safety.firstBytes, List.range_succ]

/-- A write outside a slice leaves it alone. -/
theorem Buf.slice_write_ne (m : Buf) {k : Nat} (v : Byte) {n : Nat} (h : n ≤ k) :
    Buf.slice (Buf.write m k v) 0 n = Buf.slice m 0 n :=
  Buf.slice_congr fun j _ h2 => Buf.read_write_ne m v (by omega)

/-- A write of the byte after a slice extends it. -/
theorem Buf.slice_write_end {m : Buf} (h : Buf.wf m = true) (n : Nat) (v : Byte) :
    Buf.slice (Buf.write m n v) 0 (n + 1) = Buf.slice m 0 n ++ [v] := by
  rw [Buf.slice_succ, Buf.slice_write_ne m v (Nat.le_refl n), Nat.zero_add, Buf.read_write_self h]

/-- All that a one-byte `memWrite` can do. -/
theorem memWrite_single (m : Buf) (i : Nat) (d : Byte) :
    memWrite m i [d] = if i < Buf.capacity then some (Buf.write m i d) else none := by
  rfl

/-- All that a `memRead` from the start can do. -/
theorem memRead_zero (m : Buf) (n : Nat) :
    memRead m 0 n = if n ≤ Buf.capacity then some (Safety.firstBytes m n) else none := by
  simp [memRead, Buf.slice_zero]

/-- Every list write keeps the canonical form where it answers. -/
theorem memWrite_wf {m m' : Buf} {i : Nat} {l : List Byte} (h : Buf.wf m = true) (hw : memWrite m i l = some m') :
    Buf.wf m' = true := by
  unfold memWrite at hw
  split at hw
  · next hle =>
    cases hw
    induction l generalizing m i with
    | nil => exact h
    | cons v l ih =>
      simp only [List.length_cons] at hle
      exact ih (m := Buf.write m i v) (Buf.write_wf h (by omega) v) (by omega)
  · cases hw

end Sys2Proof.Machine
end

