-- ==== Sys2Proof/Laws/Decode.lean ====
section
/-! SUPPORT. The laws of the command word, the decoder and the step: the fields of a word, what the decoder answers on
a word made of two fields, and the step of a fetched word. -/

namespace Sys2Proof

@[simp] theorem op_mkWord (op imm : Byte) : CmdWord.op (mkWord op imm) = op := by
  apply BitVec.eq_of_toNat_eq
  simp only [CmdWord.op, mkWord, BitVec.extractLsb'_toNat, BitVec.toNat_append, Nat.shiftRight_eq_div_pow,
    Nat.shiftLeft_eq]
  have h1 := op.isLt
  have h2 := imm.isLt
  rw [Nat.mul_comm, ← Nat.two_pow_add_eq_or_of_lt h2]
  omega

@[simp] theorem imm8_mkWord (op imm : Byte) : CmdWord.imm8 (mkWord op imm) = imm := by
  apply BitVec.eq_of_toNat_eq
  simp only [CmdWord.imm8, mkWord, BitVec.extractLsb'_toNat, BitVec.toNat_append, Nat.shiftRight_zero,
    Nat.shiftLeft_eq]
  have h2 := imm.isLt
  rw [Nat.mul_comm, ← Nat.two_pow_add_eq_or_of_lt h2]
  omega

/-- A word is made of its two fields (R80). -/
theorem mkWord_op_imm8 (w : CmdWord) : mkWord (CmdWord.op w) (CmdWord.imm8 w) = w := by
  apply BitVec.eq_of_toNat_eq
  simp only [CmdWord.op, CmdWord.imm8, mkWord, BitVec.extractLsb'_toNat, BitVec.toNat_append,
    Nat.shiftRight_eq_div_pow, Nat.shiftLeft_eq]
  have h := w.isLt
  rw [Nat.mul_comm, ← Nat.two_pow_add_eq_or_of_lt (Nat.mod_lt _ (by decide))]
  omega

/-- The decoder on a word whose OP the table gives an operation with the operand IMM8 (R82). -/
theorem decode_mkWord_imm8 {op : Byte} {mk : Byte → Instr} (h : findOp opTable op = some (.imm8 mk)) (imm : Byte) :
    decode (mkWord op imm) = .ok (mk imm) := by
  simp only [decode, op_mkWord, imm8_mkWord, h]

/-- The decoder on a word whose OP the table gives an operation without operand, with IMM8 = 0x00 (R81). -/
theorem decode_mkWord_plain {op : Byte} {i : Instr} (h : findOp opTable op = some (.plain i)) :
    decode (mkWord op 0x00#8) = .ok i := by
  simp only [decode, op_mkWord, imm8_mkWord, h, if_true]

/-- The same OP with any other IMM8 (R83). -/
theorem decode_mkWord_nonzero {op imm : Byte} {i : Instr} (h : findOp opTable op = some (.plain i))
    (hi : imm ≠ 0x00#8) : decode (mkWord op imm) = .error (.nonzeroImm op imm) := by
  simp only [decode, op_mkWord, imm8_mkWord, h, hi, if_false]

/-- The decoder on a word whose OP is in no row of the table (R84). -/
theorem decode_mkWord_reserved {op : Byte} (h : findOp opTable op = none) (imm : Byte) :
    decode (mkWord op imm) = .error (.reservedOp op) := by
  simp only [decode, op_mkWord, h]

/-- A row the table lookup finds is a row of the table. -/
theorem findOp_mem {rows : List (Byte × Form)} {op : Byte} {f : Form} (h : findOp rows op = some f) :
    (op, f) ∈ rows := by
  induction rows with
  | nil => simp [findOp] at h
  | cons row rows ih =>
    obtain ⟨o, g⟩ := row
    unfold findOp at h
    split at h
    · next ho => cases h; subst ho; exact List.mem_cons_self
    · exact List.mem_cons_of_mem _ (ih h)

namespace Machine

/-- With no command word issued the step leaves the state alone. -/
theorem step_of_port_nil {s : State} (h : s.port = []) : step s = .next s := by
  simp [step, State.fetch, h]

/-- The step of a word that decodes to an operation. -/
theorem step_of_decode_ok {s : State} {w : CmdWord} {rest : List CmdWord} {i : Instr} (h : s.port = w :: rest)
    (hd : decode w = .ok i) : step s = exec i { s with port := rest } := by
  simp only [step, State.fetch, h, hd]

/-- The step of a word that decodes to none. -/
theorem step_of_decode_error {s : State} {w : CmdWord} {rest : List CmdWord} {e : Reject} (h : s.port = w :: rest)
    (hd : decode w = .error e) : step s = illegalWord { s with port := rest } := by
  simp only [step, State.fetch, h, hd]

/-- A word the host issues runs next. -/
theorem step_withFetchWord {s : State} {nbits w : Nat} {i : Instr} (h : decodeTableWord nbits w = some i) :
    step (s.withFetchWord nbits w) = exec i s := by
  refine step_of_decode_ok (s := s.withFetchWord nbits w) (rest := s.port) rfl ?_
  unfold decodeTableWord at h
  generalize decode (BitVec.ofNat 16 (w % 2 ^ nbits)) = r at h ⊢
  cases r with
  | error e => cases h
  | ok j => cases h; rfl

end Machine

end Sys2Proof
end

