-- ==== Sys2Proof/Laws/State.lean ====
section
/-! SUPPORT. One lemma per field per named update of the state, each true by rfl, so that no later proof unfolds a
record update. -/

namespace Sys2Proof.Machine.State

variable (s : State)

@[simp] theorem setCrcAcc_fault (v : Crc) : (s.setCrcAcc v).fault = s.fault := rfl
@[simp] theorem setCrcAcc_crcAcc (v : Crc) : (s.setCrcAcc v).crcAcc = v := rfl
@[simp] theorem setCrcAcc_lbuf (v : Crc) : (s.setCrcAcc v).lbuf = s.lbuf := rfl
@[simp] theorem setCrcAcc_rx (v : Crc) : (s.setCrcAcc v).rx = s.rx := rfl
@[simp] theorem setCrcAcc_tx (v : Crc) : (s.setCrcAcc v).tx = s.tx := rfl
@[simp] theorem setCrcAcc_port (v : Crc) : (s.setCrcAcc v).port = s.port := rfl
@[simp] theorem setCrcAcc_res (v : Crc) : (s.setCrcAcc v).res = s.res := rfl

@[simp] theorem setLbuf_fault (l : List Byte) : (s.setLbuf l).fault = s.fault := rfl
@[simp] theorem setLbuf_crcAcc (l : List Byte) : (s.setLbuf l).crcAcc = s.crcAcc := rfl
@[simp] theorem setLbuf_lbuf (l : List Byte) : (s.setLbuf l).lbuf = l := rfl
@[simp] theorem setLbuf_rx (l : List Byte) : (s.setLbuf l).rx = s.rx := rfl
@[simp] theorem setLbuf_tx (l : List Byte) : (s.setLbuf l).tx = s.tx := rfl
@[simp] theorem setLbuf_port (l : List Byte) : (s.setLbuf l).port = s.port := rfl
@[simp] theorem setLbuf_res (l : List Byte) : (s.setLbuf l).res = s.res := rfl

@[simp] theorem setRx_fault (r : Rx) : (s.setRx r).fault = s.fault := rfl
@[simp] theorem setRx_crcAcc (r : Rx) : (s.setRx r).crcAcc = s.crcAcc := rfl
@[simp] theorem setRx_lbuf (r : Rx) : (s.setRx r).lbuf = s.lbuf := rfl
@[simp] theorem setRx_rx (r : Rx) : (s.setRx r).rx = r := rfl
@[simp] theorem setRx_tx (r : Rx) : (s.setRx r).tx = s.tx := rfl
@[simp] theorem setRx_port (r : Rx) : (s.setRx r).port = s.port := rfl
@[simp] theorem setRx_res (r : Rx) : (s.setRx r).res = s.res := rfl

@[simp] theorem setTx_fault (t : Tx) : (s.setTx t).fault = s.fault := rfl
@[simp] theorem setTx_crcAcc (t : Tx) : (s.setTx t).crcAcc = s.crcAcc := rfl
@[simp] theorem setTx_lbuf (t : Tx) : (s.setTx t).lbuf = s.lbuf := rfl
@[simp] theorem setTx_rx (t : Tx) : (s.setTx t).rx = s.rx := rfl
@[simp] theorem setTx_tx (t : Tx) : (s.setTx t).tx = t := rfl
@[simp] theorem setTx_port (t : Tx) : (s.setTx t).port = s.port := rfl
@[simp] theorem setTx_res (t : Tx) : (s.setTx t).res = s.res := rfl

@[simp] theorem clearRes_fault : (s.clearRes).fault = s.fault := rfl
@[simp] theorem clearRes_crcAcc : (s.clearRes).crcAcc = s.crcAcc := rfl
@[simp] theorem clearRes_lbuf : (s.clearRes).lbuf = s.lbuf := rfl
@[simp] theorem clearRes_rx : (s.clearRes).rx = s.rx := rfl
@[simp] theorem clearRes_tx : (s.clearRes).tx = s.tx := rfl
@[simp] theorem clearRes_port : (s.clearRes).port = s.port := rfl
@[simp] theorem clearRes_res : (s.clearRes).res = Res.empty := rfl

@[simp] theorem emitTx_fault (l : List Byte) : (s.emitTx l).fault = s.fault := rfl
@[simp] theorem emitTx_crcAcc (l : List Byte) : (s.emitTx l).crcAcc = s.crcAcc := rfl
@[simp] theorem emitTx_lbuf (l : List Byte) : (s.emitTx l).lbuf = s.lbuf := rfl
@[simp] theorem emitTx_rx (l : List Byte) : (s.emitTx l).rx = s.rx := rfl
@[simp] theorem emitTx_tx (l : List Byte) : (s.emitTx l).tx = s.tx := rfl
@[simp] theorem emitTx_port (l : List Byte) : (s.emitTx l).port = s.port := rfl
@[simp] theorem emitTx_res (l : List Byte) : (s.emitTx l).res = { s.res with tx := s.res.tx ++ l } := rfl

@[simp] theorem emitEv_fault (e : Event) : (s.emitEv e).fault = s.fault := rfl
@[simp] theorem emitEv_crcAcc (e : Event) : (s.emitEv e).crcAcc = s.crcAcc := rfl
@[simp] theorem emitEv_lbuf (e : Event) : (s.emitEv e).lbuf = s.lbuf := rfl
@[simp] theorem emitEv_rx (e : Event) : (s.emitEv e).rx = s.rx := rfl
@[simp] theorem emitEv_tx (e : Event) : (s.emitEv e).tx = s.tx := rfl
@[simp] theorem emitEv_port (e : Event) : (s.emitEv e).port = s.port := rfl
@[simp] theorem emitEv_res (e : Event) : (s.emitEv e).res = { s.res with ev := s.res.ev ++ [e] } := rfl

@[simp] theorem retVal_fault (v : Val) : (s.retVal v).fault = s.fault := rfl
@[simp] theorem retVal_crcAcc (v : Val) : (s.retVal v).crcAcc = s.crcAcc := rfl
@[simp] theorem retVal_lbuf (v : Val) : (s.retVal v).lbuf = s.lbuf := rfl
@[simp] theorem retVal_rx (v : Val) : (s.retVal v).rx = s.rx := rfl
@[simp] theorem retVal_tx (v : Val) : (s.retVal v).tx = s.tx := rfl
@[simp] theorem retVal_port (v : Val) : (s.retVal v).port = s.port := rfl
@[simp] theorem retVal_res (v : Val) : (s.retVal v).res = { s.res with val := v } := rfl

@[simp] theorem retBytes_fault (l : List Byte) : (s.retBytes l).fault = s.fault := rfl
@[simp] theorem retBytes_crcAcc (l : List Byte) : (s.retBytes l).crcAcc = s.crcAcc := rfl
@[simp] theorem retBytes_lbuf (l : List Byte) : (s.retBytes l).lbuf = s.lbuf := rfl
@[simp] theorem retBytes_rx (l : List Byte) : (s.retBytes l).rx = s.rx := rfl
@[simp] theorem retBytes_tx (l : List Byte) : (s.retBytes l).tx = s.tx := rfl
@[simp] theorem retBytes_port (l : List Byte) : (s.retBytes l).port = s.port := rfl
@[simp] theorem retBytes_res (l : List Byte) : (s.retBytes l).res = { s.res with bytes := l } := rfl

@[simp] theorem retSt_fault (v : Status) : (s.retSt v).fault = s.fault := rfl
@[simp] theorem retSt_crcAcc (v : Status) : (s.retSt v).crcAcc = s.crcAcc := rfl
@[simp] theorem retSt_lbuf (v : Status) : (s.retSt v).lbuf = s.lbuf := rfl
@[simp] theorem retSt_rx (v : Status) : (s.retSt v).rx = s.rx := rfl
@[simp] theorem retSt_tx (v : Status) : (s.retSt v).tx = s.tx := rfl
@[simp] theorem retSt_port (v : Status) : (s.retSt v).port = s.port := rfl
@[simp] theorem retSt_res (v : Status) : (s.retSt v).res = { s.res with st := v } := rfl

@[simp] theorem raiseFault_fault (f : FaultCode) : (s.raiseFault f).fault = f := rfl
@[simp] theorem raiseFault_crcAcc (f : FaultCode) : (s.raiseFault f).crcAcc = s.crcAcc := rfl
@[simp] theorem raiseFault_lbuf (f : FaultCode) : (s.raiseFault f).lbuf = s.lbuf := rfl
@[simp] theorem raiseFault_rx (f : FaultCode) : (s.raiseFault f).rx = s.rx := rfl
@[simp] theorem raiseFault_tx (f : FaultCode) : (s.raiseFault f).tx = s.tx := rfl
@[simp] theorem raiseFault_port (f : FaultCode) : (s.raiseFault f).port = s.port := rfl
@[simp] theorem raiseFault_res (f : FaultCode) : (s.raiseFault f).res = Res.faulted := rfl

@[simp] theorem refuseLatched_fault : (s.refuseLatched).fault = s.fault := rfl
@[simp] theorem refuseLatched_crcAcc : (s.refuseLatched).crcAcc = s.crcAcc := rfl
@[simp] theorem refuseLatched_lbuf : (s.refuseLatched).lbuf = s.lbuf := rfl
@[simp] theorem refuseLatched_rx : (s.refuseLatched).rx = s.rx := rfl
@[simp] theorem refuseLatched_tx : (s.refuseLatched).tx = s.tx := rfl
@[simp] theorem refuseLatched_port : (s.refuseLatched).port = s.port := rfl
@[simp] theorem refuseLatched_res : (s.refuseLatched).res = Res.faulted := rfl

@[simp] theorem issue_fault (w : CmdWord) : (s.issue w).fault = s.fault := rfl
@[simp] theorem issue_crcAcc (w : CmdWord) : (s.issue w).crcAcc = s.crcAcc := rfl
@[simp] theorem issue_lbuf (w : CmdWord) : (s.issue w).lbuf = s.lbuf := rfl
@[simp] theorem issue_rx (w : CmdWord) : (s.issue w).rx = s.rx := rfl
@[simp] theorem issue_tx (w : CmdWord) : (s.issue w).tx = s.tx := rfl
@[simp] theorem issue_port (w : CmdWord) : (s.issue w).port = w :: s.port := rfl
@[simp] theorem issue_res (w : CmdWord) : (s.issue w).res = s.res := rfl

@[simp] theorem resetUnit_fault : s.resetUnit.fault = .none := rfl
@[simp] theorem resetUnit_crcAcc : s.resetUnit.crcAcc = 0#16 := rfl
@[simp] theorem resetUnit_lbuf : s.resetUnit.lbuf = [] := rfl
@[simp] theorem resetUnit_rx : s.resetUnit.rx = Rx.reset := rfl
@[simp] theorem resetUnit_tx : s.resetUnit.tx = Tx.reset := rfl
@[simp] theorem resetUnit_port : s.resetUnit.port = s.port := rfl
@[simp] theorem resetUnit_res : s.resetUnit.res = Res.empty := rfl

end Sys2Proof.Machine.State
end

