-- ==== Sys2Proof/Laws/Ops.lean ====
section
/-! SUPPORT. One lemma per shared operation that says once everything it can do. -/

namespace Sys2Proof.Machine

open Safety

/-! ## The latch and the fault path -/

theorem unlessLatched_of_none {s : State} (h : s.fault = .none) (rule : State → Out) :
    unlessLatched s rule = rule s.clearRes := by
  simp [unlessLatched, h]

theorem unlessLatched_of_latched {s : State} (h : s.fault ≠ .none) (rule : State → Out) :
    unlessLatched s rule = .next { s with res := Res.faulted } := by
  simp [unlessLatched, h, State.refuseLatched]

/-- If a guarded rule answers next `t`, either no fault was latched and the rule answered it, or the latch refused. -/
theorem unlessLatched_next {s t : State} {rule : State → Out} (h : unlessLatched s rule = .next t) :
    (s.fault = .none ∧ rule s.clearRes = .next t) ∨ (s.fault ≠ .none ∧ t = { s with res := Res.faulted }) := by
  by_cases hf : s.fault = .none
  · rw [unlessLatched_of_none hf] at h
    exact .inl ⟨hf, h⟩
  · rw [unlessLatched_of_latched hf] at h
    cases h
    exact .inr ⟨hf, rfl⟩

/-- All an illegal word can do (R273). -/
theorem illegalWord_cases (s : State) :
    (s.fault = .none ∧ illegalWord s = .next { s with fault := .illegalOp, res := Res.faulted }) ∨
    (s.fault ≠ .none ∧ illegalWord s = .next { s with res := Res.faulted }) := by
  by_cases hf : s.fault = .none
  · exact .inl ⟨hf, by rw [illegalWord, unlessLatched_of_none hf]; rfl⟩
  · exact .inr ⟨hf, by rw [illegalWord, unlessLatched_of_latched hf]⟩

/-! ## Parameters -/

theorem retryLimit_pos (c : Config) : 1 ≤ c.retryLimit := Nat.le_add_left 1 _

theorem retryLimit_le (c : Config) : c.retryLimit ≤ 15 := by
  have := c.retryLimitPred.isLt
  unfold Config.retryLimit
  omega

theorem lineMax_pos (c : Config) : 1 ≤ c.lineMax := Nat.le_add_left 1 _

theorem lineMax_le (c : Config) : c.lineMax ≤ 65535 := by
  have := c.lineMaxPred.isLt
  unfold Config.lineMax
  omega

/-- A counter below the retry limit counts up without a wrap. -/
theorem toNat_succ_of_lt_retryLimit {c : Config} {n : BitVec 4} (h : n.toNat < c.retryLimit) :
    (n + 1#4).toNat = n.toNat + 1 := by
  have := retryLimit_le c
  rw [BitVec.toNat_add]
  simp only [BitVec.toNat_ofNat]
  omega

/-! ## The receive framer -/

theorem Rx.size_eq (r : Rx) : r.size = if r.big then 1024 else 128 := rfl

theorem Rx.size_le (r : Rx) : r.size ≤ 1024 := by
  rw [Rx.size_eq]
  split <;> decide

theorem Rx.size_pos (r : Rx) : 1 ≤ r.size := by
  rw [Rx.size_eq]
  split <;> decide

/-- All `NakPath` (R165) can do. -/
theorem nakPath_eq (c : Config) (reason : ErrCode) (s : State) :
    nakPath c reason s =
      if (s.rx.retry + 1#4).toNat = c.retryLimit then
        { s with rx := { s.rx with cnt := 0#11, retry := s.rx.retry + 1#4, phase := .failed, err := .retryLimitExceeded },
                 res := { s.res with ev := s.res.ev ++ [.rxFailed .retryLimitExceeded] } }
      else
        { s with rx := { s.rx with cnt := 0#11, retry := s.rx.retry + 1#4, phase := .purge, err := reason } } := by
  unfold nakPath
  split <;> simp_all [rxFail, State.setRx, State.emitEv]

/-- All a payload byte (R160) can do. -/
theorem rxData_eq (d : Byte) (s : State) :
    rxData d s =
      if s.rx.cnt.toNat < 1024 then
        .next { s with rx := { s.rx with
          buf := Buf.write s.rx.buf s.rx.cnt.toNat d, crc := crcStep s.rx.crc d, cnt := s.rx.cnt + 1#11,
          phase := if s.rx.cnt.toNat + 1 = s.rx.size then .crch else s.rx.phase } }
      else .fault .rxBufRange := by
  unfold rxData
  rw [memWrite_single]
  by_cases hc : s.rx.cnt.toNat < 1024
  · have hs : (s.rx.cnt + 1#11).toNat = s.rx.cnt.toNat + 1 := by
      rw [BitVec.toNat_add]
      simp only [BitVec.toNat_ofNat]
      omega
    simp only [hc, if_true, State.setRx, hs, Rx.size_eq]
    by_cases he : s.rx.cnt.toNat + 1 = if s.rx.big = true then 1024 else 128
    · simp only [he, if_true]
    · simp only [he, if_false]
  · simp [hc]

/-- All the acceptance of a block (R162) can do: it never stops. -/
theorem rxAccept_eq (c : Config) (s : State) :
    rxAccept c s =
      .next (if s.rx.hdr then rxDataBlock (firstBytes s.rx.buf s.rx.size) s
        else rxHeader c (firstBytes s.rx.buf s.rx.size) s) := by
  unfold rxAccept
  rw [memRead_zero, if_pos (show s.rx.size ≤ Buf.capacity from Rx.size_le s.rx)]

/-- All a last CRC byte (R162) can do, by the first check that fails. -/
theorem rxCrcl_cases (c : Config) (d : Byte) (s : State) :
    (s.rx.seqb.toNat + s.rx.cmpb.toNat ≠ 255 ∧ rxCrcl c d s = .next (nakPath c .complementMismatch s)) ∨
    (s.rx.seqb.toNat + s.rx.cmpb.toNat = 255 ∧ s.rx.seqb ≠ s.rx.exp ∧
      rxCrcl c d s = .next (nakPath c .sequenceMismatch s)) ∨
    (s.rx.seqb.toNat + s.rx.cmpb.toNat = 255 ∧ s.rx.seqb = s.rx.exp ∧ s.rx.crc ≠ crcJoin s.rx.crch d ∧
      rxCrcl c d s = .next (nakPath c .checksumMismatch s)) ∨
    (BlockIsValid s.rx d ∧
      rxCrcl c d s = .next (if s.rx.hdr then rxDataBlock (firstBytes s.rx.buf s.rx.size) s
        else rxHeader c (firstBytes s.rx.buf s.rx.size) s)) := by
  unfold rxCrcl
  by_cases h1 : s.rx.seqb.toNat + s.rx.cmpb.toNat = 255
  · by_cases h2 : s.rx.seqb = s.rx.exp
    · by_cases h3 : s.rx.crc = crcJoin s.rx.crch d
      · refine .inr (.inr (.inr ⟨⟨h1, h2, h3⟩, ?_⟩))
        rw [if_neg (not_not.2 h1), if_neg (not_not.2 h2), if_neg (not_not.2 h3), rxAccept_eq]
      · refine .inr (.inr (.inl ⟨h1, h2, h3, ?_⟩))
        rw [if_neg (not_not.2 h1), if_neg (not_not.2 h2), if_pos h3]
    · refine .inr (.inl ⟨h1, h2, ?_⟩)
      rw [if_neg (not_not.2 h1), if_pos h2]
  · exact .inl ⟨h1, by rw [if_pos h1]⟩

/-! ## The send framer -/

/-- All `NoResolve` (R215) can do. -/
theorem txNoResolve_eq (c : Config) (s : State) :
    txNoResolve c s =
      if (s.tx.attempt + 1#4).toNat = c.retryLimit then
        { s with tx := { s.tx with attempt := s.tx.attempt + 1#4, phase := .failed, err := .attemptsExhausted },
                 res := { s.res with ev := s.res.ev ++ [.txFailed .attemptsExhausted] } }
      else { s with tx := { s.tx with attempt := s.tx.attempt + 1#4 } } := by
  unfold txNoResolve
  split <;> simp_all [txFail, State.setTx, State.emitEv]

/-- All a counted retry (R214, R216, R217) can do. -/
theorem txRetryOrFail_eq (c : Config) (s : State) :
    txRetryOrFail c s =
      if (s.tx.retry + 1#4).toNat = c.retryLimit then
        { s with tx := { s.tx with retry := s.tx.retry + 1#4, phase := .failed, err := .retryLimitExceeded },
                 res := { s.res with ev := s.res.ev ++ [.txFailed .retryLimitExceeded] } }
      else
        { s with tx := { s.tx with retry := s.tx.retry + 1#4, attempt := 0#4 },
                 res := { s.res with tx := s.res.tx ++ s.tx.frame } } := by
  unfold txRetryOrFail
  split <;> simp_all [txFail, txResend, State.setTx, State.emitEv, State.emitTx]

/-- All TX_LOAD (R203) can do. -/
theorem txLoad_eq (d : Byte) (s : State) :
    txLoad d s =
      if s.tx.len.toNat = 1024 then .next (s.raiseFault .txBufferFull)
      else if s.tx.len.toNat < 1024 then
        .next { s with tx := { s.tx with buf := Buf.write s.tx.buf s.tx.len.toNat d, len := s.tx.len + 1#11 } }
      else .fault .txBufRange := by
  unfold txLoad
  rw [memWrite_single]
  by_cases he : s.tx.len.toNat = 1024
  · simp [he]
  · by_cases h : s.tx.len.toNat < 1024 <;> simp [he, h, State.setTx]

/-- All a block send (R205, R206) can do. -/
theorem txSendBlock_eq (mode : Byte) (size : Nat) (pad : Byte) (kind : TxKind) (s : State) :
    txSendBlock mode size pad kind s =
      if s.tx.len.toNat ≤ 1024 then
        .next (txSend kind .waitAck
          (makeFrame mode s.tx.seq
            (firstBytes s.tx.buf s.tx.len.toNat ++ List.replicate (size - s.tx.len.toNat) pad))
          (s.setTx { s.tx with len := 0#11 }))
      else .fault .txBufRange := by
  unfold txSendBlock
  rw [memRead_zero]
  by_cases h : s.tx.len.toNat ≤ 1024
  · simp only [h, if_true]
  · simp only [h, if_false]

/-- All TX_SEND_HDR (R205) can do. -/
theorem txSendHdr_cases (s : State) :
    (s.tx.phase ≠ .ready ∧ txSendHdr s = .next (s.raiseFault .txNotReady)) ∨
    (s.tx.phase = .ready ∧ s.tx.len.toNat > 128 ∧ txSendHdr s = .next (s.raiseFault .txHeaderTooLong)) ∨
    (s.tx.phase = .ready ∧ s.tx.len.toNat ≤ 128 ∧
      txSendHdr s = .next (txSend .hdr .waitAck
        (makeFrame SOH s.tx.seq
          (firstBytes s.tx.buf s.tx.len.toNat ++ List.replicate (128 - s.tx.len.toNat) NUL))
        (s.setTx { s.tx with len := 0#11 }))) := by
  unfold txSendHdr
  by_cases hp : s.tx.phase = .ready
  · by_cases hl : s.tx.len.toNat > 128
    · exact .inr (.inl ⟨hp, hl, by rw [if_neg (not_not.2 hp), if_pos hl]⟩)
    · refine .inr (.inr ⟨hp, by omega, ?_⟩)
      rw [if_neg (not_not.2 hp), if_neg hl, txSendBlock_eq, if_pos (by omega)]
  · exact .inl ⟨hp, by rw [if_pos hp]⟩

/-- All TX_SEND_DATA (R206) can do. -/
theorem txSendData_cases (s : State) :
    (s.tx.phase ≠ .ready ∧ txSendData s = .next (s.raiseFault .txNotReady)) ∨
    (s.tx.phase = .ready ∧ s.tx.len.toNat > 1024 ∧ txSendData s = .fault .txBufRange) ∨
    (s.tx.phase = .ready ∧ s.tx.len.toNat ≤ 1024 ∧
      txSendData s = .next (txSend .data .waitAck
        (makeFrame STX s.tx.seq
          (firstBytes s.tx.buf s.tx.len.toNat ++ List.replicate (1024 - s.tx.len.toNat) SUB))
        (s.setTx { s.tx with len := 0#11 }))) := by
  unfold txSendData
  by_cases hp : s.tx.phase = .ready
  · rw [if_neg (not_not.2 hp), txSendBlock_eq]
    by_cases hl : s.tx.len.toNat ≤ 1024
    · exact .inr (.inr ⟨hp, hl, by rw [if_pos hl]⟩)
    · exact .inr (.inl ⟨hp, by omega, by rw [if_neg hl]⟩)
  · exact .inl ⟨hp, by rw [if_pos hp]⟩

/-- All TX_SEND_EOT (R207) can do. -/
theorem txSendEot_cases (s : State) :
    (s.tx.phase ≠ .ready ∧ txSendEot s = s.raiseFault .txNotReady) ∨
    (s.tx.phase = .ready ∧ txSendEot s = txSend .eot .waitEot [EOT] s) := by
  unfold txSendEot
  by_cases hp : s.tx.phase = .ready
  · exact .inr ⟨hp, by rw [if_neg (not_not.2 hp)]⟩
  · exact .inl ⟨hp, by rw [if_pos hp]⟩

@[simp] theorem length_firstBytes (m : Buf) (n : Nat) : (firstBytes m n).length = n := by
  simp [firstBytes]

@[simp] theorem length_makeFrame (mode sq : Byte) (p : List Byte) : (makeFrame mode sq p).length = p.length + 5 := by
  simp [makeFrame]

/-! ## The CRC -/

/-- The CRC of a list one byte longer (R111). -/
theorem crc16_append_single (l : List Byte) (d : Byte) : crc16 (l ++ [d]) = crcStep (crc16 l) d := by
  simp [crc16]

@[simp] theorem crc16_nil : crc16 [] = 0#16 := rfl

end Sys2Proof.Machine
end

