-- ==== Sys2Proof/Laws/Exec.lean ====
section
/-! SUPPORT. What `exec` is for each operation: its rule on the state with an empty result record where no fault is
latched (60_exceptions.md R273), and the latch's refusal where one is (R272). -/

namespace Sys2Proof.Machine

/-- RESET runs whether or not a fault is latched (R273). -/
theorem exec_reset (s : State) : exec .reset s = .next s.resetUnit.clearRes := rfl

/-- GET_FAULT runs whether or not a fault is latched (R273). -/
theorem exec_getFault (s : State) : exec .getFault s = .next (s.clearRes.retVal (faultWord s.fault)) := rfl

theorem exec_nop {s : State} (h : s.fault = .none) :
    exec .nop s = .next (s.clearRes) := by
  rw [exec, execNop]
  exact unlessLatched_of_none h _

theorem exec_crcInit {s : State} (h : s.fault = .none) :
    exec .crcInit s = .next (s.clearRes.setCrcAcc Config.crcInitValue) := by
  rw [exec, execCrcInit]
  exact unlessLatched_of_none h _

theorem exec_crcByte (d : Byte) {s : State} (h : s.fault = .none) :
    exec (.crcByte d) s = .next (s.clearRes.setCrcAcc (crcStep s.crcAcc d)) := by
  rw [exec, execCrcByte]
  exact unlessLatched_of_none h _

theorem exec_crcRead {s : State} (h : s.fault = .none) :
    exec .crcRead s = .next (s.clearRes.retVal (s.crcAcc.setWidth 32)) := by
  rw [exec, execCrcRead]
  exact unlessLatched_of_none h _

theorem exec_lfByte (d : Byte) {s : State} (h : s.fault = .none) :
    exec (.lfByte d) s = .next (lfByte Config.unit d s.clearRes) := by
  rw [exec, execLfByte]
  exact unlessLatched_of_none h _

theorem exec_lfDrain {s : State} (h : s.fault = .none) :
    exec .lfDrain s = .next ((s.clearRes.retBytes s.lbuf).setLbuf []) := by
  rw [exec, execLfDrain]
  exact unlessLatched_of_none h _

theorem exec_lfStatus {s : State} (h : s.fault = .none) :
    exec .lfStatus s = .next (s.clearRes.retVal (lfStatusWord s.lbuf)) := by
  rw [exec, execLfStatus]
  exact unlessLatched_of_none h _

theorem exec_rxStart {s : State} (h : s.fault = .none) :
    exec .rxStart s = .next ((s.clearRes.setRx s.rx.started).emitTx [HANDSHAKE]) := by
  rw [exec, execRxStart]
  exact unlessLatched_of_none h _

theorem exec_rxByte (d : Byte) {s : State} (h : s.fault = .none) :
    exec (.rxByte d) s = rxByte Config.unit d s.clearRes := by
  rw [exec, execRxByte]
  exact unlessLatched_of_none h _

theorem exec_rxTimeout {s : State} (h : s.fault = .none) :
    exec .rxTimeout s = .next (rxTimeout Config.unit s.clearRes) := by
  rw [exec, execRxTimeout]
  exact unlessLatched_of_none h _

theorem exec_rxAbort {s : State} (h : s.fault = .none) :
    exec .rxAbort s = .next (rxAbort s.clearRes) := by
  rw [exec, execRxAbort]
  exact unlessLatched_of_none h _

theorem exec_rxStatus {s : State} (h : s.fault = .none) :
    exec .rxStatus s = .next (s.clearRes.retVal (rxStatusWord s.rx)) := by
  rw [exec, execRxStatus]
  exact unlessLatched_of_none h _

theorem exec_txOpen {s : State} (h : s.fault = .none) :
    exec .txOpen s = .next (s.clearRes.setTx s.tx.opened) := by
  rw [exec, execTxOpen]
  exact unlessLatched_of_none h _

theorem exec_txResp (d : Byte) {s : State} (h : s.fault = .none) :
    exec (.txResp d) s = .next (txResp Config.unit d s.clearRes) := by
  rw [exec, execTxResp]
  exact unlessLatched_of_none h _

theorem exec_txTimeout {s : State} (h : s.fault = .none) :
    exec .txTimeout s = .next (txTimeout Config.unit s.clearRes) := by
  rw [exec, execTxTimeout]
  exact unlessLatched_of_none h _

theorem exec_txLoad (d : Byte) {s : State} (h : s.fault = .none) :
    exec (.txLoad d) s = txLoad d s.clearRes := by
  rw [exec, execTxLoad]
  exact unlessLatched_of_none h _

theorem exec_txSendHdr {s : State} (h : s.fault = .none) :
    exec .txSendHdr s = txSendHdr s.clearRes := by
  rw [exec, execTxSendHdr]
  exact unlessLatched_of_none h _

theorem exec_txSendData {s : State} (h : s.fault = .none) :
    exec .txSendData s = txSendData s.clearRes := by
  rw [exec, execTxSendData]
  exact unlessLatched_of_none h _

theorem exec_txSendEot {s : State} (h : s.fault = .none) :
    exec .txSendEot s = .next (txSendEot s.clearRes) := by
  rw [exec, execTxSendEot]
  exact unlessLatched_of_none h _

theorem exec_txAbort {s : State} (h : s.fault = .none) :
    exec .txAbort s = .next (txAbort s.clearRes) := by
  rw [exec, execTxAbort]
  exact unlessLatched_of_none h _

theorem exec_txStatus {s : State} (h : s.fault = .none) :
    exec .txStatus s = .next (s.clearRes.retVal (txStatusWord s.tx)) := by
  rw [exec, execTxStatus]
  exact unlessLatched_of_none h _

/-- While a fault is latched an operation other than RESET and GET_FAULT only answers FAULTED (R272). -/
theorem exec_of_latched {i : Instr} {s : State} (h : s.fault ≠ .none) (hr : i ≠ .reset) (hg : i ≠ .getFault) :
    exec i s = .next { s with res := Res.faulted } := by
  cases i
  case reset => exact absurd rfl hr
  case getFault => exact absurd rfl hg
  all_goals
    simp only [exec, execNop, execCrcInit, execCrcByte, execCrcRead, execLfByte, execLfDrain, execLfStatus, execRxStart, execRxByte,
      execRxTimeout, execRxAbort, execRxStatus, execTxOpen, execTxResp, execTxTimeout, execTxLoad, execTxSendHdr,
      execTxSendData, execTxSendEot, execTxAbort, execTxStatus]
    exact unlessLatched_of_latched h _

/-! ## The operand bytes -/

@[simp] theorem leadByte_soh : leadByte 0x01#8 = .soh := by decide
@[simp] theorem leadByte_stx : leadByte 0x02#8 = .stx := by decide
@[simp] theorem leadByte_eot : leadByte 0x04#8 = .eot := by decide
@[simp] theorem leadByte_can : leadByte 0x18#8 = .can := by decide
@[simp] theorem respByte_handshake : respByte 0x43#8 = .handshake := by decide
@[simp] theorem respByte_ack : respByte 0x06#8 = .ack := by decide
@[simp] theorem respByte_nak : respByte 0x15#8 = .nak := by decide
@[simp] theorem respByte_can : respByte 0x18#8 = .can := by decide

/-- Which bytes are a lead byte of each meaning (R87). -/
theorem leadByte_cases (d : Byte) :
    (d = 0x01#8 ∧ leadByte d = .soh) ∨ (d = 0x02#8 ∧ leadByte d = .stx) ∨ (d = 0x04#8 ∧ leadByte d = .eot) ∨
    (d = 0x18#8 ∧ leadByte d = .can) ∨
    (d ≠ 0x01#8 ∧ d ≠ 0x02#8 ∧ d ≠ 0x04#8 ∧ d ≠ 0x18#8 ∧ leadByte d = .other) := by
  unfold leadByte
  split
  · exact .inl ⟨‹_›, rfl⟩
  split
  · exact .inr (.inl ⟨‹_›, rfl⟩)
  split
  · exact .inr (.inr (.inl ⟨‹_›, rfl⟩))
  split
  · exact .inr (.inr (.inr (.inl ⟨‹_›, rfl⟩)))
  · exact .inr (.inr (.inr (.inr ⟨‹_›, ‹_›, ‹_›, ‹_›, rfl⟩)))

/-- Which bytes are a response of each meaning (R88). -/
theorem respByte_cases (d : Byte) :
    (d = 0x43#8 ∧ respByte d = .handshake) ∨ (d = 0x06#8 ∧ respByte d = .ack) ∨ (d = 0x15#8 ∧ respByte d = .nak) ∨
    (d = 0x18#8 ∧ respByte d = .can) ∨
    (d ≠ 0x43#8 ∧ d ≠ 0x06#8 ∧ d ≠ 0x15#8 ∧ d ≠ 0x18#8 ∧ respByte d = .other) := by
  unfold respByte
  split
  · exact .inl ⟨‹_›, rfl⟩
  split
  · exact .inr (.inl ⟨‹_›, rfl⟩)
  split
  · exact .inr (.inr (.inl ⟨‹_›, rfl⟩))
  split
  · exact .inr (.inr (.inr (.inl ⟨‹_›, rfl⟩)))
  · exact .inr (.inr (.inr (.inr ⟨‹_›, ‹_›, ‹_›, ‹_›, rfl⟩)))

end Sys2Proof.Machine
end

