-- ==== Sys2Proof/Laws/Frame.lean ====
section
/-! SUPPORT. The frame of the rules of the two framers: an RX rule writes RX registers and the result record only, a
response, timeout or abort rule of the TX unit writes TX registers and the result record only. -/

namespace Sys2Proof.Machine

/-- `t` differs from `s` at most in the RX registers and the result record. -/
abbrev OnlyRx (s t : State) : Prop := t = { s with rx := t.rx, res := t.res }

/-- `t` differs from `s` at most in the TX registers and the result record. -/
abbrev OnlyTx (s t : State) : Prop := t = { s with tx := t.tx, res := t.res }

theorem onlyRx_nakPath (c : Config) (e : ErrCode) (s : State) : OnlyRx s (nakPath c e s) := by
  rw [nakPath_eq]
  split <;> rfl

theorem onlyRx_rxLead (c : Config) (d : Byte) (s : State) : OnlyRx s (rxLead c d s) := by
  unfold rxLead
  simp only
  split
  · rfl
  · rfl
  · unfold rxLeadEot
    simp only
    split <;> rfl
  · unfold rxLeadCan
    simp only
    split <;> rfl
  · exact onlyRx_nakPath c _ _

theorem onlyRx_rxHeader (c : Config) (p : List Byte) (s : State) : OnlyRx s (rxHeader c p s) := by
  unfold rxHeader
  simp only
  split
  · cases c.nullHeaderAck <;> rfl
  · rfl

theorem onlyRx_rxByte {c : Config} {d : Byte} {s t : State} (h : rxByte c d s = .next t) : OnlyRx s t := by
  unfold rxByte at h
  split at h
  iterate 4 (cases h; rfl)
  · cases h
    exact onlyRx_rxLead c d s
  · cases h
    rfl
  · cases h
    rfl
  · rw [rxData_eq] at h
    split at h <;> cases h
    rfl
  · cases h
    rfl
  · rcases rxCrcl_cases c d s with ⟨-, e⟩ | ⟨-, -, e⟩ | ⟨-, -, -, e⟩ | ⟨-, e⟩ <;> rw [e] at h <;> cases h
    iterate 3 exact onlyRx_nakPath c _ s
    split
    · rfl
    · exact onlyRx_rxHeader c _ s

theorem onlyRx_rxTimeout (c : Config) (s : State) : OnlyRx s (rxTimeout c s) := by
  unfold rxTimeout
  split <;> first | rfl | exact onlyRx_nakPath c _ _

theorem onlyRx_rxAbort (s : State) : OnlyRx s (rxAbort s) := by
  unfold rxAbort
  split <;> rfl

theorem onlyTx_txNoResolve (c : Config) (s : State) : OnlyTx s (txNoResolve c (txClearCanc s)) := by
  rw [txNoResolve_eq]
  split <;> rfl

theorem onlyTx_txRetryOrFail (c : Config) (s : State) : OnlyTx s (txRetryOrFail c (txClearCanc s)) := by
  rw [txRetryOrFail_eq]
  split <;> rfl

theorem onlyTx_txCan (s : State) : OnlyTx s (txCan s) := by
  unfold txCan
  simp only
  split <;> rfl

theorem onlyTx_txResp (c : Config) (d : Byte) (s : State) : OnlyTx s (txResp c d s) := by
  unfold txResp
  split
  iterate 4 rfl
  · split
    · exact onlyTx_txCan s
    · unfold txRespWaitC
      split <;> first | rfl | exact onlyTx_txNoResolve c s
  · split
    · exact onlyTx_txCan s
    · unfold txRespWaitAck
      split <;> first | rfl | exact onlyTx_txNoResolve c s | exact onlyTx_txRetryOrFail c s
  · split
    · exact onlyTx_txCan s
    · unfold txRespWaitEot
      split <;> first | rfl | exact onlyTx_txRetryOrFail c s

theorem onlyTx_txTimeout (c : Config) (s : State) : OnlyTx s (txTimeout c s) := by
  unfold txTimeout
  split <;> first | rfl | exact onlyTx_txNoResolve c s | exact onlyTx_txRetryOrFail c s

theorem onlyTx_txAbort (s : State) : OnlyTx s (txAbort s) := by
  unfold txAbort
  split <;> rfl

end Sys2Proof.Machine
end

