-- ==== Sys2Proof/Laws/PerInstr.lean ====
section
/-! SUPPORT. Statements made once per operation of `Instr`. -/

namespace Sys2Proof.Laws

/-- The word of an operation is a well-formed command word (30_encoding.md R83, R84): its OP is reserved by no range
and its IMM8 is 0x00 unless the operation takes a byte. -/
def EncodesWellFormed.Statement (i : Instr) : Prop := CmdWord.wellFormed (encode i) = true

/-- How each lemma below is settled: the two fields of the word decide it. -/
theorem wellFormed_mkWord {op imm : Byte} (h : (!opReserved op && (opTakesByte op || imm = 0#8)) = true) :
    CmdWord.wellFormed (mkWord op imm) = true := by
  unfold CmdWord.wellFormed
  rw [op_mkWord, imm8_mkWord]
  exact h

theorem EncodesWellFormed.nop : EncodesWellFormed.Statement .nop := wellFormed_mkWord rfl

theorem EncodesWellFormed.reset : EncodesWellFormed.Statement .reset := wellFormed_mkWord rfl

theorem EncodesWellFormed.getFault : EncodesWellFormed.Statement .getFault := wellFormed_mkWord rfl

theorem EncodesWellFormed.crcInit : EncodesWellFormed.Statement .crcInit := wellFormed_mkWord rfl

theorem EncodesWellFormed.crcByte (d : Byte) : EncodesWellFormed.Statement (.crcByte d) :=
  wellFormed_mkWord (by rw [show opTakesByte (opOf (.crcByte d)) = true from rfl]; rfl)

theorem EncodesWellFormed.crcRead : EncodesWellFormed.Statement .crcRead := wellFormed_mkWord rfl

theorem EncodesWellFormed.lfByte (d : Byte) : EncodesWellFormed.Statement (.lfByte d) :=
  wellFormed_mkWord (by rw [show opTakesByte (opOf (.lfByte d)) = true from rfl]; rfl)

theorem EncodesWellFormed.lfDrain : EncodesWellFormed.Statement .lfDrain := wellFormed_mkWord rfl

theorem EncodesWellFormed.lfStatus : EncodesWellFormed.Statement .lfStatus := wellFormed_mkWord rfl

theorem EncodesWellFormed.rxStart : EncodesWellFormed.Statement .rxStart := wellFormed_mkWord rfl

theorem EncodesWellFormed.rxByte (d : Byte) : EncodesWellFormed.Statement (.rxByte d) :=
  wellFormed_mkWord (by rw [show opTakesByte (opOf (.rxByte d)) = true from rfl]; rfl)

theorem EncodesWellFormed.rxTimeout : EncodesWellFormed.Statement .rxTimeout := wellFormed_mkWord rfl

theorem EncodesWellFormed.rxAbort : EncodesWellFormed.Statement .rxAbort := wellFormed_mkWord rfl

theorem EncodesWellFormed.rxStatus : EncodesWellFormed.Statement .rxStatus := wellFormed_mkWord rfl

theorem EncodesWellFormed.txOpen : EncodesWellFormed.Statement .txOpen := wellFormed_mkWord rfl

theorem EncodesWellFormed.txResp (d : Byte) : EncodesWellFormed.Statement (.txResp d) :=
  wellFormed_mkWord (by rw [show opTakesByte (opOf (.txResp d)) = true from rfl]; rfl)

theorem EncodesWellFormed.txTimeout : EncodesWellFormed.Statement .txTimeout := wellFormed_mkWord rfl

theorem EncodesWellFormed.txLoad (d : Byte) : EncodesWellFormed.Statement (.txLoad d) :=
  wellFormed_mkWord (by rw [show opTakesByte (opOf (.txLoad d)) = true from rfl]; rfl)

theorem EncodesWellFormed.txSendHdr : EncodesWellFormed.Statement .txSendHdr := wellFormed_mkWord rfl

theorem EncodesWellFormed.txSendData : EncodesWellFormed.Statement .txSendData := wellFormed_mkWord rfl

theorem EncodesWellFormed.txSendEot : EncodesWellFormed.Statement .txSendEot := wellFormed_mkWord rfl

theorem EncodesWellFormed.txAbort : EncodesWellFormed.Statement .txAbort := wellFormed_mkWord rfl

theorem EncodesWellFormed.txStatus : EncodesWellFormed.Statement .txStatus := wellFormed_mkWord rfl

end Sys2Proof.Laws
end

