-- ==== Sys2Proof/Tests/Slice0.lean ====
section
/-! SUPPORT. The model's own tests. Expected values are those of spec/95_test_vectors.md, named in each comment, or are
written out from the encoding of 30_encoding.md R80 and R81. The last part shows, for every statement with hypotheses, a
concrete state and operands that meet them. -/

namespace Sys2Proof.Tests

open Sys2Proof.Machine Sys2Proof.Safety

/-! ## Helpers -/

/-- The next state, if there is one. -/
def next? : Out → Option State
  | .next t => some t
  | .fault _ | .refused _ => none

/-- The state after one operation. -/
def after (i : Instr) (s : State) : Option State := next? (exec i s)

/-- The result record of one operation. -/
def resAfter (i : Instr) (s : State) : Option Res := (after i s).map State.res

/-- The reset state with this command word issued. -/
def issued (w : CmdWord) : State := { State.reset with port := [w] }

/-- The reset state with this fault latched. -/
def faulted (f : FaultCode) : State := { State.reset with fault := f }

/-- The reset state with these RX registers. -/
def withRx (r : Rx) : State := { State.reset with rx := r }

/-- The reset state with these TX registers. -/
def withTx (t : Tx) : State := { State.reset with tx := t }

/-- The reset state in this RX phase. -/
def rxIn (p : RxPhase) : State := withRx { Rx.reset with phase := p }

/-- The reset state in this TX phase. -/
def txIn (p : TxPhase) : State := withTx { Tx.reset with phase := p }

/-- A parameter choice for the vectors that name one: RETRY_LIMIT = 1, LINE_MAX = 2, NULL_HEADER_ACK = 1. -/
def small : Config := { retryLimitPred := 0, lineMaxPred := 1, nullHeaderAck := true }

/-- The default RETRY_LIMIT = 5 with LINE_MAX = 64 and NULL_HEADER_ACK = 0. -/
def usual : Config := { retryLimitPred := 4, lineMaxPred := 63, nullHeaderAck := false }

/-- A one-block header in phase CRCL: the payload is 0x01 and 127 zeros, whose CRC is 0x9295 (L2.1). -/
def atLastByte (hdr : Bool) : Rx :=
  { Rx.reset with phase := .crcl, hdr := hdr, seqb := 0#8, cmpb := 0xFF#8, cnt := 128#11, buf := [(0, 0x01#8)],
                  crc := 0x9295#16, crch := 0x92#8 }

/-- Two loaded bytes, "hi", in phase READY. -/
def readyHi : Tx := { Tx.reset with phase := .ready, seq := 0xFF#8, len := 2#11, buf := [(0, 0x68#8), (1, 0x69#8)] }

/-! ## Decoding: one word of each operation, written from R80 and R81 -/

theorem test_decode_nop : decode 0b0000000000000000#16 = .ok .nop := by rfl
theorem test_decode_reset : decode 0b0000000100000000#16 = .ok .reset := by rfl
theorem test_decode_getFault : decode 0b0000001000000000#16 = .ok .getFault := by rfl
theorem test_decode_crcInit : decode 0b0001000000000000#16 = .ok .crcInit := by rfl
theorem test_decode_crcByte : decode 0b0001000100110001#16 = .ok (.crcByte 0x31#8) := by rfl
theorem test_decode_crcRead : decode 0b0001001000000000#16 = .ok .crcRead := by rfl
theorem test_decode_lfByte : decode 0b0010000011111111#16 = .ok (.lfByte 0xFF#8) := by rfl
theorem test_decode_lfDrain : decode 0b0010000100000000#16 = .ok .lfDrain := by rfl
theorem test_decode_lfStatus : decode 0b0010001000000000#16 = .ok .lfStatus := by rfl
theorem test_decode_rxStart : decode 0b0011000000000000#16 = .ok .rxStart := by rfl
theorem test_decode_rxByte : decode 0b0011000100000001#16 = .ok (.rxByte 0x01#8) := by rfl
theorem test_decode_rxTimeout : decode 0b0011001000000000#16 = .ok .rxTimeout := by rfl
theorem test_decode_rxAbort : decode 0b0011001100000000#16 = .ok .rxAbort := by rfl
theorem test_decode_rxStatus : decode 0b0011010000000000#16 = .ok .rxStatus := by rfl
theorem test_decode_txOpen : decode 0b0100000000000000#16 = .ok .txOpen := by rfl
theorem test_decode_txResp : decode 0b0100000101000011#16 = .ok (.txResp 0x43#8) := by rfl
theorem test_decode_txTimeout : decode 0b0100001000000000#16 = .ok .txTimeout := by rfl
theorem test_decode_txLoad : decode 0b0100001110000000#16 = .ok (.txLoad 0x80#8) := by rfl
theorem test_decode_txSendHdr : decode 0b0100010000000000#16 = .ok .txSendHdr := by rfl
theorem test_decode_txSendData : decode 0b0100010100000000#16 = .ok .txSendData := by rfl
theorem test_decode_txSendEot : decode 0b0100011000000000#16 = .ok .txSendEot := by rfl
theorem test_decode_txAbort : decode 0b0100011100000000#16 = .ok .txAbort := by rfl
theorem test_decode_txStatus : decode 0b0100100000000000#16 = .ok .txStatus := by rfl

/-- The host's reading of a table row: bit 0 is the least significant bit of the word. -/
theorem test_decodeTableWord : decodeTableWord 16 0x4143 = some (.txResp 0x43#8) := by decide

theorem test_decodeTableWord_refused : decodeTableWord 16 0x0300 = none := by decide

/-! ## WellFormed: one ill-formed word for each check -/

/-- R84, 0x03..0x0F, at both ends. -/
theorem test_wellFormed_low : CmdWord.wellFormed 0x0300#16 = false ∧ CmdWord.wellFormed 0x0F00#16 = false := by decide

/-- R84, 0x13..0x1F, at both ends. -/
theorem test_wellFormed_crc : CmdWord.wellFormed 0x1300#16 = false ∧ CmdWord.wellFormed 0x1F00#16 = false := by decide

/-- R84, 0x23..0x2F, at both ends. -/
theorem test_wellFormed_lf : CmdWord.wellFormed 0x2300#16 = false ∧ CmdWord.wellFormed 0x2F00#16 = false := by decide

/-- R84, 0x35..0x3F, at both ends. -/
theorem test_wellFormed_rx : CmdWord.wellFormed 0x3500#16 = false ∧ CmdWord.wellFormed 0x3F00#16 = false := by decide

/-- R84, 0x49..0xFF, at both ends. -/
theorem test_wellFormed_tx : CmdWord.wellFormed 0x4900#16 = false ∧ CmdWord.wellFormed 0xFFFF#16 = false := by decide

/-- R83: a nonzero IMM8 on an operation without operand; the five with an operand take any. -/
theorem test_wellFormed_imm8 :
    CmdWord.wellFormed 0x0001#16 = false ∧ CmdWord.wellFormed 0x12FF#16 = false ∧
    CmdWord.wellFormed 0x20FF#16 = true := by decide

/-! ## Assembler (R95) -/

theorem test_assemble :
    ["CRC_BYTE '1' ; comment", "TX_LOAD SUB", "RX_BYTE 0xfE", "RX_START", "RX_START 0x00", "TX_LOAD"].map assembleLine =
      [some 0x1131#16, some 0x431A#16, some 0x31FE#16, some 0x3000#16, none, none] := by decide

/-- The model's choice for a quoted semicolon (log 9): a comment, so the byte is written in hexadecimal. -/
theorem test_assemble_semicolon :
    ["TX_LOAD ';'", "TX_LOAD 0x3B"].map assembleLine = [none, some 0x433B#16] := by decide

/-! ## System operations -/

/-- SY1. -/
theorem test_nop : after .nop (faulted .none) = some State.reset := by decide

/-- SY6: a fault, a count and a byte list all go. -/
theorem test_reset :
    after .reset { faulted .lineOverflow with crcAcc := 0x1021#16, lbuf := [0x41#8] } = some State.reset := by decide

/-- SY4: GET_FAULT runs while a fault is latched, and keeps it. -/
theorem test_getFault :
    (after .getFault (faulted .illegalOp)).map (fun t => (t.res.val, t.res.st, t.fault)) =
      some (1#32, .ok, .illegalOp) := by decide

/-- SY2: word 0x0300 after CRC_BYTE 0x01. -/
theorem test_illegalWord :
    (next? (step { issued 0x0300#16 with crcAcc := 0x1021#16 })).map (fun t => (t.fault, t.crcAcc, t.res, t.port)) =
      some (.illegalOp, 0x1021#16, Res.faulted, []) := by decide

/-- SY5: the first fault is kept. -/
theorem test_illegalWord_latched :
    (next? (step { issued 0x0101#16 with fault := .txNotReady })).map State.fault = some .txNotReady := by decide

/-- The first word the host issues after reset runs. -/
theorem test_first_step :
    (next? (step (State.reset.withFetchWord 16 0x1101))).map State.crcAcc = some 0x1021#16 := by decide

/-! ## CRC unit (L2.1) -/

theorem test_crcInit : (after .crcInit { State.reset with crcAcc := 0x31C3#16 }).map State.crcAcc = some 0x0000#16 := by
  decide

theorem test_crcByte_top_bit : (after (.crcByte 0x80#8) State.reset).map State.crcAcc = some 0x9188#16 := by decide

/-- The last step of "123456789". -/
theorem test_crcByte_continues :
    (after (.crcByte 0x39#8) { State.reset with crcAcc := 0x9015#16 }).map State.crcAcc = some 0x31C3#16 := by decide

theorem test_crcRead : (resAfter .crcRead { State.reset with crcAcc := 0xFC96#16 }).map Res.val = some 0x0000FC96#32 := by
  decide

theorem test_crc16_check : crc16 (asciiBytes "123456789") = 0x31C3#16 := by decide +kernel

theorem test_crc16_order : crc16 [0x12#8, 0x34#8, 0x56#8] = 0xDE61#16 := by decide +kernel

/-! ## Line framer (L2.2) -/

/-- LF6: the byte after LINE_MAX bytes faults and is not appended. -/
theorem test_lfByte_overflow :
    lfByte small 0x63#8 { State.reset with lbuf := [0x61#8, 0x62#8] } =
      { State.reset with lbuf := [0x61#8, 0x62#8], fault := .lineOverflow, res := Res.faulted } := by decide

/-- LF7: a delimiter at a full buffer ends the line. -/
theorem test_lfByte_delimiter :
    lfByte small 0x0D#8 { State.reset with lbuf := [0x61#8, 0x62#8] } =
      { State.reset with res := okRes 0#32 [] [] [.line [0x61#8, 0x62#8]] } := by decide

/-- LF8. -/
theorem test_lfDrain :
    (after .lfDrain { State.reset with lbuf := [0x01#8, 0x00#8] }).map (fun t => (t.res.bytes, t.lbuf)) =
      some ([0x01#8, 0x00#8], []) := by decide

/-- LF9. -/
theorem test_lfStatus : (resAfter .lfStatus { State.reset with lbuf := [0x61#8] }).map Res.val = some 1#32 := by decide

/-! ## Receive framer (L2.4) -/

/-- RX33: RX_START in a later phase starts afresh. -/
theorem test_rxStart :
    (after .rxStart (withRx { Rx.reset with phase := .purge, retry := 1#4, err := .timeout })).map
      (fun t => (t.rx, t.res.tx)) = some ({ Rx.reset with phase := .lead }, [0x43#8]) := by decide

/-- RX3's acceptance, on a shorter payload: the data block is handed over whole. -/
theorem test_rxByte_accepts_header :
    (resAfter (.rxByte 0x95#8) (withRx (atLastByte false))) =
      some (okRes 0#32 [] [0x06#8, 0x43#8] [.rxHeader (0x01#8 :: List.replicate 127 0x00#8)]) := by decide

/-- RX21: RETRY_LIMIT = 1. -/
theorem test_rxByte_limit :
    ((rxLead small 0x43#8 (rxIn .lead)).rx, (rxLead small 0x43#8 (rxIn .lead)).res.ev) =
      ({ Rx.reset with phase := .failed, err := .retryLimitExceeded, retry := 1#4 },
       [.rxFailed .retryLimitExceeded]) := by decide

/-- RX5: NULL_HEADER_ACK = 1. -/
theorem test_rxHeader_null :
    (rxHeader small (List.replicate 128 0x00#8) (rxIn .crcl)).res =
      okRes 0#32 [] [0x06#8] [.rxNullHeader, .rxDone] := by decide

/-- RX34: the purge ends with the deferred NAK. -/
theorem test_rxTimeout_purge :
    (after .rxTimeout (withRx { Rx.reset with phase := .purge, retry := 1#4, err := .timeout })).map
      (fun t => (rxStatusWord t.rx, t.res.tx)) = some (0x00000141#32, [0x15#8]) := by decide

/-- RX17: a timeout in LEAD clears the EOT counter. -/
theorem test_rxTimeout_lead :
    rxStatusWord (rxTimeout usual (withRx { Rx.reset with phase := .lead, eotc := 1#2 })).rx = 0x00000147#32 := by decide

/-- RX22. -/
theorem test_rxAbort :
    (after .rxAbort (withRx { Rx.reset with phase := .data, big := true, cnt := 1#11 })).map
      (fun t => (rxStatusWord t.rx, t.rx.cnt, t.res.ev)) =
      some (0x02000089#32, 0#11, [.rxFailed .aborted]) := by decide

/-- P3's last status. -/
theorem test_rxStatus :
    (resAfter .rxStatus (withRx { Rx.reset with phase := .done, eotc := 2#2, exp := 2#8, hdr := true })).map Res.val =
      some 0x01022008#32 := by decide

/-! ## Send framer (L2.5) -/

/-- TX30: TX_OPEN starts afresh. -/
theorem test_txOpen :
    (after .txOpen (withTx { Tx.reset with phase := .done, seq := 1#8, kind := .eot, frame := [0x04#8] })).map State.tx =
      some { Tx.reset with phase := .waitC } := by decide

/-- TX26: the ACK of block 255 wraps TX_SEQ. -/
theorem test_txResp_wrap :
    (after (.txResp 0x06#8) (withTx { Tx.reset with phase := .waitAck, seq := 0xFF#8, kind := .data })).map
      (fun t => (txStatusWord t.tx, t.res.ev)) = some (0x02000002#32, [.txAcked]) := by decide

/-- TX8: a NAK resends the frame. -/
theorem test_txResp_nak :
    (txResp usual 0x15#8 (withTx { Tx.reset with phase := .waitEot, kind := .eot, frame := [0x04#8] })).res.tx =
      [0x04#8] := by decide

/-- TX11: the fifth timeout in WAIT_C. -/
theorem test_txTimeout :
    txStatusWord (txTimeout usual (withTx { Tx.reset with phase := .waitC, attempt := 4#4 })).tx = 0x00005096#32 := by
  decide

/-- TX20: a timeout in READY does nothing. -/
theorem test_txTimeout_ready : (after .txTimeout (txIn .ready)).map State.tx = some (txIn .ready).tx := by decide

/-- TX_LOAD in IDLE (R202). -/
theorem test_txLoad :
    (after (.txLoad 0x41#8) State.reset).map State.tx = some { Tx.reset with buf := [(0, 0x41#8)], len := 1#11 } := by
  decide

/-- TX23: the byte after 1024 faults. -/
theorem test_txLoad_full :
    (after (.txLoad 0x41#8) (withTx { Tx.reset with len := 1024#11 })).map (fun t => (t.fault, t.tx.len)) =
      some (.txBufferFull, 1024#11) := by decide

/-- TX4: an empty header's frame starts 01 00 FF, and the status is WAIT_ACK with KIND 1. -/
theorem test_txSendHdr :
    (after .txSendHdr (txIn .ready)).map (fun t => (txStatusWord t.tx, t.res.tx.take 4)) =
      some (0x01000003#32, [0x01#8, 0x00#8, 0xFF#8, 0x00#8]) := by decide

/-- The two CRC bytes of a frame, high byte first (R62). -/
theorem test_makeFrame_crc : makeFrame SOH 1#8 [0x80#8] = [0x01#8, 0x01#8, 0xFE#8, 0x80#8, 0x91#8, 0x88#8] := by decide

/-- TX22. -/
theorem test_txSendHdr_long :
    (after .txSendHdr (withTx { Tx.reset with phase := .ready, len := 129#11 })).map
      (fun t => (t.fault, t.tx.len, t.tx.phase)) = some (.txHeaderTooLong, 129#11, .ready) := by decide

/-- TX21. -/
theorem test_txSendData_idle : (after .txSendData State.reset).map State.fault = some .txNotReady := by decide

/-- TX26's frame starts 02 FF 00. -/
theorem test_txSendData_start :
    (resAfter .txSendData (withTx readyHi)).map (fun r => r.tx.take 6) =
      some [0x02#8, 0xFF#8, 0x00#8, 0x68#8, 0x69#8, 0x1A#8] := by rfl

/-- TX18. -/
theorem test_txSendEot :
    (after .txSendEot (txIn .ready)).map (fun t => (t.tx.phase, t.tx.kind, t.res.tx)) =
      some (.waitEot, .eot, [0x04#8]) := by decide

/-- TX24. -/
theorem test_txAbort :
    (after .txAbort (txIn .ready)).map (fun t => (txStatusWord t.tx, t.res)) =
      some (0x00000086#32, okRes 0#32 [] [] [.txFailed .aborted]) := by decide

/-- TX16's last status. -/
theorem test_txStatus :
    (resAfter .txStatus
      (withTx { Tx.reset with phase := .waitEot, retry := 1#4, kind := .eot, canc := 1#2 })).map Res.val =
      some 0x07000104#32 := by decide

/-! ## Host duties -/

/-- L1.8, its last step: after the transfer a delimiter is handed on to the LF unit. -/
theorem test_handOff_after_transfer :
    (handOff receiveHandlers 0x0D#8 { rxIn .done with lbuf := [0x4F#8, 0x4B#8] }).map (fun p => p.2) =
      some [notConsumedRes, okRes 0#32 [] [] [.line [0x4F#8, 0x4B#8]]] := by decide

/-- R306: the purge timer in PURGE, the receive timer in WAIT_EOT, none in READY. -/
theorem test_timers :
    rxTimer (rxIn .purge) = some (.purge, .rxTimeout) ∧ txTimer (txIn .waitEot) = some (.receive, .txTimeout) ∧
    txTimer (txIn .ready) = none := by decide

/-! ## Witnesses: a state and operands that meet the hypotheses of each statement, clause by clause -/

/-- A state in the middle of both transfers: one payload byte received, the sender ready. -/
def mid : State :=
  { State.reset with
    rx := { Rx.reset with phase := .data, cmpb := 0xFF#8, cnt := 1#11, buf := [(0, 0x01#8)], crc := 0x1021#16 },
    tx := { Tx.reset with phase := .ready, len := 1#11, buf := [(0, 0x68#8)] } }

/-- The same with other bytes where R47 says no operation looks. -/
def mid' : State :=
  { mid with rx := { mid.rx with buf := [(0, 0x01#8), (1, 0x07#8)] },
             tx := { mid.tx with buf := [(0, 0x68#8), (1023, 0x09#8)] } }

/-- LBUF holds exactly LINE_MAX bytes. -/
def fullLine : State := { State.reset with lbuf := List.replicate Config.unit.lineMax 0x41#8 }

/-- The words of every `EncodesPlain`: an illegal IMM8 at both ends, with and without a latched fault. -/
theorem witness_EncodesPlain :
    (0x01#8 : Byte) ≠ 0x00#8 ∧ (0xFF#8 : Byte) ≠ 0x00#8 ∧
    (issued (0x12#8 ++ 0x01#8)).port = (0x12#8 ++ 0x01#8) :: [] ∧ (issued (0x12#8 ++ 0xFF#8)).fault = .none ∧
    ({ issued (0x12#8 ++ 0x01#8) with fault := .txNotReady } : State).fault ≠ .none := by decide

theorem witness_ResetOperation :
    exec .reset (faulted .txNotReady) = .next State.reset ∧ (faulted .txNotReady).fault ≠ .none ∧
    State.reset.fault = .none := ⟨rfl, by decide, rfl⟩

theorem witness_NopOperation : mid.fault = .none ∧ (faulted .illegalOp).fault ≠ .none := by decide

theorem witness_CrcInitOperation : mid.fault = .none := rfl

theorem witness_CrcByteOperation : mid.fault = .none := rfl

theorem witness_CrcReadOperation : mid.fault = .none := rfl

theorem witness_CrcOfReadsCrc16 : mid.fault = .none := rfl

theorem witness_CrcIsLinear : [0x12#8, 0x34#8, 0x56#8].length = [0xF0#8, 0x0F#8, 0xAA#8].length := rfl

/-- The delimiter at a full LBUF, another byte at a full LBUF, and another byte at an LBUF one short of full. -/
theorem witness_LfByteOperation :
    fullLine.fault = .none ∧ (0x41#8 : Byte) ≠ 0x0D#8 ∧ fullLine.lbuf.length = Config.unit.lineMax ∧
    ({ fullLine with lbuf := fullLine.lbuf.tail } : State).lbuf.length ≠ Config.unit.lineMax := by
  have := lineMax_pos Config.unit
  refine ⟨rfl, by decide, by simp [fullLine], ?_⟩
  simp only [fullLine, List.length_tail, List.length_replicate]
  omega

theorem witness_LfDrainOperation : fullLine.fault = .none := rfl

theorem witness_LfStatusOperation : fullLine.fault = .none ∧ fullLine.lbuf.length ≤ Config.unit.lineMax :=
  ⟨rfl, by simp [fullLine]⟩

/-- A pending byte, then a chunk that ends its line, a line of one byte and an empty line, and leaves a byte. -/
theorem witness_LfChunkYieldsItsLines :
    let s : State := { State.reset with lbuf := [0x61#8] }
    s.fault = .none ∧ 0x0D#8 ∉ s.lbuf ∧
    s.lbuf ++ [0x0D#8, 0x62#8, 0x0D#8, 0x0D#8, 0x63#8] =
      [[0x61#8], [0x62#8], []].flatMap (fun l => l ++ [0x0D#8]) ++ [0x63#8] ∧
    ∀ l ∈ [0x63#8] :: [[0x61#8], [0x62#8], []], 0x0D#8 ∉ l ∧ l.length ≤ Config.unit.lineMax := by
  have := lineMax_pos Config.unit
  refine ⟨rfl, by decide, by decide, ?_⟩
  intro l hl
  have h : 0x0D#8 ∉ l ∧ l.length ≤ 1 := by
    revert l
    decide
  exact ⟨h.1, h.2.trans this⟩

theorem witness_RxStartOperation : mid.fault = .none := rfl

theorem witness_RxByteDispatch :
    (rxIn .idle).rx.phase = .idle ∧ (rxIn .done).rx.phase = .done ∧ (rxIn .failed).rx.phase = .failed ∧
    (rxIn .purge).rx.phase = .purge ∧ mid.rx.phase = .data ∧ mid.fault = .none ∧
    exec (.rxByte 0x02#8) (rxIn .lead) =
      .next (withRx { Rx.reset with phase := .seq, big := true }) := ⟨rfl, rfl, rfl, rfl, rfl, rfl, rfl⟩

theorem witness_RxLeadByteOpensBlock : (rxIn .lead).fault = .none ∧ (rxIn .lead).rx.phase = .lead := ⟨rfl, rfl⟩

theorem witness_RxLeadEotEndsTransfer :
    let s := withRx { Rx.reset with phase := .lead, eotc := 1#2 }
    s.fault = .none ∧ s.rx.phase = .lead ∧ s.rx.eotc.toNat ≤ 1 ∧ s.rx.eotc = 1#2 ∧ (rxIn .lead).rx.eotc = 0#2 := by
  decide

theorem witness_RxLeadCanCancels :
    let s := withRx { Rx.reset with phase := .lead, canc := 1#2 }
    s.fault = .none ∧ s.rx.phase = .lead ∧ s.rx.canc.toNat ≤ 1 ∧ s.rx.canc = 1#2 ∧ (rxIn .lead).rx.canc = 0#2 := by
  decide

theorem witness_RxLeadDesyncTakesNakPath :
    (rxIn .lead).fault = .none ∧ (rxIn .lead).rx.phase = .lead ∧ (0x43#8 : Byte) ≠ 0x01#8 ∧ (0x43#8 : Byte) ≠ 0x02#8 ∧
    (0x43#8 : Byte) ≠ 0x04#8 ∧ (0x43#8 : Byte) ≠ 0x18#8 := by decide

/-- Both sides of the test of R165 and R214: the entry that reaches RETRY_LIMIT, and one that does not. -/
theorem witness_retry_limit :
    (BitVec.ofNat 4 (Config.unit.retryLimit - 1) + 1#4).toNat = Config.unit.retryLimit ∧
    (15#4 + 1#4).toNat ≠ Config.unit.retryLimit := by
  have h1 := retryLimit_pos Config.unit
  have h2 := retryLimit_le Config.unit
  constructor
  · rw [BitVec.toNat_add]
    simp only [BitVec.toNat_ofNat]
    omega
  · exact fun h => absurd (h ▸ h1) (by decide)

theorem witness_RxFrameFieldBytes :
    (rxIn .seq).fault = .none ∧ (rxIn .seq).rx.phase = .seq ∧ (rxIn .cmp).rx.phase = .cmp ∧
    (rxIn .crch).rx.phase = .crch := by decide

/-- The first byte of a payload, and the last one of a large payload. -/
theorem witness_RxPayloadByteIsStored :
    let s := withRx { mid.rx with big := true, cnt := 1023#11 }
    mid.fault = .none ∧ mid.rx.phase = .data ∧ mid.rx.cnt.toNat < 1024 ∧ Buf.wf mid.rx.buf = true ∧
    s.fault = .none ∧ s.rx.phase = .data ∧ s.rx.cnt.toNat < 1024 ∧ Buf.wf s.rx.buf = true := by decide

/-- One block for each of the three checks. -/
theorem witness_RxRejectsBadBlock :
    let r := atLastByte true
    (withRx r).fault = .none ∧ r.phase = .crcl ∧
    ({ r with cmpb := 0xFE#8 } : Rx).seqb.toNat + ({ r with cmpb := 0xFE#8 } : Rx).cmpb.toNat ≠ 255 ∧
    r.seqb.toNat + r.cmpb.toNat = 255 ∧ ({ r with exp := 1#8 } : Rx).seqb ≠ ({ r with exp := 1#8 } : Rx).exp ∧
    r.seqb = r.exp ∧ r.crc ≠ (r.crch.setWidth 16 <<< 8) ||| (0x94#8 : Byte).setWidth 16 := by decide

theorem witness_RxAcceptsHeaderBlock_null :
    let s := withRx { Rx.reset with phase := .crcl, cmpb := 0xFF#8, cnt := 128#11 }
    s.fault = .none ∧ s.rx.phase = .crcl ∧ BlockIsValid s.rx 0x00#8 ∧ s.rx.hdr = false ∧
    ∀ b ∈ firstBytes s.rx.buf (if s.rx.big then 1024 else 128), b = 0x00#8 :=
  ⟨rfl, rfl, ⟨by decide, by decide, by decide⟩, rfl, by decide⟩

theorem witness_RxAcceptsHeaderBlock :
    let s := withRx (atLastByte false)
    s.fault = .none ∧ s.rx.phase = .crcl ∧ BlockIsValid s.rx 0x95#8 ∧ s.rx.hdr = false ∧
    ∃ b ∈ firstBytes s.rx.buf (if s.rx.big then 1024 else 128), b ≠ 0x00#8 :=
  ⟨rfl, rfl, ⟨by decide, by decide, by decide⟩, rfl, by decide⟩

theorem witness_RxAcceptsDataBlock :
    let s := withRx (atLastByte true)
    s.fault = .none ∧ s.rx.phase = .crcl ∧ BlockIsValid s.rx 0x95#8 ∧ s.rx.hdr = true :=
  ⟨rfl, rfl, ⟨by decide, by decide, by decide⟩, rfl⟩

theorem witness_RxTimeoutOperation :
    mid.fault = .none ∧ mid.rx.phase = .data ∧ (rxIn .idle).rx.phase = .idle ∧ (rxIn .purge).rx.phase = .purge ∧
    (rxIn .lead).rx.phase = .lead ∧ (rxIn .crcl).rx.phase = .crcl := by decide

theorem witness_RxAbortOperation :
    mid.fault = .none ∧ ¬ (mid.rx.phase = .idle ∨ mid.rx.phase = .done ∨ mid.rx.phase = .failed) ∧
    (rxIn .done).rx.phase = .done := by decide

theorem witness_RxStatusOperation : mid.fault = .none := rfl

theorem witness_TxOpenOperation : mid.fault = .none := rfl

/-- A full buffer, an empty one and one with a single place left. -/
theorem witness_TxLoadOperation :
    mid.fault = .none ∧ Buf.wf mid.tx.buf = true ∧ (withTx { mid.tx with len := 1024#11 }).tx.len.toNat = 1024 ∧
    (withTx { mid.tx with len := 1023#11 }).tx.len.toNat < 1024 ∧ State.reset.tx.len.toNat < 1024 := by decide

theorem witness_TxSendHdrOperation :
    mid.fault = .none ∧ (txIn .idle).tx.phase ≠ .ready ∧ mid.tx.phase = .ready ∧
    (withTx { mid.tx with len := 129#11 }).tx.len.toNat > 128 ∧
    (withTx { mid.tx with len := 128#11 }).tx.len.toNat ≤ 128 := by decide

theorem witness_TxSendDataOperation :
    mid.fault = .none ∧ (txIn .waitAck).tx.phase ≠ .ready ∧ mid.tx.phase = .ready ∧
    (withTx { mid.tx with len := 1024#11 }).tx.len.toNat ≤ 1024 := by decide

theorem witness_TxSendEotOperation : mid.fault = .none ∧ (txIn .done).tx.phase ≠ .ready ∧ mid.tx.phase = .ready := by
  decide

theorem witness_TxRespDispatch :
    mid.fault = .none ∧ (txIn .idle).tx.phase = .idle ∧ (txIn .done).tx.phase = .done ∧
    (txIn .failed).tx.phase = .failed ∧ mid.tx.phase = .ready := by decide

theorem witness_TxRespCanCancels :
    let s := withTx { Tx.reset with phase := .waitEot, canc := 1#2 }
    s.fault = .none ∧ s.tx.phase = .waitEot ∧ s.tx.canc = 1#2 ∧ (txIn .waitC).tx.phase = .waitC ∧
    (txIn .waitC).tx.canc = 0#2 ∧ (txIn .waitAck).tx.phase = .waitAck := by decide

theorem witness_TxRespInWaitC :
    (txIn .waitC).fault = .none ∧ (txIn .waitC).tx.phase = .waitC ∧ (0x43#8 : Byte) ≠ 0x18#8 ∧
    (0x06#8 : Byte) ≠ 0x43#8 ∧ (0x06#8 : Byte) ≠ 0x18#8 := by decide

theorem witness_TxRespInWaitAck :
    (txIn .waitAck).fault = .none ∧ (txIn .waitAck).tx.phase = .waitAck ∧ (0x06#8 : Byte) ≠ 0x18#8 ∧
    (0x15#8 : Byte) ≠ 0x18#8 ∧ (0x43#8 : Byte) ≠ 0x18#8 ∧ (0x43#8 : Byte) ≠ 0x06#8 ∧ (0x43#8 : Byte) ≠ 0x15#8 := by
  decide

/-- EOT was sent and awaits its answer. -/
def eotSent : State := withTx { Tx.reset with phase := .waitEot, kind := .eot, frame := [0x04#8] }

theorem eotSent_txInv : TxInv Config.unit eotSent.tx := by
  constructor <;> simp [eotSent, withTx, Tx.reset] <;> decide

theorem witness_TxRespInWaitEot :
    eotSent.fault = .none ∧ eotSent.tx.phase = .waitEot ∧ (0x06#8 : Byte) ≠ 0x18#8 ∧ (0x15#8 : Byte) ≠ 0x18#8 ∧
    (0x15#8 : Byte) ≠ 0x06#8 ∧ TxInv Config.unit eotSent.tx :=
  ⟨rfl, rfl, by decide, by decide, by decide, eotSent_txInv⟩

theorem witness_TxTimeoutOperation :
    mid.fault = .none ∧ mid.tx.phase = .ready ∧ (txIn .waitC).tx.phase = .waitC ∧
    (txIn .waitAck).tx.phase = .waitAck ∧ eotSent.tx.phase = .waitEot ∧ TxInv Config.unit eotSent.tx :=
  ⟨rfl, rfl, rfl, rfl, rfl, eotSent_txInv⟩

theorem witness_TxAbortOperation :
    mid.fault = .none ∧ mid.tx.phase = .ready ∧ (txIn .waitEot).tx.phase = .waitEot ∧
    (txIn .failed).tx.phase = .failed := by decide

theorem witness_TxStatusOperation : mid.fault = .none := rfl

theorem witness_StepRunsDecodedOperation :
    (issued 0x1131#16).port = 0x1131#16 :: [] ∧ decode 0x1131#16 = .ok (.crcByte 0x31#8) ∧ State.reset.port = [] ∧
    decode 0x0300#16 = .error (.reservedOp 0x03#8) ∧ decode 0xFFFF#16 = .error (.reservedOp 0xFF#8) ∧
    decode 0x12FF#16 = .error (.nonzeroImm 0x12#8 0xFF#8) ∧ (issued 0x0300#16).port = 0x0300#16 :: [] ∧
    (issued 0x0300#16).fault = .none ∧ ({ issued 0x0300#16 with fault := .txNotReady } : State).fault ≠ .none :=
  ⟨rfl, rfl, rfl, rfl, rfl, rfl, rfl, rfl, by decide⟩

theorem witness_DecodeEncodeAgree :
    (Instr.txLoad 0xFF#8).wellFormed = true ∧ decode 0x43FF#16 = .ok (.txLoad 0xFF#8) := ⟨rfl, rfl⟩

theorem witness_LatchedFaultStopsTheUnit :
    (faulted .illegalOp).fault ≠ .none ∧ Instr.reset ∉ [Instr.crcRead, .lfByte 0x41#8, .getFault] := by decide

/-- A step that raises a fault, and one the latch refuses. -/
theorem witness_FaultsArePrecise :
    step (issued 0x0300#16) = .next { State.reset with fault := .illegalOp, res := Res.faulted } ∧
    (issued 0x0300#16).port = 0x0300#16 :: [] ∧
    step { issued 0x1200#16 with fault := .txNotReady } = .next { faulted .txNotReady with res := Res.faulted } ∧
    ({ State.reset with res := Res.faulted } : State).res.st = .faulted := ⟨rfl, rfl, rfl, rfl⟩

/-- A step into each of the five faults from a state without one. -/
theorem witness_FaultsAreRaisedAsTheTableSays :
    step (issued 0xFFFF#16) = .next { faulted .illegalOp with res := Res.faulted } ∧
    step { fullLine with port := [0x2041#16] } = .next { fullLine with fault := .lineOverflow, res := Res.faulted } ∧
    step { withTx { mid.tx with len := 1024#11 } with port := [0x4341#16] } =
      .next { withTx { mid.tx with len := 1024#11 } with fault := .txBufferFull, res := Res.faulted } ∧
    step { withTx { mid.tx with len := 129#11 } with port := [0x4400#16] } =
      .next { withTx { mid.tx with len := 129#11 } with fault := .txHeaderTooLong, res := Res.faulted } ∧
    step (issued 0x4600#16) = .next { faulted .txNotReady with res := Res.faulted } := by
  refine ⟨rfl, ?_, rfl, rfl, rfl⟩
  rw [step_of_decode_ok (w := 0x2041#16) (i := .lfByte 0x41#8) rfl rfl]
  show exec (.lfByte 0x41#8) fullLine = _
  rw [exec_lfByte _ rfl, lfByte, if_neg (by decide), if_pos (by simp [fullLine])]
  rfl

/-- Both stops of the model, and a step that does not stop. -/
theorem witness_ExecStopsOnlyBeyondABuffer :
    exec (.rxByte 0x41#8) (withRx { mid.rx with cnt := 1024#11 }) = .fault .rxBufRange ∧
    exec (.txLoad 0x41#8) (withTx { mid.tx with len := 1025#11 }) = .fault .txBufRange ∧
    exec .txSendData (withTx { mid.tx with len := 1025#11 }) = .fault .txBufRange ∧
    ∃ t, exec (.rxByte 0x41#8) (withRx { mid.rx with cnt := 1023#11 }) = .next t := ⟨rfl, rfl, rfl, _, rfl⟩

/-- A state that meets the invariant, in the middle of both transfers. -/
theorem witness_StepKeepsInvariant : UnitInv mid := by
  refine ⟨Nat.zero_le _, by decide, ?_, ?_⟩
  · constructor <;> simp [mid, Rx.reset, holdsPayload] <;> decide
  · constructor <;> simp [mid, Tx.reset] <;> decide

theorem witness_RxPhaseMovesAsTheTableSays :
    Instr.rxByte 0x01#8 ≠ .reset ∧
    exec (.rxByte 0x01#8) (rxIn .lead) = .next (withRx { Rx.reset with phase := .seq }) := ⟨by decide, rfl⟩

theorem witness_TxPhaseMovesAsTheTableSays :
    Instr.txSendEot ≠ .reset ∧ ∃ t, exec .txSendEot mid = .next t ∧ t.tx.phase = .waitEot := ⟨by decide, _, rfl, rfl⟩

theorem witness_BufferRestIsUnobservable : UnitInv mid ∧ SameVisible mid mid' ∧ mid ≠ mid' :=
  ⟨witness_StepKeepsInvariant, ⟨rfl, by decide, by decide, by decide, by decide⟩, by decide⟩

/-- An operation of each sub-unit that completes in the middle of both transfers. -/
theorem witness_SubUnitsAreIndependent :
    Instr.lfByte 0x0D#8 ≠ .reset ∧ Instr.lfByte 0x0D#8 ≠ .crcInit ∧ (∀ d, Instr.lfByte 0x0D#8 ≠ .crcByte d) ∧
    isSend (.lfByte 0x0D#8) = false ∧ subUnit (.lfByte 0x0D#8) ≠ .rx ∧ subUnit (.rxByte 0x41#8) ≠ .lf ∧
    subUnit (.rxByte 0x41#8) ≠ .tx ∧ subUnit .txSendEot ≠ .crc ∧
    (∃ t, exec (.lfByte 0x0D#8) mid = .next t) ∧ (∃ t, exec (.rxByte 0x41#8) mid = .next t) ∧
    (∃ t, exec .txSendEot mid = .next t) ∧ ∃ t, exec (.crcByte 0x41#8) mid = .next t :=
  ⟨by decide, by decide, fun _ => by simp, rfl, by decide, by decide, by decide, by decide, ⟨_, rfl⟩, ⟨_, rfl⟩,
    ⟨_, rfl⟩, _, rfl⟩

theorem witness_FrameIsResentBelowRetryLimit :
    UnitInv mid ∧ isSend .txSendEot = true ∧
    (∃ t, exec .txSendEot mid = .next t ∧ t.fault = .none) ∧
    ∀ i ∈ [Instr.txResp 0x15#8, .txTimeout, .txResp 0x06#8], isSend i = false :=
  ⟨witness_StepKeepsInvariant, rfl, ⟨_, rfl, rfl⟩, by decide⟩

theorem witness_WellFormedDataFrameIsAccepted :
    let s := withRx { Rx.reset with phase := .lead, hdr := true, exp := 0xFF#8, buf := [(1023, 0x01#8)] }
    s.fault = .none ∧ s.rx.phase = .lead ∧ s.rx.hdr = true ∧ Buf.wf s.rx.buf = true ∧
    (List.replicate 128 0x1A#8).length = 128 ∧ (List.replicate 1024 0x1A#8).length = 1024 :=
  ⟨rfl, rfl, rfl, rfl, List.length_replicate, List.length_replicate⟩

theorem witness_WrongSequenceFrameIsRefused :
    (rxIn .lead).fault = .none ∧ (rxIn .lead).rx.phase = .lead ∧ (0xFF#8 : Byte) ≠ (rxIn .lead).rx.exp ∧
    (List.replicate 128 0x1A#8).length = 128 ∧ (List.replicate 1024 0x1A#8).length = 1024 :=
  ⟨rfl, rfl, by decide, List.length_replicate, List.length_replicate⟩

theorem witness_SentDataBlockIsReceived :
    let s := withTx readyHi
    let u := withRx { Rx.reset with phase := .lead, hdr := true, exp := 0xFF#8 }
    s.fault = .none ∧ s.tx.phase = .ready ∧ s.tx.len.toNat ≤ 1024 ∧ u.fault = .none ∧ u.rx.phase = .lead ∧
    u.rx.hdr = true ∧ Buf.wf u.rx.buf = true ∧ u.rx.exp = s.tx.seq := by decide

/-- A state during a transfer and one after it, with room in LBUF. -/
theorem witness_HandOffConsumesEachByteOnce :
    UnitInv mid ∧ mid.fault = .none ∧ receiveActive mid = true ∧ mid.lbuf.length < Config.unit.lineMax ∧
    UnitInv (rxIn .done) ∧ receiveActive (rxIn .done) = false ∧ (rxIn .done).lbuf.length < Config.unit.lineMax := by
  refine ⟨witness_StepKeepsInvariant, rfl, rfl, lineMax_pos _, ⟨Nat.zero_le _, by decide, ?_, ?_⟩, rfl, lineMax_pos _⟩
  · constructor <;> simp [rxIn, withRx, Rx.reset, holdsPayload] <;> decide
  · constructor <;> simp [rxIn, withRx, State.reset, Tx.reset] <;> decide

end Sys2Proof.Tests
end

