-- ==== Sys2Proof/Proofs/RxInvariant.lean ====
section
/-! PROOFS. The invariant of the RX unit: what it says of a live phase, how a state that meets it is made, and that
every RX rule keeps it. -/

namespace Sys2Proof.Safety

open Sys2Proof.Machine

variable {c : Config}

/-- A consecutive counter at 0 or 1 counts up without a wrap (R32, R40). -/
theorem toNat_succ_of_le_one {n : BitVec 2} (h : n.toNat ≤ 1) : (n + 1#2).toNat = n.toNat + 1 := by
  rw [BitVec.toNat_add]
  simp only [BitVec.toNat_ofNat]
  omega

/-- A buffer index inside the capacity counts up without a wrap (R30, R37). -/
theorem toNat_succ_of_lt_capacity {n : BitVec 11} (h : n.toNat < 1024) : (n + 1#11).toNat = n.toNat + 1 := by
  rw [BitVec.toNat_add]
  simp only [BitVec.toNat_ofNat]
  omega

/-! ## What the two counting lead bytes can do -/

/-- All a lead byte EOT (R156) can do. -/
theorem rxLeadEot_eq (s : State) :
    rxLeadEot s =
      if (s.rx.eotc + 1#2).toNat = 2 then
        { s with rx := { s.rx with eotc := s.rx.eotc + 1#2, phase := .done },
                 res := { s.res with tx := s.res.tx ++ [ACK], ev := s.res.ev ++ [.rxDone] } }
      else
        { s with rx := { s.rx with eotc := s.rx.eotc + 1#2 }, res := { s.res with tx := s.res.tx ++ [NAK] } } := rfl

/-- All a lead byte CAN (R157) can do. -/
theorem rxLeadCan_eq (s : State) :
    rxLeadCan s =
      if (s.rx.canc + 1#2).toNat = 2 then
        { s with rx := { s.rx with canc := s.rx.canc + 1#2, phase := .failed, err := .remoteCancelled },
                 res := { s.res with tx := s.res.tx ++ [ACK], ev := s.res.ev ++ [.rxFailed .remoteCancelled] } }
      else
        { s with rx := { s.rx with canc := s.rx.canc + 1#2 }, res := { s.res with tx := s.res.tx ++ [ACK] } } := rfl

/-! ## What the invariant says, part by part -/

/-- The codes RX_ERR never holds outside phase FAILED (R34). -/
abbrev NoFailure (e : ErrCode) : Prop :=
  e ≠ .retryLimitExceeded ∧ e ≠ .remoteCancelled ∧ e ≠ .aborted ∧ e ≠ .attemptsExhausted

theorem noFailure_none : NoFailure .none := by decide

/-- The counters and RX_ERR while a transfer has neither ended nor failed. -/
structure RxLive (c : Config) (retry : BitVec 4) (eotc canc : BitVec 2) (err : ErrCode) : Prop where
  retry : retry.toNat < c.retryLimit
  eotc : eotc.toNat ≤ 1
  canc : canc.toNat ≤ 1
  err : NoFailure err

/-- The payload clauses of `RxInv`: what RX_CNT and RX_CRC hold in each phase. -/
structure RxPayload (r : Rx) : Prop where
  data : r.phase = .data → r.cnt.toNat < r.size
  full : r.phase = .crch ∨ r.phase = .crcl → r.cnt.toNat = r.size
  crc : holdsPayload r.phase → r.crc = crc16 (Buf.slice r.buf 0 r.cnt.toNat)
  empty : ¬ holdsPayload r.phase → r.cnt = 0#11

theorem RxInv.live {r : Rx} (h : RxInv c r) (hd : r.phase ≠ .done) (hf : r.phase ≠ .failed) :
    RxLive c r.retry r.eotc r.canc r.err where
  retry := Nat.lt_of_le_of_ne h.retry fun e => hf (h.retryLimit e)
  eotc := Nat.le_of_lt_succ (Nat.lt_of_le_of_ne h.eotc fun e => hd (h.eotcTwo e))
  canc := Nat.le_of_lt_succ (Nat.lt_of_le_of_ne h.canc fun e => hf (h.cancTwo e))
  err := h.errActive hf

/-- Outside the payload phases only RX_CNT = 0 is asked. -/
theorem RxPayload.of_empty {r : Rx} (hp : ¬ holdsPayload r.phase) (hcnt : r.cnt = 0#11) : RxPayload r where
  data e := absurd (.inl e) hp
  full e := absurd (.inr e) hp
  crc e := absurd e hp
  empty _ := hcnt

/-- How a state in a live phase meets the invariant. -/
theorem RxInv.of_live {r : Rx} (hbuf : Buf.wf r.buf = true) (hpay : RxPayload r)
    (hl : RxLive c r.retry r.eotc r.canc r.err) (hi : r.phase ≠ .idle) (hf : r.phase ≠ .failed) : RxInv c r where
  buf := hbuf
  data := hpay.data
  full := hpay.full
  crc := hpay.crc
  empty := hpay.empty
  retry := hl.retry.le
  retryLimit e := absurd e hl.retry.ne
  eotc := hl.eotc.trans (by decide)
  eotcTwo e := absurd (e ▸ hl.eotc) (by decide)
  canc := hl.canc.trans (by decide)
  cancTwo e := absurd (e ▸ hl.canc) (by decide)
  errFailed e := absurd e hf
  errActive _ := hl.err
  errIdle e := absurd e hi

/-- How a state in phase DONE meets the invariant: the second EOT has been counted or not (R156, R163). -/
theorem RxInv.of_done {r : Rx} (hbuf : Buf.wf r.buf = true) (hcnt : r.cnt = 0#11) (hp : r.phase = .done)
    (hretry : r.retry.toNat < c.retryLimit) (heotc : r.eotc.toNat ≤ 2) (hcanc : r.canc.toNat ≤ 1)
    (herr : NoFailure r.err) : RxInv c r :=
  have hpay : RxPayload r := .of_empty (by simp [hp, holdsPayload]) hcnt
  { buf := hbuf
    data := hpay.data
    full := hpay.full
    crc := hpay.crc
    empty := hpay.empty
    retry := hretry.le
    retryLimit := fun e => absurd e hretry.ne
    eotc := heotc
    eotcTwo := fun _ => hp
    canc := hcanc.trans (by decide)
    cancTwo := fun e => absurd (e ▸ hcanc) (by decide)
    errFailed := fun e => absurd (hp.symm.trans e) (by decide)
    errActive := fun _ => herr
    errIdle := fun e => absurd (hp.symm.trans e) (by decide) }

/-- How a state in phase FAILED meets the invariant: the counter that failed the transfer stands at its limit. -/
theorem RxInv.of_failed {r : Rx} (hbuf : Buf.wf r.buf = true) (hcnt : r.cnt = 0#11) (hp : r.phase = .failed)
    (hretry : r.retry.toNat ≤ c.retryLimit) (heotc : r.eotc.toNat ≤ 1) (hcanc : r.canc.toNat ≤ 2)
    (herr : r.err = .retryLimitExceeded ∨ r.err = .remoteCancelled ∨ r.err = .aborted) : RxInv c r :=
  have hpay : RxPayload r := .of_empty (by simp [hp, holdsPayload]) hcnt
  { buf := hbuf
    data := hpay.data
    full := hpay.full
    crc := hpay.crc
    empty := hpay.empty
    retry := hretry
    retryLimit := fun _ => hp
    eotc := heotc.trans (by decide)
    eotcTwo := fun e => absurd (e ▸ heotc) (by decide)
    canc := hcanc
    cancTwo := fun _ => hp
    errFailed := fun _ => herr
    errActive := fun e => absurd hp e
    errIdle := fun e => absurd (hp.symm.trans e) (by decide) }

/-! ## Every RX rule keeps it -/

theorem RxInv.reset : RxInv c Rx.reset where
  buf := rfl
  data := by simp [Rx.reset]
  full := by simp [Rx.reset]
  crc := by simp [Rx.reset, holdsPayload]
  empty _ := rfl
  retry := Nat.zero_le _
  retryLimit e := absurd e (Nat.ne_of_lt (retryLimit_pos c))
  eotc := by decide
  eotcTwo e := absurd e (by decide)
  canc := by decide
  cancTwo e := absurd e (by decide)
  errFailed e := absurd e (by decide)
  errActive _ := by decide
  errIdle _ := rfl

/-- RX_START (R151). -/
theorem RxInv.after_start {r : Rx} (h : RxInv c r) : RxInv c r.started :=
  .of_live h.buf (.of_empty (by simp [Rx.started, holdsPayload]) rfl)
    ⟨retryLimit_pos c, Nat.zero_le _, Nat.zero_le _, noFailure_none⟩ (by simp [Rx.started]) (by simp [Rx.started])

/-- The consecutive counters of a live transfer may be replaced by smaller ones (R154, R167). -/
theorem RxInv.replace_counters {r : Rx} (h : RxInv c r) (hi : r.phase ≠ .idle) (hd : r.phase ≠ .done)
    (hf : r.phase ≠ .failed) {e k : BitVec 2} (he : e.toNat ≤ 1) (hk : k.toNat ≤ 1) :
    RxInv c { r with eotc := e, canc := k } :=
  have hl := h.live hd hf
  .of_live h.buf ⟨h.data, h.full, h.crc, h.empty⟩ ⟨hl.retry, he, hk, hl.err⟩ hi hf

/-- The NAK path (R165) of a live transfer. -/
theorem RxInv.after_nakPath {s : State} {reason : ErrCode} (h : RxInv c s.rx) (hd : s.rx.phase ≠ .done)
    (hf : s.rx.phase ≠ .failed) (hr : NoFailure reason) : RxInv c (nakPath c reason s).rx := by
  have hl := h.live hd hf
  have hs := toNat_succ_of_lt_retryLimit hl.retry
  have hlt := hl.retry
  rw [nakPath_eq]
  split
  · next he => exact .of_failed h.buf rfl rfl he.le hl.eotc (hl.canc.trans (by decide)) (.inl rfl)
  · next hne =>
    have hretry : (s.rx.retry + 1#4).toNat < c.retryLimit := by omega
    exact .of_live h.buf (.of_empty (by simp [holdsPayload]) rfl) ⟨hretry, hl.eotc, hl.canc, hr⟩ (by simp) (by simp)

/-- The counters of a lead byte (R154). -/
theorem RxInv.after_rxCountLead {s : State} (h : RxInv c s.rx) (hp : s.rx.phase = .lead) (d : Byte) :
    RxInv c (rxCountLead d s).rx := by
  have hl := h.live (by simp [hp]) (by simp [hp])
  refine h.replace_counters (by simp [hp]) (by simp [hp]) (by simp [hp]) ?_ ?_
  · split
    · exact hl.eotc
    · decide
  · split
    · exact hl.canc
    · decide

/-- A lead byte that opens a block (R155). -/
theorem RxInv.after_rxOpenBlock {s : State} (h : RxInv c s.rx) (hp : s.rx.phase = .lead) (big : Bool) :
    RxInv c (rxOpenBlock big s).rx := by
  have hl := h.live (by simp [hp]) (by simp [hp])
  have hcnt : s.rx.cnt = 0#11 := h.empty (by simp [hp, holdsPayload])
  exact .of_live h.buf (.of_empty (by simp [rxOpenBlock, holdsPayload]) hcnt) hl (by simp [rxOpenBlock])
    (by simp [rxOpenBlock])

/-- The first EOT stays in LEAD, the second ends the transfer (R156). -/
theorem RxInv.after_rxLeadEot {s : State} (h : RxInv c s.rx) (hp : s.rx.phase = .lead) : RxInv c (rxLeadEot s).rx := by
  have hl := h.live (by simp [hp]) (by simp [hp])
  have hcnt : s.rx.cnt = 0#11 := h.empty (by simp [hp, holdsPayload])
  have hs := toNat_succ_of_le_one hl.eotc
  have hle := hl.eotc
  rw [rxLeadEot_eq]
  split
  · next he => exact .of_done h.buf hcnt rfl hl.retry he.le hl.canc hl.err
  · next hne =>
    have heotc : (s.rx.eotc + 1#2).toNat ≤ 1 := by omega
    exact .of_live h.buf (.of_empty (by simp [hp, holdsPayload]) hcnt) ⟨hl.retry, heotc, hl.canc, hl.err⟩
      (by simp [hp]) (by simp [hp])

/-- The first CAN stays in LEAD, the second cancels the transfer (R157). -/
theorem RxInv.after_rxLeadCan {s : State} (h : RxInv c s.rx) (hp : s.rx.phase = .lead) : RxInv c (rxLeadCan s).rx := by
  have hl := h.live (by simp [hp]) (by simp [hp])
  have hcnt : s.rx.cnt = 0#11 := h.empty (by simp [hp, holdsPayload])
  have hs := toNat_succ_of_le_one hl.canc
  have hle := hl.canc
  rw [rxLeadCan_eq]
  split
  · next he => exact .of_failed h.buf hcnt rfl hl.retry.le hl.eotc he.le (.inr (.inl rfl))
  · next hne =>
    have hcanc : (s.rx.canc + 1#2).toNat ≤ 1 := by omega
    exact .of_live h.buf (.of_empty (by simp [hp, holdsPayload]) hcnt) ⟨hl.retry, hl.eotc, hcanc, hl.err⟩
      (by simp [hp]) (by simp [hp])

/-- A byte in phase LEAD (R152). -/
theorem RxInv.after_rxLead {s : State} (h : RxInv c s.rx) (hp : s.rx.phase = .lead) (d : Byte) :
    RxInv c (rxLead c d s).rx := by
  have hc := h.after_rxCountLead hp d
  have hpc : (rxCountLead d s).rx.phase = .lead := hp
  simp only [rxLead]
  cases leadByte d with
  | soh => exact hc.after_rxOpenBlock hpc false
  | stx => exact hc.after_rxOpenBlock hpc true
  | eot => exact hc.after_rxLeadEot hpc
  | can => exact hc.after_rxLeadCan hpc
  | other => exact hc.after_nakPath (by simp [hpc]) (by simp [hpc]) (by decide)

/-- The sequence byte (R159). -/
theorem RxInv.after_rxSeq {s : State} (h : RxInv c s.rx) (hp : s.rx.phase = .seq) (d : Byte) :
    RxInv c (rxSeq d s).rx := by
  have hl := h.live (by simp [hp]) (by simp [hp])
  have hcnt : s.rx.cnt = 0#11 := h.empty (by simp [hp, holdsPayload])
  exact .of_live h.buf (.of_empty (by simp [rxSeq, holdsPayload]) hcnt) hl (by simp [rxSeq]) (by simp [rxSeq])

/-- The complement byte opens the payload: nothing is received yet, and the CRC of nothing is its initial value
(R159, R31). -/
theorem RxInv.after_rxCmp {s : State} (h : RxInv c s.rx) (hp : s.rx.phase = .cmp) (d : Byte) :
    RxInv c (rxCmp d s).rx := by
  have hl := h.live (by simp [hp]) (by simp [hp])
  refine .of_live h.buf ⟨fun _ => Rx.size_pos _, ?_, fun _ => rfl, fun _ => rfl⟩ hl ?_ ?_ <;> simp [rxCmp]

/-- A payload byte (R160): it finds room in RX_BUF, and RX_CRC follows the payload. -/
theorem rxData_keeps_rxInv {s : State} (h : RxInv c s.rx) (hp : s.rx.phase = .data) (d : Byte) :
    ∃ t, rxData d s = .next t ∧ RxInv c t.rx := by
  have hl := h.live (by simp [hp]) (by simp [hp])
  have hlt : s.rx.cnt.toNat < s.rx.size := h.data hp
  have hcap : s.rx.cnt.toNat < 1024 := hlt.trans_le (Rx.size_le _)
  have hs := toNat_succ_of_lt_capacity hcap
  have hcrc : crcStep s.rx.crc d =
      crc16 (Buf.slice (Buf.write s.rx.buf s.rx.cnt.toNat d) 0 (s.rx.cnt + 1#11).toNat) := by
    rw [hs, Buf.slice_write_end h.buf, crc16_append_single, h.crc (.inl hp)]
  refine ⟨_, by rw [rxData_eq, if_pos hcap], ?_⟩
  refine .of_live (Buf.write_wf h.buf hcap d) ?_ hl ?_ ?_
  · by_cases he : s.rx.cnt.toNat + 1 = s.rx.size
    · exact ⟨by simp [he], fun _ => hs.trans he, fun _ => hcrc, by simp [he, holdsPayload]⟩
    · have hroom : (s.rx.cnt + 1#11).toNat < s.rx.size := by omega
      exact ⟨fun _ => hroom, by simp [he, hp], fun _ => hcrc, by simp [he, hp, holdsPayload]⟩
  · simp only
    split <;> simp [hp]
  · simp only
    split <;> simp [hp]

/-- The high CRC byte (R161): the payload stays whole. -/
theorem RxInv.after_rxCrch {s : State} (h : RxInv c s.rx) (hp : s.rx.phase = .crch) (d : Byte) :
    RxInv c (rxCrch d s).rx := by
  have hl := h.live (by simp [hp]) (by simp [hp])
  refine .of_live h.buf ⟨?_, fun _ => h.full (.inl hp), fun _ => h.crc (.inr (.inl hp)), ?_⟩ hl ?_ ?_
  all_goals simp [rxCrch, holdsPayload]

/-- An accepted header block (R163). -/
theorem RxInv.after_rxHeader {s : State} (h : RxInv c s.rx) (hl : RxLive c s.rx.retry s.rx.eotc s.rx.canc s.rx.err)
    (p : List Byte) : RxInv c (rxHeader c p s).rx := by
  have hdone : RxInv c { s.rx with cnt := 0#11, retry := 0#4, err := .none, phase := .done } :=
    .of_done h.buf rfl rfl (retryLimit_pos c) (hl.eotc.trans (by decide)) hl.canc noFailure_none
  unfold rxHeader
  simp only
  split
  · cases c.nullHeaderAck <;> exact hdone
  · exact .of_live h.buf (.of_empty (by simp [holdsPayload]) rfl)
      ⟨retryLimit_pos c, hl.eotc, hl.canc, noFailure_none⟩ (by simp) (by simp)

/-- An accepted data block (R164). -/
theorem RxInv.after_rxDataBlock {s : State} (h : RxInv c s.rx) (hl : RxLive c s.rx.retry s.rx.eotc s.rx.canc s.rx.err)
    (p : List Byte) : RxInv c (rxDataBlock p s).rx :=
  .of_live h.buf (.of_empty (by simp [rxDataBlock, holdsPayload]) rfl)
    ⟨retryLimit_pos c, hl.eotc, hl.canc, noFailure_none⟩ (by simp [rxDataBlock]) (by simp [rxDataBlock])

/-- The last CRC byte (R162), by the first check that fails. -/
theorem rxCrcl_keeps_rxInv {s : State} (h : RxInv c s.rx) (hp : s.rx.phase = .crcl) (d : Byte) :
    ∃ t, rxCrcl c d s = .next t ∧ RxInv c t.rx := by
  have hd : s.rx.phase ≠ .done := by simp [hp]
  have hf : s.rx.phase ≠ .failed := by simp [hp]
  have hl := h.live hd hf
  rcases rxCrcl_cases c d s with ⟨-, e⟩ | ⟨-, -, e⟩ | ⟨-, -, -, e⟩ | ⟨-, e⟩
  · exact ⟨_, e, h.after_nakPath hd hf (by decide)⟩
  · exact ⟨_, e, h.after_nakPath hd hf (by decide)⟩
  · exact ⟨_, e, h.after_nakPath hd hf (by decide)⟩
  · refine ⟨_, e, ?_⟩
    split
    · exact h.after_rxDataBlock hl _
    · exact h.after_rxHeader hl _

/-- RX_BYTE (R152) answers a next state in every phase, and keeps the invariant. -/
theorem rxByte_keeps_rxInv {s : State} (h : RxInv c s.rx) (d : Byte) :
    ∃ t, rxByte c d s = .next t ∧ RxInv c t.rx := by
  unfold rxByte
  cases hp : s.rx.phase with
  | idle => exact ⟨_, rfl, h⟩
  | lead => exact ⟨_, rfl, h.after_rxLead hp d⟩
  | seq => exact ⟨_, rfl, h.after_rxSeq hp d⟩
  | cmp => exact ⟨_, rfl, h.after_rxCmp hp d⟩
  | data => exact rxData_keeps_rxInv h hp d
  | crch => exact ⟨_, rfl, h.after_rxCrch hp d⟩
  | crcl => exact rxCrcl_keeps_rxInv h hp d
  | purge => exact ⟨_, rfl, h⟩
  | done => exact ⟨_, rfl, h⟩
  | failed => exact ⟨_, rfl, h⟩

/-- A timeout inside a block (R167). -/
theorem RxInv.timeout_in_block {s : State} (h : RxInv c s.rx) (hi : s.rx.phase ≠ .idle) (hd : s.rx.phase ≠ .done)
    (hf : s.rx.phase ≠ .failed) :
    RxInv c (nakPath c .timeout (s.setRx { s.rx with eotc := 0#2, canc := 0#2 })).rx :=
  RxInv.after_nakPath (s := s.setRx _) (h.replace_counters hi hd hf (by decide) (by decide)) hd hf (by decide)

/-- RX_TIMEOUT (R167). -/
theorem RxInv.after_rxTimeout {s : State} (h : RxInv c s.rx) : RxInv c (rxTimeout c s).rx := by
  unfold rxTimeout
  cases hp : s.rx.phase with
  | idle | done | failed => exact h
  | purge =>
    have hl := h.live (by simp [hp]) (by simp [hp])
    have hcnt : s.rx.cnt = 0#11 := h.empty (by simp [hp, holdsPayload])
    exact .of_live h.buf (.of_empty (by simp [holdsPayload]) hcnt) hl
      (by simp) (by simp)
  | lead | seq | cmp | data | crch | crcl =>
    exact h.timeout_in_block (by simp [hp]) (by simp [hp]) (by simp [hp])

/-- RX_ABORT (R169). -/
theorem RxInv.after_rxAbort {s : State} (h : RxInv c s.rx) : RxInv c (rxAbort s).rx := by
  unfold rxAbort
  cases hp : s.rx.phase with
  | idle | done | failed => exact h
  | lead | seq | cmp | data | crch | crcl | purge =>
    have hl := h.live (by simp [hp]) (by simp [hp])
    exact .of_failed h.buf rfl rfl hl.retry.le hl.eotc (hl.canc.trans (by decide)) (.inr (.inr rfl))

end Sys2Proof.Safety
end

