-- ==== Sys2Proof/Proofs/TxInvariant.lean ====
section
/-! PROOFS. The invariant of the TX unit, in the same order: its parts, how a state that meets it is made, and that
every TX rule keeps it. -/

namespace Sys2Proof.Safety

open Sys2Proof.Machine

variable {c : Config}

/-- All a CAN response (R212) can do. -/
theorem txCan_eq (s : State) :
    txCan s =
      if (s.tx.canc + 1#2).toNat = 2 then
        { s with tx := { s.tx with canc := s.tx.canc + 1#2, phase := .failed, err := .remoteCancelled },
                 res := { s.res with ev := s.res.ev ++ [.txFailed .remoteCancelled] } }
      else { s with tx := { s.tx with canc := s.tx.canc + 1#2 } } := rfl

/-! ## What the invariant says, part by part -/

/-- The counters and TX_ERR while a transfer has not failed. -/
structure TxLive (c : Config) (retry attempt : BitVec 4) (canc : BitVec 2) (err : ErrCode) : Prop where
  retry : retry.toNat < c.retryLimit
  attempt : attempt.toNat < c.retryLimit
  canc : canc.toNat ≤ 1
  err : err = .none

/-- The frame clauses of `TxInv`: TX_FRAME is a frame of the kind TX_KIND says, and of the kind the phase awaits an
answer to (R38). -/
structure TxFrameFits (phase : TxPhase) (kind : TxKind) (frame : List Byte) : Prop where
  kindNone : kind = .none → frame = []
  kindHdr : kind = .hdr → frame.length = 133
  kindData : kind = .data → frame.length = 1029
  kindEot : kind = .eot → frame = [EOT]
  waitAck : phase = .waitAck → kind = .hdr ∨ kind = .data
  waitEot : phase = .waitEot → kind = .eot

theorem TxInv.live {t : Tx} (h : TxInv c t) (hf : t.phase ≠ .failed) : TxLive c t.retry t.attempt t.canc t.err where
  retry := Nat.lt_of_le_of_ne h.retry fun e => hf (h.retryLimit e)
  attempt := Nat.lt_of_le_of_ne h.attempt fun e => hf (h.attemptLimit e)
  canc := Nat.le_of_lt_succ (Nat.lt_of_le_of_ne h.canc fun e => hf (h.cancTwo e))
  err := h.errActive hf

theorem TxInv.frameFits {t : Tx} (h : TxInv c t) : TxFrameFits t.phase t.kind t.frame :=
  ⟨h.kindNone, h.kindHdr, h.kindData, h.kindEot, h.waitAck, h.waitEot⟩

/-- The frame still fits in a phase that awaits no answer. -/
theorem TxFrameFits.leave_wait {p p' : TxPhase} {k : TxKind} {f : List Byte} (h : TxFrameFits p k f)
    (ha : p' ≠ .waitAck) (he : p' ≠ .waitEot) : TxFrameFits p' k f where
  kindNone := h.kindNone
  kindHdr := h.kindHdr
  kindData := h.kindData
  kindEot := h.kindEot
  waitAck e := absurd e ha
  waitEot e := absurd e he

/-- How a state in a phase other than FAILED meets the invariant. -/
theorem TxInv.of_live {t : Tx} (hbuf : Buf.wf t.buf = true) (hlen : t.len.toNat ≤ 1024)
    (hfr : TxFrameFits t.phase t.kind t.frame) (hl : TxLive c t.retry t.attempt t.canc t.err)
    (hf : t.phase ≠ .failed) : TxInv c t where
  buf := hbuf
  len := hlen
  retry := hl.retry.le
  retryLimit e := absurd e hl.retry.ne
  attempt := hl.attempt.le
  attemptLimit e := absurd e hl.attempt.ne
  canc := hl.canc.trans (by decide)
  cancTwo e := absurd (e ▸ hl.canc) (by decide)
  errFailed e := absurd e hf
  errActive _ := hl.err
  kindNone := hfr.kindNone
  kindHdr := hfr.kindHdr
  kindData := hfr.kindData
  kindEot := hfr.kindEot
  waitAck := hfr.waitAck
  waitEot := hfr.waitEot

/-- How a state in phase FAILED meets the invariant: the counter that failed the transfer stands at its limit. -/
theorem TxInv.of_failed {t : Tx} (hbuf : Buf.wf t.buf = true) (hlen : t.len.toNat ≤ 1024) {p : TxPhase}
    (hfr : TxFrameFits p t.kind t.frame) (hp : t.phase = .failed) (hretry : t.retry.toNat ≤ c.retryLimit)
    (hattempt : t.attempt.toNat ≤ c.retryLimit) (hcanc : t.canc.toNat ≤ 2)
    (herr : t.err = .retryLimitExceeded ∨ t.err = .remoteCancelled ∨ t.err = .aborted ∨
      t.err = .attemptsExhausted) : TxInv c t where
  buf := hbuf
  len := hlen
  retry := hretry
  retryLimit _ := hp
  attempt := hattempt
  attemptLimit _ := hp
  canc := hcanc
  cancTwo _ := hp
  errFailed _ := herr
  errActive e := absurd hp e
  kindNone := hfr.kindNone
  kindHdr := hfr.kindHdr
  kindData := hfr.kindData
  kindEot := hfr.kindEot
  waitAck e := absurd (hp.symm.trans e) (by decide)
  waitEot e := absurd (hp.symm.trans e) (by decide)

/-! ## Every TX rule keeps it -/

/-- A unit that has sent nothing awaits no answer. -/
theorem TxFrameFits.of_no_frame {p : TxPhase} (ha : p ≠ .waitAck) (he : p ≠ .waitEot) : TxFrameFits p .none [] where
  kindNone _ := rfl
  kindHdr e := absurd e (by decide)
  kindData e := absurd e (by decide)
  kindEot e := absurd e (by decide)
  waitAck e := absurd e ha
  waitEot e := absurd e he

theorem TxInv.reset : TxInv c Tx.reset :=
  .of_live rfl (Nat.zero_le _) (.of_no_frame (by decide) (by decide))
    ⟨retryLimit_pos c, retryLimit_pos c, Nat.zero_le _, rfl⟩ (by decide)

/-- TX_OPEN (R201). -/
theorem TxInv.after_open {t : Tx} (h : TxInv c t) : TxInv c t.opened :=
  .of_live h.buf (Nat.zero_le _) (.of_no_frame (by simp [Tx.opened]) (by simp [Tx.opened]))
    ⟨retryLimit_pos c, retryLimit_pos c, Nat.zero_le _, rfl⟩ (by simp [Tx.opened])

/-- A byte that is not CAN, or a timeout, ends a run of CAN bytes (R211, R218). -/
theorem TxInv.after_txClearCanc {s : State} (h : TxInv c s.tx) (hf : s.tx.phase ≠ .failed) :
    TxInv c (txClearCanc s).tx :=
  have hl := h.live hf
  .of_live h.buf h.len h.frameFits ⟨hl.retry, hl.attempt, Nat.zero_le _, hl.err⟩ hf

/-- `NoResolve` (R215). -/
theorem TxInv.after_txNoResolve {s : State} (h : TxInv c s.tx) (hf : s.tx.phase ≠ .failed) :
    TxInv c (txNoResolve c s).tx := by
  have hl := h.live hf
  have hs := toNat_succ_of_lt_retryLimit hl.attempt
  have hlt := hl.attempt
  rw [txNoResolve_eq]
  split
  · next he =>
    exact .of_failed h.buf h.len h.frameFits rfl hl.retry.le he.le
      (hl.canc.trans (by decide)) (.inr (.inr (.inr rfl)))
  · next hne =>
    have hattempt : (s.tx.attempt + 1#4).toNat < c.retryLimit := by omega
    exact .of_live h.buf h.len h.frameFits ⟨hl.retry, hattempt, hl.canc, hl.err⟩ hf

/-- The counted retry (R214, R216, R217). -/
theorem TxInv.after_txRetryOrFail {s : State} (h : TxInv c s.tx) (hf : s.tx.phase ≠ .failed) :
    TxInv c (txRetryOrFail c s).tx := by
  have hl := h.live hf
  have hs := toNat_succ_of_lt_retryLimit hl.retry
  have hlt := hl.retry
  rw [txRetryOrFail_eq]
  split
  · next he =>
    exact .of_failed h.buf h.len h.frameFits rfl he.le hl.attempt.le
      (hl.canc.trans (by decide)) (.inl rfl)
  · next hne =>
    have hretry : (s.tx.retry + 1#4).toNat < c.retryLimit := by omega
    exact .of_live h.buf h.len h.frameFits ⟨hretry, retryLimit_pos c, hl.canc, hl.err⟩ hf

/-- The first CAN stays in its phase, the second cancels the transfer (R212). -/
theorem TxInv.after_txCan {s : State} (h : TxInv c s.tx) (hf : s.tx.phase ≠ .failed) : TxInv c (txCan s).tx := by
  have hl := h.live hf
  have hs := toNat_succ_of_le_one hl.canc
  have hle := hl.canc
  rw [txCan_eq]
  split
  · next he =>
    exact .of_failed h.buf h.len h.frameFits rfl hl.retry.le hl.attempt.le he.le
      (.inr (.inl rfl))
  · next hne =>
    have hcanc : (s.tx.canc + 1#2).toNat ≤ 1 := by omega
    exact .of_live h.buf h.len h.frameFits ⟨hl.retry, hl.attempt, hcanc, hl.err⟩ hf

/-- A response in WAIT_C (R213). -/
theorem TxInv.after_txRespWaitC {s : State} (h : TxInv c s.tx) (hf : s.tx.phase ≠ .failed) (d : Byte) :
    TxInv c (txRespWaitC c d s).tx := by
  have hl := h.live hf
  unfold txRespWaitC
  cases respByte d with
  | handshake =>
    exact .of_live h.buf h.len (h.frameFits.leave_wait (by simp) (by simp))
      ⟨hl.retry, retryLimit_pos c, hl.canc, hl.err⟩ (by simp)
  | ack | nak | can | other => exact h.after_txNoResolve hf

/-- A response in WAIT_ACK (R214, R215). -/
theorem TxInv.after_txRespWaitAck {s : State} (h : TxInv c s.tx) (hf : s.tx.phase ≠ .failed) (d : Byte) :
    TxInv c (txRespWaitAck c d s).tx := by
  have hl := h.live hf
  unfold txRespWaitAck
  cases respByte d with
  | ack =>
    exact .of_live h.buf h.len (h.frameFits.leave_wait (by simp) (by simp))
      ⟨retryLimit_pos c, retryLimit_pos c, hl.canc, hl.err⟩ (by simp)
  | nak => exact h.after_txRetryOrFail hf
  | handshake | can | other => exact h.after_txNoResolve hf

/-- A response in WAIT_EOT (R216). -/
theorem TxInv.after_txRespWaitEot {s : State} (h : TxInv c s.tx) (hf : s.tx.phase ≠ .failed) (d : Byte) :
    TxInv c (txRespWaitEot c d s).tx := by
  have hl := h.live hf
  unfold txRespWaitEot
  cases respByte d with
  | ack => exact .of_live h.buf h.len (h.frameFits.leave_wait (by simp) (by simp)) hl (by simp)
  | handshake | nak | can | other => exact h.after_txRetryOrFail hf

/-- The split of a wait phase on CAN (R211). -/
theorem TxInv.after_can_or {s u : State} (h : TxInv c s.tx) (hf : s.tx.phase ≠ .failed) (hu : TxInv c u.tx)
    (d : Byte) : TxInv c (if d = CAN then txCan s else u).tx := by
  split
  · exact h.after_txCan hf
  · exact hu

/-- TX_RESP (R211). -/
theorem TxInv.after_txResp {s : State} (h : TxInv c s.tx) (d : Byte) : TxInv c (txResp c d s).tx := by
  unfold txResp
  cases hp : s.tx.phase with
  | idle | done | failed | ready => exact h
  | waitC =>
    have hf : s.tx.phase ≠ .failed := by simp [hp]
    exact h.after_can_or hf ((h.after_txClearCanc hf).after_txRespWaitC hf d) d
  | waitAck =>
    have hf : s.tx.phase ≠ .failed := by simp [hp]
    exact h.after_can_or hf ((h.after_txClearCanc hf).after_txRespWaitAck hf d) d
  | waitEot =>
    have hf : s.tx.phase ≠ .failed := by simp [hp]
    exact h.after_can_or hf ((h.after_txClearCanc hf).after_txRespWaitEot hf d) d

/-- TX_TIMEOUT (R218). -/
theorem TxInv.after_txTimeout {s : State} (h : TxInv c s.tx) : TxInv c (txTimeout c s).tx := by
  unfold txTimeout
  cases hp : s.tx.phase with
  | idle | ready | done | failed => exact h
  | waitC | waitAck =>
    have hf : s.tx.phase ≠ .failed := by simp [hp]
    exact (h.after_txClearCanc hf).after_txNoResolve hf
  | waitEot =>
    have hf : s.tx.phase ≠ .failed := by simp [hp]
    exact (h.after_txClearCanc hf).after_txRetryOrFail hf

/-- TX_ABORT (R220). -/
theorem TxInv.after_txAbort {s : State} (h : TxInv c s.tx) : TxInv c (txAbort s).tx := by
  unfold txAbort
  cases hp : s.tx.phase with
  | idle | done | failed => exact h
  | waitC | ready | waitAck | waitEot =>
    have hl := h.live (by simp [hp])
    exact .of_failed h.buf h.len h.frameFits rfl hl.retry.le hl.attempt.le
      (hl.canc.trans (by decide)) (.inr (.inr (.inl rfl)))

/-- TX_LOAD (R203) stores the byte within TX_BUF or faults. -/
theorem txLoad_keeps_txInv {s : State} (h : TxInv c s.tx) (d : Byte) :
    ∃ t, txLoad d s = .next t ∧ t.lbuf = s.lbuf ∧ t.rx = s.rx ∧ TxInv c t.tx := by
  have hlen := h.len
  rw [txLoad_eq]
  split
  · exact ⟨_, rfl, rfl, rfl, h⟩
  · next hne =>
    have hlt : s.tx.len.toNat < 1024 := by omega
    have hs := toNat_succ_of_lt_capacity hlt
    rw [if_pos hlt]
    exact ⟨_, rfl, rfl, rfl, { h with buf := Buf.write_wf h.buf hlt d, len := hs.trans_le hlt }⟩

/-- A send from READY (R205 to R207) with a frame of its kind. -/
theorem TxInv.after_txSend {s : State} (h : TxInv c s.tx) (hp : s.tx.phase = .ready) {kind : TxKind} {phase : TxPhase}
    {f : List Byte} (hfr : TxFrameFits phase kind f) (hf : phase ≠ .failed) : TxInv c (txSend kind phase f s).tx :=
  have hl := h.live (by simp [hp])
  .of_live h.buf h.len hfr ⟨retryLimit_pos c, retryLimit_pos c, hl.canc, hl.err⟩ hf

/-- TX_BUF counts as empty once its bytes are in a frame (R205, R206). -/
theorem TxInv.unload {t : Tx} (h : TxInv c t) : TxInv c { t with len := 0#11 } := { h with len := Nat.zero_le _ }

/-- A header frame is 133 bytes long. -/
theorem txFrameFits_hdr {f : List Byte} (h : f.length = 133) : TxFrameFits .waitAck .hdr f where
  kindNone e := absurd e (by decide)
  kindHdr _ := h
  kindData e := absurd e (by decide)
  kindEot e := absurd e (by decide)
  waitAck _ := .inl rfl
  waitEot e := absurd e (by decide)

/-- A data frame is 1029 bytes long. -/
theorem txFrameFits_data {f : List Byte} (h : f.length = 1029) : TxFrameFits .waitAck .data f where
  kindNone e := absurd e (by decide)
  kindHdr e := absurd e (by decide)
  kindData _ := h
  kindEot e := absurd e (by decide)
  waitAck _ := .inr rfl
  waitEot e := absurd e (by decide)

theorem txFrameFits_eot : TxFrameFits .waitEot .eot [EOT] where
  kindNone e := absurd e (by decide)
  kindHdr e := absurd e (by decide)
  kindData e := absurd e (by decide)
  kindEot _ := rfl
  waitAck e := absurd e (by decide)
  waitEot _ := rfl

/-- TX_SEND_HDR (R205): the loaded bytes and the fill make a payload of 128 bytes. -/
theorem txSendHdr_keeps_txInv {s : State} (h : TxInv c s.tx) :
    ∃ t, txSendHdr s = .next t ∧ t.lbuf = s.lbuf ∧ t.rx = s.rx ∧ TxInv c t.tx := by
  rcases txSendHdr_cases s with ⟨-, e⟩ | ⟨-, -, e⟩ | ⟨hp, hle, e⟩
  · exact ⟨_, e, rfl, rfl, h⟩
  · exact ⟨_, e, rfl, rfl, h⟩
  · refine ⟨_, e, rfl, rfl, TxInv.after_txSend (s := s.setTx _) h.unload hp (txFrameFits_hdr ?_) (by decide)⟩
    simp only [length_makeFrame, List.length_append, length_firstBytes, List.length_replicate]
    omega

/-- TX_SEND_DATA (R206): the loaded bytes and the pad make a payload of 1024 bytes. -/
theorem txSendData_keeps_txInv {s : State} (h : TxInv c s.tx) :
    ∃ t, txSendData s = .next t ∧ t.lbuf = s.lbuf ∧ t.rx = s.rx ∧ TxInv c t.tx := by
  rcases txSendData_cases s with ⟨-, e⟩ | ⟨-, hgt, -⟩ | ⟨hp, hle, e⟩
  · exact ⟨_, e, rfl, rfl, h⟩
  · exact absurd h.len (Nat.not_le_of_gt hgt)
  · refine ⟨_, e, rfl, rfl, TxInv.after_txSend (s := s.setTx _) h.unload hp (txFrameFits_data ?_) (by decide)⟩
    simp only [length_makeFrame, List.length_append, length_firstBytes, List.length_replicate]
    omega

/-- TX_SEND_EOT (R207). -/
theorem txSendEot_keeps_txInv {s : State} (h : TxInv c s.tx) :
    (txSendEot s).lbuf = s.lbuf ∧ (txSendEot s).rx = s.rx ∧ TxInv c (txSendEot s).tx := by
  rcases txSendEot_cases s with ⟨-, e⟩ | ⟨hp, e⟩ <;> rw [e]
  · exact ⟨rfl, rfl, h⟩
  · exact ⟨rfl, rfl, h.after_txSend hp txFrameFits_eot (by decide)⟩

end Sys2Proof.Safety
end

