-- ==== Sys2Proof/Proofs/UnitInvariant.lean ====
section
/-! PROOFS. The invariant of the unit: it holds after reset, every operation and every step keeps it and answers a next
state, and so R48's list holds in every state the unit reaches. -/

namespace Sys2Proof.Safety

open Sys2Proof.Machine

/-- The invariant does not speak of FAULT, CRC_ACC, the command port and the result record. -/
theorem UnitInv.congr {s t : State} (h : UnitInv s) (hl : t.lbuf = s.lbuf) (hr : t.rx = s.rx) (ht : t.tx = s.tx) :
    UnitInv t :=
  ⟨hl ▸ h.lbufLength, hl ▸ h.lbufNoCr, hr ▸ h.rx, ht ▸ h.tx⟩

/-- A rule that writes only RX registers and the result has only the RX clause to keep. -/
theorem UnitInv.of_onlyRx {s t : State} (h : UnitInv s) (ho : OnlyRx s t) (hr : RxInv Config.unit t.rx) :
    UnitInv t :=
  have hl : t.lbuf = s.lbuf := by rw [ho]
  have ht : t.tx = s.tx := by rw [ho]
  ⟨hl ▸ h.lbufLength, hl ▸ h.lbufNoCr, hr, ht ▸ h.tx⟩

/-- A rule that leaves LBUF and the RX registers has only the TX clause to keep. -/
theorem UnitInv.of_tx {s t : State} (h : UnitInv s) (hl : t.lbuf = s.lbuf) (hr : t.rx = s.rx)
    (ht : TxInv Config.unit t.tx) : UnitInv t :=
  ⟨hl ▸ h.lbufLength, hl ▸ h.lbufNoCr, hr ▸ h.rx, ht⟩

/-- A rule that writes only TX registers and the result has only the TX clause to keep. -/
theorem UnitInv.of_onlyTx {s t : State} (h : UnitInv s) (ho : OnlyTx s t) (ht : TxInv Config.unit t.tx) :
    UnitInv t :=
  h.of_tx (by rw [ho]) (by rw [ho]) ht

/-- A rule that leaves the framers has only the LBUF clauses to keep. -/
theorem UnitInv.of_lbuf {s t : State} (h : UnitInv s) (hr : t.rx = s.rx) (ht : t.tx = s.tx)
    (hlen : t.lbuf.length ≤ Config.unit.lineMax) (hcr : CR ∉ t.lbuf) : UnitInv t :=
  ⟨hlen, hcr, hr ▸ h.rx, ht ▸ h.tx⟩

theorem UnitInv.reset : UnitInv State.reset := ⟨Nat.zero_le _, by decide, .reset, .reset⟩

/-- LF_BYTE (R131): a delimiter empties LBUF, another byte enters only where there is room. -/
theorem UnitInv.after_lfByte {s : State} (h : UnitInv s) (d : Byte) : UnitInv (lfByte Config.unit d s) := by
  unfold lfByte
  split
  · exact h.of_lbuf rfl rfl (Nat.zero_le _) (by simp)
  split
  · exact h.congr rfl rfl rfl
  · next hd hfull =>
    have hroom : s.lbuf.length < Config.unit.lineMax := Nat.lt_of_le_of_ne h.lbufLength hfull
    refine h.of_lbuf rfl rfl ?_ ?_
    · simpa using hroom
    · simpa [Ne.symm hd] using h.lbufNoCr

/-- Every operation answers a next state that meets the invariant. -/
theorem exec_keeps_unitInv (i : Instr) {s : State} (h : UnitInv s) : ∃ t, exec i s = .next t ∧ UnitInv t := by
  by_cases hf : s.fault = .none
  · have hc : UnitInv s.clearRes := h.congr rfl rfl rfl
    cases i with
    | nop => exact ⟨_, exec_nop hf, hc⟩
    | reset => exact ⟨_, exec_reset s, UnitInv.reset.congr rfl rfl rfl⟩
    | getFault => exact ⟨_, exec_getFault s, hc.congr rfl rfl rfl⟩
    | crcInit => exact ⟨_, exec_crcInit hf, hc.congr rfl rfl rfl⟩
    | crcByte d => exact ⟨_, exec_crcByte d hf, hc.congr rfl rfl rfl⟩
    | crcRead => exact ⟨_, exec_crcRead hf, hc.congr rfl rfl rfl⟩
    | lfByte d => exact ⟨_, exec_lfByte d hf, hc.after_lfByte d⟩
    | lfDrain => exact ⟨_, exec_lfDrain hf, hc.of_lbuf rfl rfl (Nat.zero_le _) (by simp)⟩
    | lfStatus => exact ⟨_, exec_lfStatus hf, hc.congr rfl rfl rfl⟩
    | rxStart => exact ⟨_, exec_rxStart hf, hc.of_onlyRx rfl h.rx.after_start⟩
    | rxByte d =>
      obtain ⟨t, ht, hr⟩ := rxByte_keeps_rxInv hc.rx d
      exact ⟨t, (exec_rxByte d hf).trans ht, hc.of_onlyRx (onlyRx_rxByte ht) hr⟩
    | rxTimeout => exact ⟨_, exec_rxTimeout hf, hc.of_onlyRx (onlyRx_rxTimeout _ _) hc.rx.after_rxTimeout⟩
    | rxAbort => exact ⟨_, exec_rxAbort hf, hc.of_onlyRx (onlyRx_rxAbort _) hc.rx.after_rxAbort⟩
    | rxStatus => exact ⟨_, exec_rxStatus hf, hc.congr rfl rfl rfl⟩
    | txOpen => exact ⟨_, exec_txOpen hf, hc.of_tx rfl rfl h.tx.after_open⟩
    | txResp d => exact ⟨_, exec_txResp d hf, hc.of_onlyTx (onlyTx_txResp _ d _) (hc.tx.after_txResp d)⟩
    | txTimeout => exact ⟨_, exec_txTimeout hf, hc.of_onlyTx (onlyTx_txTimeout _ _) hc.tx.after_txTimeout⟩
    | txLoad d =>
      obtain ⟨t, ht, hl, hr, hinv⟩ := txLoad_keeps_txInv hc.tx d
      exact ⟨t, (exec_txLoad d hf).trans ht, hc.of_tx hl hr hinv⟩
    | txSendHdr =>
      obtain ⟨t, ht, hl, hr, hinv⟩ := txSendHdr_keeps_txInv hc.tx
      exact ⟨t, (exec_txSendHdr hf).trans ht, hc.of_tx hl hr hinv⟩
    | txSendData =>
      obtain ⟨t, ht, hl, hr, hinv⟩ := txSendData_keeps_txInv hc.tx
      exact ⟨t, (exec_txSendData hf).trans ht, hc.of_tx hl hr hinv⟩
    | txSendEot =>
      obtain ⟨hl, hr, hinv⟩ := txSendEot_keeps_txInv hc.tx
      exact ⟨_, exec_txSendEot hf, hc.of_tx hl hr hinv⟩
    | txAbort => exact ⟨_, exec_txAbort hf, hc.of_onlyTx (onlyTx_txAbort _) hc.tx.after_txAbort⟩
    | txStatus => exact ⟨_, exec_txStatus hf, hc.congr rfl rfl rfl⟩
  · by_cases hr : i = .reset
    · subst hr
      exact ⟨_, exec_reset s, UnitInv.reset.congr rfl rfl rfl⟩
    by_cases hg : i = .getFault
    · subst hg
      exact ⟨_, exec_getFault s, h.congr rfl rfl rfl⟩
    · exact ⟨_, exec_of_latched hf hr hg, h.congr rfl rfl rfl⟩

/-- A word that names no operation raises a fault or is refused, and keeps the invariant (R273). -/
theorem illegalWord_keeps_unitInv {s : State} (h : UnitInv s) : ∃ t, illegalWord s = .next t ∧ UnitInv t := by
  rcases illegalWord_cases s with ⟨-, e⟩ | ⟨-, e⟩
  · exact ⟨_, e, h.congr rfl rfl rfl⟩
  · exact ⟨_, e, h.congr rfl rfl rfl⟩

/-- Every step answers a next state that meets the invariant. -/
theorem step_keeps_unitInv {s : State} (h : UnitInv s) : ∃ t, step s = .next t ∧ UnitInv t := by
  cases hport : s.port with
  | nil => exact ⟨s, step_of_port_nil hport, h⟩
  | cons w rest =>
    have hrest : UnitInv { s with port := rest } := h.congr rfl rfl rfl
    cases hd : decode w with
    | ok i => rw [step_of_decode_ok hport hd]; exact exec_keeps_unitInv i hrest
    | error e => rw [step_of_decode_error hport hd]; exact illegalWord_keeps_unitInv hrest

/-! ## R48's list -/

/-- RX_CNT counts at most the payload of the block in progress (R28, R30). -/
theorem RxInv.cnt_le_size {c : Config} {r : Rx} (h : RxInv c r) : r.cnt.toNat ≤ r.size := by
  by_cases hp : holdsPayload r.phase
  · rcases hp with hdata | hcrch | hcrcl
    · exact (h.data hdata).le
    · exact (h.full (.inl hcrch)).le
    · exact (h.full (.inr hcrcl)).le
  · rw [h.empty hp]
    exact Nat.zero_le _

theorem FaultCode.code_le_five (f : FaultCode) : f.code.toNat ≤ 5 := by
  cases f <;> decide

/-- The invariant of the unit gives every clause R48 lists. -/
theorem UnitInv.listedInvariants {s : State} (h : UnitInv s) : ListedInvariants Config.unit s where
  lbufLength := h.lbufLength
  lbufNoCr := h.lbufNoCr
  rxCnt := h.rx.cnt_le_size.trans (Rx.size_le _)
  rxCntSmall hbig := by simpa [Rx.size_eq, hbig] using h.rx.cnt_le_size
  rxCntZero := h.rx.empty
  txLen := h.tx.len
  rxRetry hf := Nat.lt_of_le_of_ne h.rx.retry fun e => hf (h.rx.retryLimit e)
  txRetry hf := (h.tx.live hf).retry
  txAttempt hf := (h.tx.live hf).attempt
  rxEotc hd := Nat.le_of_lt_succ (Nat.lt_of_le_of_ne h.rx.eotc fun e => hd (h.rx.eotcTwo e))
  rxCanc hf := Nat.le_of_lt_succ (Nat.lt_of_le_of_ne h.rx.canc fun e => hf (h.rx.cancTwo e))
  txCanc hf := (h.tx.live hf).canc
  fault := FaultCode.code_le_five s.fault

/-- A run of any command words from a state that meets the invariant ends in one. -/
theorem runWords_keeps_unitInv (ws : List CmdWord) {s : State} (h : UnitInv s) :
    ∃ t rs, runWords ws s = some (t, rs) ∧ UnitInv t := by
  induction ws generalizing s with
  | nil => exact ⟨s, [], rfl, h⟩
  | cons w ws ih =>
    have hissue : UnitInv (s.issue w) := h.congr rfl rfl rfl
    obtain ⟨u, hu, hinv⟩ := step_keeps_unitInv hissue
    obtain ⟨t, rs, hrun, ht⟩ := ih hinv
    exact ⟨t, u.res :: rs, by simp [runWords, hu, hrun], ht⟩

/-! ## The statements -/

/-- Settles O48. -/
theorem resetMeetsInvariant : Obligations.ResetMeetsInvariant := UnitInv.reset

/-- Settles O49, by the case of the step: no word, a word that names no operation, and one lemma per operation. -/
theorem stepKeepsInvariant : Obligations.StepKeepsInvariant := fun _ => step_keeps_unitInv

/-- Settles O50, by induction on the words issued. -/
theorem listedInvariantsHoldWhenReached : Obligations.ListedInvariantsHoldWhenReached := fun ws =>
  have ⟨t, rs, hrun, hinv⟩ := runWords_keeps_unitInv ws UnitInv.reset
  ⟨t, rs, hrun, hinv.listedInvariants⟩

end Sys2Proof.Safety
end

