-- ==== Sys2Proof/Proofs/Graft.lean ====
section
/-! PROOFS. Grafting one sub-unit of a state into another state. A rule that reads and writes the registers of its own
sub-unit only gives the same answer after a graft as before; from that one fact follow both its frame (graft a state
into itself) and its independence of every other register (graft it into a state that differs there). -/

namespace Sys2Proof.Safety

open Sys2Proof.Machine

/-! ## Grafts -/

/-- `o` with the RX registers, FAULT and the result of `s`, and with the bytes `b` in RX_BUF. -/
def graftRx (o : State) (b : Buf) (s : State) : State :=
  { o with fault := s.fault, res := s.res, rx := { s.rx with buf := b } }

/-- `o` with the TX registers, FAULT and the result of `s`, and with the bytes `b` in TX_BUF. -/
def graftTx (o : State) (b : Buf) (s : State) : State :=
  { o with fault := s.fault, res := s.res, tx := { s.tx with buf := b } }

/-- `o` with the registers of one sub-unit, FAULT and the result of `s`. -/
def graft (u : SubUnit) (o s : State) : State :=
  match u with
  | .system => { o with fault := s.fault, res := s.res }
  | .crc => { o with fault := s.fault, res := s.res, crcAcc := s.crcAcc }
  | .lf => { o with fault := s.fault, res := s.res, lbuf := s.lbuf }
  | .rx => graftRx o s.rx.buf s
  | .tx => graftTx o s.tx.buf s

@[simp] theorem graftRx_rx (o : State) (b : Buf) (s : State) : (graftRx o b s).rx = { s.rx with buf := b } := rfl
@[simp] theorem graftTx_tx (o : State) (b : Buf) (s : State) : (graftTx o b s).tx = { s.tx with buf := b } := rfl

@[simp] theorem graft_fault (u : SubUnit) (o s : State) : (graft u o s).fault = s.fault := by cases u <;> rfl

@[simp] theorem graft_port (u : SubUnit) (o s : State) : (graft u o s).port = o.port := by cases u <;> rfl

theorem graft_crcAcc {u : SubUnit} (hu : u ≠ .crc) (o s : State) : (graft u o s).crcAcc = o.crcAcc := by
  cases u with
  | crc => exact absurd rfl hu
  | system | lf | rx | tx => rfl

theorem graft_lbuf {u : SubUnit} (hu : u ≠ .lf) (o s : State) : (graft u o s).lbuf = o.lbuf := by
  cases u with
  | lf => exact absurd rfl hu
  | system | crc | rx | tx => rfl

theorem graft_rx {u : SubUnit} (hu : u ≠ .rx) (o s : State) : (graft u o s).rx = o.rx := by
  cases u with
  | rx => exact absurd rfl hu
  | system | crc | lf | tx => rfl

theorem graft_tx {u : SubUnit} (hu : u ≠ .tx) (o s : State) : (graft u o s).tx = o.tx := by
  cases u with
  | tx => exact absurd rfl hu
  | system | crc | lf | rx => rfl

/-- A state grafted into itself is itself. -/
@[simp] theorem graft_self (u : SubUnit) (s : State) : graft u s s = s := by cases u <;> rfl

theorem graft_setCrcAcc {u : SubUnit} (hu : u ≠ .crc) (x : Crc) (o s : State) :
    graft u (o.setCrcAcc x) s = (graft u o s).setCrcAcc x := by
  cases u with
  | crc => exact absurd rfl hu
  | system | lf | rx | tx => rfl

theorem graft_setLbuf {u : SubUnit} (hu : u ≠ .lf) (l : List Byte) (o s : State) :
    graft u (o.setLbuf l) s = (graft u o s).setLbuf l := by
  cases u with
  | lf => exact absurd rfl hu
  | system | crc | rx | tx => rfl

theorem graft_setRx {u : SubUnit} (hu : u ≠ .rx) (r : Rx) (o s : State) :
    graft u (o.setRx r) s = (graft u o s).setRx r := by
  cases u with
  | rx => exact absurd rfl hu
  | system | crc | lf | tx => rfl

theorem graft_setTx {u : SubUnit} (hu : u ≠ .tx) (x : Tx) (o s : State) :
    graft u (o.setTx x) s = (graft u o s).setTx x := by
  cases u with
  | tx => exact absurd rfl hu
  | system | crc | lf | rx => rfl

/-- What a rule that commutes with grafts leaves in RX_BUF, from the graft of a state into itself. -/
theorem rxBuf_of_graftRx_self {rule : State → Out} {s t : State} {b : Buf} (h : rule s = .next t)
    (hg : rule (graftRx s s.rx.buf s) = .next (graftRx s b t)) : t.rx.buf = b :=
  have ht : t = graftRx s b t := Host.Outcome.next.inj (h.symm.trans hg)
  congrArg (fun u => u.rx.buf) ht

/-- What a rule that commutes with grafts leaves in TX_BUF, likewise. -/
theorem txBuf_of_graftTx_self {rule : State → Out} {s t : State} {b : Buf} (h : rule s = .next t)
    (hg : rule (graftTx s s.tx.buf s) = .next (graftTx s b t)) : t.tx.buf = b :=
  have ht : t = graftTx s b t := Host.Outcome.next.inj (h.symm.trans hg)
  congrArg (fun u => u.tx.buf) ht

/-! ## RX rules -/

/-- A rule of the RX unit that reads neither RX_BUF nor any register of another sub-unit, writes none of them, and does
not lengthen the payload received so far. -/
structure RxQuiet (f : State → State) : Prop where
  graft : ∀ o b s, f (graftRx o b s) = graftRx o b (f s)
  cnt : ∀ s, (f s).rx.cnt.toNat ≤ s.rx.cnt.toNat

/-- A quiet rule leaves RX_BUF. -/
theorem RxQuiet.buf {f : State → State} (h : RxQuiet f) (s : State) : (f s).rx.buf = s.rx.buf :=
  congrArg (fun u => u.rx.buf) (h.graft s s.rx.buf s)

/-- One quiet rule after another. -/
theorem RxQuiet.comp {f g : State → State} (hg : RxQuiet g) (hf : RxQuiet f) : RxQuiet fun s => g (f s) where
  graft o b s := (congrArg g (hf.graft o b s)).trans (hg.graft o b (f s))
  cnt s := (hg.cnt (f s)).trans (hf.cnt s)

/-- A rule that dispatches on RX_PHASE is quiet if what it does in each phase is. -/
theorem RxQuiet.of_phase {f : State → State} (h : ∀ p, ∃ q, RxQuiet q ∧ ∀ s, s.rx.phase = p → f s = q s) :
    RxQuiet f where
  graft o b s := by
    obtain ⟨q, hq, e⟩ := h s.rx.phase
    rw [e s rfl, e (graftRx o b s) rfl]
    exact hq.graft o b s
  cnt s := by
    obtain ⟨q, hq, e⟩ := h s.rx.phase
    rw [e s rfl]
    exact hq.cnt s

theorem rxQuiet_id : RxQuiet fun s => s := ⟨fun _ _ _ => rfl, fun _ => Nat.le_refl _⟩

theorem rxQuiet_clearRes : RxQuiet State.clearRes := ⟨fun _ _ _ => rfl, fun _ => Nat.le_refl _⟩

theorem rxQuiet_nakPath (c : Config) (reason : ErrCode) : RxQuiet (nakPath c reason) where
  graft o b s := by
    rw [nakPath_eq, nakPath_eq, apply_ite (graftRx o b)]
    rfl
  cnt s := by
    rw [nakPath_eq]
    split <;> exact Nat.zero_le _

theorem rxQuiet_rxCountLead (d : Byte) : RxQuiet (rxCountLead d) := ⟨fun _ _ _ => rfl, fun _ => Nat.le_refl _⟩

theorem rxQuiet_rxOpenBlock (big : Bool) : RxQuiet (rxOpenBlock big) := ⟨fun _ _ _ => rfl, fun _ => Nat.le_refl _⟩

theorem rxQuiet_rxLeadEot : RxQuiet rxLeadEot where
  graft o b s := by
    rw [rxLeadEot_eq, rxLeadEot_eq, apply_ite (graftRx o b)]
    rfl
  cnt s := by
    rw [rxLeadEot_eq]
    split <;> exact Nat.le_refl _

theorem rxQuiet_rxLeadCan : RxQuiet rxLeadCan where
  graft o b s := by
    rw [rxLeadCan_eq, rxLeadCan_eq, apply_ite (graftRx o b)]
    rfl
  cnt s := by
    rw [rxLeadCan_eq]
    split <;> exact Nat.le_refl _

theorem rxQuiet_rxLead (c : Config) (d : Byte) : RxQuiet (rxLead c d) := by
  have hc := rxQuiet_rxCountLead d
  unfold rxLead
  cases leadByte d with
  | soh => exact (rxQuiet_rxOpenBlock false).comp hc
  | stx => exact (rxQuiet_rxOpenBlock true).comp hc
  | eot => exact rxQuiet_rxLeadEot.comp hc
  | can => exact rxQuiet_rxLeadCan.comp hc
  | other => exact (rxQuiet_nakPath c .desync).comp hc

theorem rxQuiet_rxHeader (c : Config) (p : List Byte) : RxQuiet (rxHeader c p) := by
  unfold rxHeader
  cases p.all (· = NUL) with
  | false => exact ⟨fun _ _ _ => rfl, fun _ => Nat.zero_le _⟩
  | true =>
    cases c.nullHeaderAck with
    | false => exact ⟨fun _ _ _ => rfl, fun _ => Nat.zero_le _⟩
    | true => exact ⟨fun _ _ _ => rfl, fun _ => Nat.zero_le _⟩

theorem rxQuiet_rxDataBlock (p : List Byte) : RxQuiet (rxDataBlock p) := ⟨fun _ _ _ => rfl, fun _ => Nat.zero_le _⟩

theorem rxQuiet_rxTimeout (c : Config) : RxQuiet (rxTimeout c) := by
  refine RxQuiet.of_phase fun p => ?_
  cases p with
  | idle | done | failed => exact ⟨_, rxQuiet_id, fun s hp => by simp only [rxTimeout, hp]⟩
  | purge =>
    exact ⟨fun s => (s.emitTx [NAK]).setRx { s.rx with phase := .lead },
      ⟨fun _ _ _ => rfl, fun _ => Nat.le_refl _⟩, fun s hp => by simp only [rxTimeout, hp]⟩
  | lead | seq | cmp | data | crch | crcl =>
    exact ⟨fun s => nakPath c .timeout (s.setRx { s.rx with eotc := 0#2, canc := 0#2 }),
      (rxQuiet_nakPath c .timeout).comp ⟨fun _ _ _ => rfl, fun _ => Nat.le_refl _⟩,
      fun s hp => by simp only [rxTimeout, hp]⟩

theorem rxQuiet_rxAbort : RxQuiet rxAbort := by
  refine RxQuiet.of_phase fun p => ?_
  cases p with
  | idle | done | failed => exact ⟨_, rxQuiet_id, fun s hp => by simp only [rxAbort, hp]⟩
  | lead | seq | cmp | data | crch | crcl | purge =>
    exact ⟨fun s => rxFail .aborted (s.setRx { s.rx with cnt := 0#11 }),
      ⟨fun _ _ _ => rfl, fun _ => Nat.zero_le _⟩, fun s hp => by simp only [rxAbort, hp]⟩

/-- What a byte `d` leaves of the bytes `b` in RX_BUF: only phase DATA stores it (R160). -/
def rxBufAfter (d : Byte) (r : Rx) (b : Buf) : Buf := if r.phase = .data then Buf.write b r.cnt.toNat d else b

/-- Everything the last CRC byte (R162) can do, as one rule on the state. -/
theorem rxCrcl_eq (c : Config) (d : Byte) (s : State) :
    rxCrcl c d s = .next
      (if s.rx.seqb.toNat + s.rx.cmpb.toNat ≠ 255 then nakPath c .complementMismatch s
      else if s.rx.seqb ≠ s.rx.exp then nakPath c .sequenceMismatch s
      else if s.rx.crc ≠ crcJoin s.rx.crch d then nakPath c .checksumMismatch s
      else if s.rx.hdr then rxDataBlock (firstBytes s.rx.buf s.rx.size) s
      else rxHeader c (firstBytes s.rx.buf s.rx.size) s) := by
  unfold rxCrcl
  rw [rxAccept_eq]
  simp only [apply_ite Host.Outcome.next]

/-- The last CRC byte reads RX_BUF only where it accepts the block, and then only the payload (R162). -/
theorem rxCrcl_graftRx {c : Config} {d : Byte} {s t : State} (h : rxCrcl c d s = .next t) (o : State) {b : Buf}
    (hb : firstBytes b s.rx.size = firstBytes s.rx.buf s.rx.size) :
    rxCrcl c d (graftRx o b s) = .next (graftRx o b t) := by
  have hsize : (graftRx o b s).rx.size = s.rx.size := rfl
  rw [rxCrcl_eq] at h
  cases h
  rw [rxCrcl_eq, hsize]
  simp only [graftRx_rx, hb]
  congr 1
  split_ifs
  · exact (rxQuiet_nakPath c _).graft o b s
  · exact (rxQuiet_nakPath c _).graft o b s
  · exact (rxQuiet_nakPath c _).graft o b s
  · exact (rxQuiet_rxDataBlock _).graft o b s
  · exact (rxQuiet_rxHeader c _).graft o b s

theorem rxCrcl_cnt {c : Config} {d : Byte} {s t : State} (h : rxCrcl c d s = .next t) :
    t.rx.cnt.toNat ≤ s.rx.cnt.toNat := by
  rw [rxCrcl_eq] at h
  cases h
  split_ifs
  · exact (rxQuiet_nakPath c _).cnt s
  · exact (rxQuiet_nakPath c _).cnt s
  · exact (rxQuiet_nakPath c _).cnt s
  · exact (rxQuiet_rxDataBlock _).cnt s
  · exact (rxQuiet_rxHeader c _).cnt s

/-- RX_BYTE reads RX_BUF only where it accepts a block, and writes it only in phase DATA (R160, R162). -/
theorem rxByte_graftRx {c : Config} {d : Byte} {s t : State} (h : rxByte c d s = .next t) (o : State) {b : Buf}
    (hb : s.rx.phase = .crcl → firstBytes b s.rx.size = firstBytes s.rx.buf s.rx.size) :
    rxByte c d (graftRx o b s) = .next (graftRx o (rxBufAfter d s.rx b) t) := by
  unfold rxByte at h
  cases hp : s.rx.phase <;> simp only [hp] at h <;> simp only [rxByte, rxBufAfter, graftRx_rx, hp]
  case idle | done | failed | purge | seq | cmp | crch => cases h; rfl
  case lead =>
    cases h
    exact congrArg _ ((rxQuiet_rxLead c d).graft o b s)
  case data =>
    rw [rxData_eq] at h ⊢
    split at h
    · next hlt =>
      cases h
      exact (if_pos hlt).trans rfl
    · cases h
  case crcl => exact rxCrcl_graftRx h o (hb hp)

/-- RX_BYTE leaves in RX_BUF what `rxBufAfter` says. -/
theorem rxByte_buf {c : Config} {d : Byte} {s t : State} (h : rxByte c d s = .next t) :
    t.rx.buf = rxBufAfter d s.rx s.rx.buf :=
  rxBuf_of_graftRx_self h (rxByte_graftRx h s fun _ => rfl)

/-- In phase DATA RX_BYTE counts the byte it stores. -/
theorem rxByte_cnt_of_data {c : Config} {d : Byte} {s t : State} (h : rxByte c d s = .next t)
    (hp : s.rx.phase = .data) : s.rx.cnt.toNat < 1024 ∧ t.rx.cnt.toNat = s.rx.cnt.toNat + 1 := by
  simp only [rxByte, hp] at h
  rw [rxData_eq] at h
  split at h
  · next hlt =>
    cases h
    exact ⟨hlt, toNat_succ_of_lt_capacity hlt⟩
  · cases h

/-- In every other phase RX_BYTE counts no byte. -/
theorem rxByte_cnt_of_ne_data {c : Config} {d : Byte} {s t : State} (h : rxByte c d s = .next t)
    (hp : s.rx.phase ≠ .data) : t.rx.cnt.toNat ≤ s.rx.cnt.toNat := by
  unfold rxByte at h
  cases hq : s.rx.phase <;> simp only [hq] at h
  case data => exact absurd hq hp
  case idle | done | failed | purge | seq | crch => cases h; exact Nat.le_refl _
  case cmp => cases h; exact Nat.zero_le _
  case lead => cases h; exact (rxQuiet_rxLead c d).cnt s
  case crcl => exact rxCrcl_cnt h

/-! ## TX rules -/

/-- A rule of the TX unit that reads neither TX_BUF nor any register of another sub-unit, writes none of them, and does
not lengthen the bytes loaded so far. -/
structure TxQuiet (f : State → State) : Prop where
  graft : ∀ o b s, f (graftTx o b s) = graftTx o b (f s)
  len : ∀ s, (f s).tx.len.toNat ≤ s.tx.len.toNat

/-- A quiet rule leaves TX_BUF. -/
theorem TxQuiet.buf {f : State → State} (h : TxQuiet f) (s : State) : (f s).tx.buf = s.tx.buf :=
  congrArg (fun u => u.tx.buf) (h.graft s s.tx.buf s)

/-- One quiet rule after another. -/
theorem TxQuiet.comp {f g : State → State} (hg : TxQuiet g) (hf : TxQuiet f) : TxQuiet fun s => g (f s) where
  graft o b s := (congrArg g (hf.graft o b s)).trans (hg.graft o b (f s))
  len s := (hg.len (f s)).trans (hf.len s)

/-- A rule that dispatches on TX_PHASE is quiet if what it does in each phase is. -/
theorem TxQuiet.of_phase {f : State → State} (h : ∀ p, ∃ q, TxQuiet q ∧ ∀ s, s.tx.phase = p → f s = q s) :
    TxQuiet f where
  graft o b s := by
    obtain ⟨q, hq, e⟩ := h s.tx.phase
    rw [e s rfl, e (graftTx o b s) rfl]
    exact hq.graft o b s
  len s := by
    obtain ⟨q, hq, e⟩ := h s.tx.phase
    rw [e s rfl]
    exact hq.len s

theorem txQuiet_id : TxQuiet fun s => s := ⟨fun _ _ _ => rfl, fun _ => Nat.le_refl _⟩

theorem txQuiet_clearRes : TxQuiet State.clearRes := ⟨fun _ _ _ => rfl, fun _ => Nat.le_refl _⟩

theorem txQuiet_raiseFault (f : FaultCode) : TxQuiet fun s => s.raiseFault f :=
  ⟨fun _ _ _ => rfl, fun _ => Nat.le_refl _⟩

theorem txQuiet_txClearCanc : TxQuiet txClearCanc := ⟨fun _ _ _ => rfl, fun _ => Nat.le_refl _⟩

theorem txQuiet_txFail (code : ErrCode) : TxQuiet (txFail code) := ⟨fun _ _ _ => rfl, fun _ => Nat.le_refl _⟩

theorem txQuiet_txSend (kind : TxKind) (phase : TxPhase) (f : List Byte) : TxQuiet (txSend kind phase f) :=
  ⟨fun _ _ _ => rfl, fun _ => Nat.le_refl _⟩

theorem txQuiet_txNoResolve (c : Config) : TxQuiet (txNoResolve c) where
  graft o b s := by
    rw [txNoResolve_eq, txNoResolve_eq, apply_ite (graftTx o b)]
    rfl
  len s := by
    rw [txNoResolve_eq]
    split <;> exact Nat.le_refl _

theorem txQuiet_txRetryOrFail (c : Config) : TxQuiet (txRetryOrFail c) where
  graft o b s := by
    rw [txRetryOrFail_eq, txRetryOrFail_eq, apply_ite (graftTx o b)]
    rfl
  len s := by
    rw [txRetryOrFail_eq]
    split <;> exact Nat.le_refl _

theorem txQuiet_txCan : TxQuiet txCan where
  graft o b s := by
    rw [txCan_eq, txCan_eq, apply_ite (graftTx o b)]
    rfl
  len s := by
    rw [txCan_eq]
    split <;> exact Nat.le_refl _

theorem txQuiet_txRespWaitC (c : Config) (d : Byte) : TxQuiet (txRespWaitC c d) := by
  unfold txRespWaitC
  cases respByte d with
  | handshake => exact ⟨fun _ _ _ => rfl, fun _ => Nat.le_refl _⟩
  | ack | nak | can | other => exact txQuiet_txNoResolve c

theorem txQuiet_txRespWaitAck (c : Config) (d : Byte) : TxQuiet (txRespWaitAck c d) := by
  unfold txRespWaitAck
  cases respByte d with
  | ack => exact ⟨fun _ _ _ => rfl, fun _ => Nat.le_refl _⟩
  | nak => exact txQuiet_txRetryOrFail c
  | handshake | can | other => exact txQuiet_txNoResolve c

theorem txQuiet_txRespWaitEot (c : Config) (d : Byte) : TxQuiet (txRespWaitEot c d) := by
  unfold txRespWaitEot
  cases respByte d with
  | ack => exact ⟨fun _ _ _ => rfl, fun _ => Nat.le_refl _⟩
  | handshake | nak | can | other => exact txQuiet_txRetryOrFail c

/-- The split of a wait phase on CAN (R211). -/
theorem TxQuiet.can_or {f : State → State} (hf : TxQuiet f) (d : Byte) :
    TxQuiet fun s => if d = CAN then txCan s else f (txClearCanc s) := by
  by_cases hd : d = CAN
  · simpa only [hd, if_true] using txQuiet_txCan
  · simpa only [hd, if_false] using hf.comp txQuiet_txClearCanc

theorem txQuiet_txResp (c : Config) (d : Byte) : TxQuiet (txResp c d) := by
  refine TxQuiet.of_phase fun p => ?_
  cases p with
  | idle | done | failed =>
    exact ⟨fun s => s.retSt .notConsumed, ⟨fun _ _ _ => rfl, fun _ => Nat.le_refl _⟩,
      fun s hp => by simp only [txResp, hp]⟩
  | ready => exact ⟨_, txQuiet_id, fun s hp => by simp only [txResp, hp]⟩
  | waitC => exact ⟨_, (txQuiet_txRespWaitC c d).can_or d, fun s hp => by simp only [txResp, hp]⟩
  | waitAck => exact ⟨_, (txQuiet_txRespWaitAck c d).can_or d, fun s hp => by simp only [txResp, hp]⟩
  | waitEot => exact ⟨_, (txQuiet_txRespWaitEot c d).can_or d, fun s hp => by simp only [txResp, hp]⟩

theorem txQuiet_txTimeout (c : Config) : TxQuiet (txTimeout c) := by
  refine TxQuiet.of_phase fun p => ?_
  cases p with
  | idle | ready | done | failed => exact ⟨_, txQuiet_id, fun s hp => by simp only [txTimeout, hp]⟩
  | waitC | waitAck =>
    exact ⟨_, (txQuiet_txNoResolve c).comp txQuiet_txClearCanc, fun s hp => by simp only [txTimeout, hp]⟩
  | waitEot =>
    exact ⟨_, (txQuiet_txRetryOrFail c).comp txQuiet_txClearCanc, fun s hp => by simp only [txTimeout, hp]⟩

theorem txQuiet_txAbort : TxQuiet txAbort := by
  refine TxQuiet.of_phase fun p => ?_
  cases p with
  | idle | done | failed => exact ⟨_, txQuiet_id, fun s hp => by simp only [txAbort, hp]⟩
  | waitC | ready | waitAck | waitEot =>
    exact ⟨_, txQuiet_txFail .aborted, fun s hp => by simp only [txAbort, hp]⟩

theorem txQuiet_txSendEot : TxQuiet txSendEot := by
  refine TxQuiet.of_phase fun p => ?_
  by_cases hr : p = .ready
  · exact ⟨_, txQuiet_txSend .eot .waitEot [EOT], fun s hp => by simp [txSendEot, hp, hr]⟩
  · exact ⟨_, txQuiet_raiseFault .txNotReady, fun s hp => by simp [txSendEot, hp, hr]⟩

/-- What TX_LOAD d leaves of the bytes `b` in TX_BUF: it stores where there is room (R203). -/
def txBufAfter (d : Byte) (x : Tx) (b : Buf) : Buf := if x.len.toNat < 1024 then Buf.write b x.len.toNat d else b

/-- TX_LOAD reads nothing of TX_BUF and writes one byte of it. -/
theorem txLoad_graftTx {d : Byte} {s t : State} (h : txLoad d s = .next t) (o : State) (b : Buf) :
    txLoad d (graftTx o b s) = .next (graftTx o (txBufAfter d s.tx b) t) := by
  rw [txLoad_eq] at h ⊢
  simp only [graftTx_tx, txBufAfter]
  split at h
  · next he =>
    cases h
    simp only [he, if_true, Nat.lt_irrefl, if_false]
    rfl
  · next hne =>
    split at h
    · next hlt =>
      cases h
      simp only [hne, hlt, if_true, if_false]
      rfl
    · cases h

/-- TX_LOAD counts the byte it stores. -/
theorem txLoad_len {d : Byte} {s t : State} (h : txLoad d s = .next t) :
    t.tx.len.toNat = if s.tx.len.toNat < 1024 then s.tx.len.toNat + 1 else s.tx.len.toNat := by
  rw [txLoad_eq] at h
  split at h
  · next he =>
    cases h
    simp [he]
  · split at h
    · next hlt =>
      cases h
      simp [hlt, toNat_succ_of_lt_capacity hlt]
    · cases h

/-- A block send reads only the loaded bytes of TX_BUF, and counts them as gone (R205, R206). -/
theorem txSendBlock_graftTx {mode : Byte} {size : Nat} {pad : Byte} {kind : TxKind} {s t : State}
    (h : txSendBlock mode size pad kind s = .next t) (o : State) {b : Buf}
    (hb : firstBytes b s.tx.len.toNat = firstBytes s.tx.buf s.tx.len.toNat) :
    txSendBlock mode size pad kind (graftTx o b s) = .next (graftTx o b t) ∧ t.tx.len.toNat ≤ s.tx.len.toNat := by
  rw [txSendBlock_eq] at h ⊢
  simp only [graftTx_tx, hb]
  split at h
  · next hle =>
    cases h
    rw [if_pos hle]
    exact ⟨rfl, Nat.zero_le _⟩
  · cases h

/-- TX_SEND_HDR reads only the loaded bytes of TX_BUF (R205). -/
theorem txSendHdr_graftTx {s t : State} (h : txSendHdr s = .next t) (o : State) {b : Buf}
    (hb : firstBytes b s.tx.len.toNat = firstBytes s.tx.buf s.tx.len.toNat) :
    txSendHdr (graftTx o b s) = .next (graftTx o b t) ∧ t.tx.len.toNat ≤ s.tx.len.toNat := by
  unfold txSendHdr at h ⊢
  split at h
  · next hp =>
    have hp' : (graftTx o b s).tx.phase ≠ .ready := hp
    cases h
    rw [if_pos hp']
    exact ⟨rfl, Nat.le_refl _⟩
  · next hp =>
    have hp' : ¬ (graftTx o b s).tx.phase ≠ .ready := hp
    rw [if_neg hp']
    split at h
    · next hl =>
      have hl' : (graftTx o b s).tx.len.toNat > 128 := hl
      cases h
      rw [if_pos hl']
      exact ⟨rfl, Nat.le_refl _⟩
    · next hl =>
      have hl' : ¬ (graftTx o b s).tx.len.toNat > 128 := hl
      rw [if_neg hl']
      exact txSendBlock_graftTx h o hb

/-- TX_SEND_DATA reads only the loaded bytes of TX_BUF (R206). -/
theorem txSendData_graftTx {s t : State} (h : txSendData s = .next t) (o : State) {b : Buf}
    (hb : firstBytes b s.tx.len.toNat = firstBytes s.tx.buf s.tx.len.toNat) :
    txSendData (graftTx o b s) = .next (graftTx o b t) ∧ t.tx.len.toNat ≤ s.tx.len.toNat := by
  unfold txSendData at h ⊢
  split at h
  · next hp =>
    have hp' : (graftTx o b s).tx.phase ≠ .ready := hp
    cases h
    rw [if_pos hp']
    exact ⟨rfl, Nat.le_refl _⟩
  · next hp =>
    have hp' : ¬ (graftTx o b s).tx.phase ≠ .ready := hp
    rw [if_neg hp']
    exact txSendBlock_graftTx h o hb

end Sys2Proof.Safety
end

