-- ==== Sys2Proof/Proofs/Independence.lean ====
section
/-! PROOFS. Every operation gives the same answer after its sub-unit is grafted into another state, and so the
sub-units share no register. -/

namespace Sys2Proof.Safety

open Sys2Proof.Machine

/-! ## The operations of each sub-unit -/

theorem subUnit_eq_system {i : Instr} (hu : subUnit i = .system) : i = .nop ∨ i = .reset ∨ i = .getFault := by
  cases i <;> simp [subUnit] at hu ⊢

theorem subUnit_eq_crc {i : Instr} (hu : subUnit i = .crc) :
    i = .crcInit ∨ (∃ d, i = .crcByte d) ∨ i = .crcRead := by
  cases i <;> simp [subUnit] at hu ⊢

theorem subUnit_eq_lf {i : Instr} (hu : subUnit i = .lf) :
    (∃ d, i = .lfByte d) ∨ i = .lfDrain ∨ i = .lfStatus := by
  cases i <;> simp [subUnit] at hu ⊢

theorem subUnit_eq_rx {i : Instr} (hu : subUnit i = .rx) :
    i = .rxStart ∨ (∃ d, i = .rxByte d) ∨ i = .rxTimeout ∨ i = .rxAbort ∨ i = .rxStatus := by
  cases i <;> simp [subUnit] at hu ⊢

theorem subUnit_eq_tx {i : Instr} (hu : subUnit i = .tx) :
    i = .txOpen ∨ (∃ d, i = .txResp d) ∨ i = .txTimeout ∨ (∃ d, i = .txLoad d) ∨ i = .txSendHdr ∨
      i = .txSendData ∨ i = .txSendEot ∨ i = .txAbort ∨ i = .txStatus := by
  cases i <;> simp [subUnit] at hu ⊢

/-- Every RX operation but RX_BYTE is quiet. -/
theorem exec_rx_quiet {i : Instr} (hu : subUnit i = .rx) (hb : ∀ d, i ≠ .rxByte d) :
    ∃ f, RxQuiet f ∧ ∀ s, s.fault = .none → exec i s = .next (f s) := by
  rcases subUnit_eq_rx hu with rfl | ⟨d, rfl⟩ | rfl | rfl | rfl
  · exact ⟨_, ⟨fun _ _ _ => rfl, fun _ => Nat.zero_le _⟩, fun s hf => exec_rxStart hf⟩
  · exact absurd rfl (hb d)
  · exact ⟨_, (rxQuiet_rxTimeout _).comp rxQuiet_clearRes, fun s hf => exec_rxTimeout hf⟩
  · exact ⟨_, rxQuiet_rxAbort.comp rxQuiet_clearRes, fun s hf => exec_rxAbort hf⟩
  · exact ⟨fun s => s.clearRes.retVal (rxStatusWord s.rx), ⟨fun _ _ _ => rfl, fun _ => Nat.le_refl _⟩,
      fun s hf => exec_rxStatus hf⟩

/-- Every TX operation but TX_LOAD and the two block sends is quiet. -/
theorem exec_tx_quiet {i : Instr} (hu : subUnit i = .tx) (hl : ∀ d, i ≠ .txLoad d) (hh : i ≠ .txSendHdr)
    (hd : i ≠ .txSendData) : ∃ f, TxQuiet f ∧ ∀ s, s.fault = .none → exec i s = .next (f s) := by
  rcases subUnit_eq_tx hu with rfl | ⟨d, rfl⟩ | rfl | ⟨d, rfl⟩ | rfl | rfl | rfl | rfl | rfl
  · exact ⟨_, ⟨fun _ _ _ => rfl, fun _ => Nat.zero_le _⟩, fun s hf => exec_txOpen hf⟩
  · exact ⟨_, (txQuiet_txResp _ d).comp txQuiet_clearRes, fun s hf => exec_txResp d hf⟩
  · exact ⟨_, (txQuiet_txTimeout _).comp txQuiet_clearRes, fun s hf => exec_txTimeout hf⟩
  · exact absurd rfl (hl d)
  · exact absurd rfl hh
  · exact absurd rfl hd
  · exact ⟨_, txQuiet_txSendEot.comp txQuiet_clearRes, fun s hf => exec_txSendEot hf⟩
  · exact ⟨_, txQuiet_txAbort.comp txQuiet_clearRes, fun s hf => exec_txAbort hf⟩
  · exact ⟨fun s => s.clearRes.retVal (txStatusWord s.tx), ⟨fun _ _ _ => rfl, fun _ => Nat.le_refl _⟩,
      fun s hf => exec_txStatus hf⟩

/-! ## A graft does not change the answer -/

theorem lfByte_graft (c : Config) (d : Byte) (o s : State) :
    lfByte c d (graft .lf o s) = graft .lf o (lfByte c d s) := by
  rw [lfByte, lfByte, apply_ite (graft .lf o), apply_ite (graft .lf o)]
  rfl

section Graft

variable {i : Instr} {s t : State} (hf : s.fault = .none) (h : exec i s = .next t) (o : State)
include hf h

theorem exec_graft_system (hu : subUnit i = .system) (hr : i ≠ .reset) :
    exec i (graft .system o s) = .next (graft .system o t) := by
  have hf' : (graft .system o s).fault = .none := hf
  rcases subUnit_eq_system hu with rfl | rfl | rfl
  · cases (exec_nop hf).symm.trans h
    exact exec_nop hf'
  · exact absurd rfl hr
  · cases (exec_getFault s).symm.trans h
    exact exec_getFault _

theorem exec_graft_crc (hu : subUnit i = .crc) : exec i (graft .crc o s) = .next (graft .crc o t) := by
  have hf' : (graft .crc o s).fault = .none := hf
  rcases subUnit_eq_crc hu with rfl | ⟨d, rfl⟩ | rfl
  · cases (exec_crcInit hf).symm.trans h
    exact exec_crcInit hf'
  · cases (exec_crcByte d hf).symm.trans h
    exact exec_crcByte d hf'
  · cases (exec_crcRead hf).symm.trans h
    exact exec_crcRead hf'

theorem exec_graft_lf (hu : subUnit i = .lf) : exec i (graft .lf o s) = .next (graft .lf o t) := by
  have hf' : (graft .lf o s).fault = .none := hf
  rcases subUnit_eq_lf hu with ⟨d, rfl⟩ | rfl | rfl
  · cases (exec_lfByte d hf).symm.trans h
    rw [exec_lfByte d hf']
    exact congrArg _ (lfByte_graft _ d o s.clearRes)
  · cases (exec_lfDrain hf).symm.trans h
    exact exec_lfDrain hf'
  · cases (exec_lfStatus hf).symm.trans h
    exact exec_lfStatus hf'

theorem exec_graft_rx (hu : subUnit i = .rx) : exec i (graft .rx o s) = .next (graft .rx o t) := by
  have hf' : (graftRx o s.rx.buf s).fault = .none := hf
  show exec i (graftRx o s.rx.buf s) = .next (graftRx o t.rx.buf t)
  by_cases hb : ∃ d, i = .rxByte d
  · obtain ⟨d, rfl⟩ := hb
    have hrule := (exec_rxByte d hf).symm.trans h
    rw [exec_rxByte d hf', rxByte_buf hrule]
    exact rxByte_graftRx hrule o fun _ => rfl
  · obtain ⟨f, hq, hex⟩ := exec_rx_quiet hu (not_exists.1 hb)
    cases (hex s hf).symm.trans h
    rw [hex _ hf', hq.graft, hq.buf]

theorem exec_graft_tx (hu : subUnit i = .tx) : exec i (graft .tx o s) = .next (graft .tx o t) := by
  have hf' : (graftTx o s.tx.buf s).fault = .none := hf
  show exec i (graftTx o s.tx.buf s) = .next (graftTx o t.tx.buf t)
  by_cases hl : ∃ d, i = .txLoad d
  · obtain ⟨d, rfl⟩ := hl
    have hrule := (exec_txLoad d hf).symm.trans h
    rw [exec_txLoad d hf', txBuf_of_graftTx_self hrule (txLoad_graftTx hrule _ _)]
    exact txLoad_graftTx hrule o _
  by_cases hh : i = .txSendHdr
  · subst hh
    have hrule := (exec_txSendHdr hf).symm.trans h
    rw [exec_txSendHdr hf', txBuf_of_graftTx_self hrule (txSendHdr_graftTx hrule _ rfl).1]
    exact (txSendHdr_graftTx hrule o rfl).1
  by_cases hd : i = .txSendData
  · subst hd
    have hrule := (exec_txSendData hf).symm.trans h
    rw [exec_txSendData hf', txBuf_of_graftTx_self hrule (txSendData_graftTx hrule _ rfl).1]
    exact (txSendData_graftTx hrule o rfl).1
  · obtain ⟨f, hq, hex⟩ := exec_tx_quiet hu (not_exists.1 hl) hh hd
    cases (hex s hf).symm.trans h
    rw [hex _ hf', hq.graft, hq.buf]

end Graft

/-- An operation other than RESET reads and writes no register outside its sub-unit, FAULT and the result aside. -/
theorem exec_graft {i : Instr} {s t : State} (hr : i ≠ .reset) (h : exec i s = .next t) (o : State) :
    exec i (graft (subUnit i) o s) = .next (graft (subUnit i) o t) := by
  by_cases hf : s.fault = .none
  · cases hu : subUnit i with
    | system => exact exec_graft_system hf h o hu hr
    | crc => exact exec_graft_crc hf h o hu
    | lf => exact exec_graft_lf hf h o hu
    | rx => exact exec_graft_rx hf h o hu
    | tx => exact exec_graft_tx hf h o hu
  by_cases hg : i = .getFault
  · subst hg
    cases (exec_getFault s).symm.trans h
    exact exec_getFault _
  · cases (exec_of_latched hf hr hg).symm.trans h
    rw [exec_of_latched (by simpa using hf) hr hg]
    cases subUnit i <;> rfl

/-- The frame of an operation: grafted into the state before it, the state after it is itself. -/
theorem eq_graft_of_exec {i : Instr} {s t : State} (hr : i ≠ .reset) (h : exec i s = .next t) :
    t = graft (subUnit i) s t := by
  have hg := exec_graft hr h s
  rw [graft_self] at hg
  exact Host.Outcome.next.inj (h.symm.trans hg)

/-- The operations that only read, whatever the latch: they write the result record alone. -/
theorem exec_read_frame {i : Instr} {s t : State}
    (hi : i = .crcRead ∨ i = .lfStatus ∨ i = .rxStatus ∨ i = .txStatus) (h : exec i s = .next t) :
    t = { s with res := t.res } := by
  by_cases hf : s.fault = .none
  · rcases hi with rfl | rfl | rfl | rfl
    · cases (exec_crcRead hf).symm.trans h; rfl
    · cases (exec_lfStatus hf).symm.trans h; rfl
    · cases (exec_rxStatus hf).symm.trans h; rfl
    · cases (exec_txStatus hf).symm.trans h; rfl
  · have hr : i ≠ .reset := by rcases hi with rfl | rfl | rfl | rfl <;> simp
    have hg : i ≠ .getFault := by rcases hi with rfl | rfl | rfl | rfl <;> simp
    cases (exec_of_latched hf hr hg).symm.trans h
    rfl

/-! ## What an operation writes -/

section Frame

variable {i : Instr} {s t : State} (hr : i ≠ .reset) (h : exec i s = .next t)
include hr h

theorem exec_port : t.port = s.port := by
  rw [eq_graft_of_exec hr h, graft_port]

/-- Only CRC_INIT and CRC_BYTE write CRC_ACC (R23). -/
theorem exec_crcAcc (hi : i ≠ .crcInit) (hb : ∀ d, i ≠ .crcByte d) : t.crcAcc = s.crcAcc := by
  by_cases hu : subUnit i = .crc
  · rcases subUnit_eq_crc hu with e | ⟨d, e⟩ | e
    · exact absurd e hi
    · exact absurd e (hb d)
    · rw [exec_read_frame (by simp [e]) h]
  · rw [eq_graft_of_exec hr h, graft_crcAcc hu]

/-- Only LF_BYTE and LF_DRAIN write LBUF (R24). -/
theorem exec_lbuf (hi : i ≠ .lfDrain) (hb : ∀ d, i ≠ .lfByte d) : t.lbuf = s.lbuf := by
  by_cases hu : subUnit i = .lf
  · rcases subUnit_eq_lf hu with ⟨d, e⟩ | e | e
    · exact absurd e (hb d)
    · exact absurd e hi
    · rw [exec_read_frame (by simp [e]) h]
  · rw [eq_graft_of_exec hr h, graft_lbuf hu]

/-- Only RX_START, RX_BYTE, RX_TIMEOUT and RX_ABORT write an RX register. -/
theorem exec_rx (hs : i ≠ .rxStart) (ht : i ≠ .rxTimeout) (ha : i ≠ .rxAbort) (hb : ∀ d, i ≠ .rxByte d) :
    t.rx = s.rx := by
  by_cases hu : subUnit i = .rx
  · rcases subUnit_eq_rx hu with e | ⟨d, e⟩ | e | e | e
    · exact absurd e hs
    · exact absurd e (hb d)
    · exact absurd e ht
    · exact absurd e ha
    · rw [exec_read_frame (by simp [e]) h]
  · rw [eq_graft_of_exec hr h, graft_rx hu]

/-- Only TX_OPEN, TX_RESP, TX_TIMEOUT, TX_LOAD, the sends and TX_ABORT write a TX register. -/
theorem exec_tx (ho : i ≠ .txOpen) (ht : i ≠ .txTimeout) (ha : i ≠ .txAbort) (hsend : isSend i = false)
    (hb : ∀ d, i ≠ .txResp d) (hl : ∀ d, i ≠ .txLoad d) : t.tx = s.tx := by
  by_cases hu : subUnit i = .tx
  · rcases subUnit_eq_tx hu with e | ⟨d, e⟩ | e | ⟨d, e⟩ | e | e | e | e | e
    · exact absurd e ho
    · exact absurd e (hb d)
    · exact absurd e ht
    · exact absurd e (hl d)
    · simp [e, isSend] at hsend
    · simp [e, isSend] at hsend
    · simp [e, isSend] at hsend
    · exact absurd e ha
    · rw [exec_read_frame (by simp [e]) h]
  · rw [eq_graft_of_exec hr h, graft_tx hu]

end Frame

/-- Settles O55. The frame is the graft of a state into itself; that a replaced register of another sub-unit is not
read is the graft into the state with that register replaced. -/
theorem subUnitsAreIndependent : Obligations.SubUnitsAreIndependent := by
  intro i s t hr h
  have hframe := eq_graft_of_exec hr h
  refine ⟨⟨exec_port hr h, exec_crcAcc hr h, exec_lbuf hr h, exec_rx hr h, exec_tx hr h⟩, ?_, ?_, ?_, ?_⟩
  · intro hu x
    have hg := exec_graft hr h (s.setCrcAcc x)
    rw [graft_setCrcAcc hu, graft_setCrcAcc hu, graft_self, ← hframe] at hg
    exact hg
  · intro hu l
    have hg := exec_graft hr h (s.setLbuf l)
    rw [graft_setLbuf hu, graft_setLbuf hu, graft_self, ← hframe] at hg
    exact hg
  · intro hu r
    have hg := exec_graft hr h (s.setRx r)
    rw [graft_setRx hu, graft_setRx hu, graft_self, ← hframe] at hg
    exact hg
  · intro hu x
    have hg := exec_graft hr h (s.setTx x)
    rw [graft_setTx hu, graft_setTx hu, graft_self, ← hframe] at hg
    exact hg

end Sys2Proof.Safety
end

