-- ==== Sys2Proof/Proofs/BufferRest.lean ====
section
/-! PROOFS. What R47 calls unobservable: an operation on a state with other bytes in RX_BUF from RX_CNT on and in
TX_BUF from TX_LEN on is the same operation after a graft of its sub-unit, and it leaves buffers that again agree on
what they hold. -/

namespace Sys2Proof.Safety

open Sys2Proof.Machine

/-! ## Buffers that agree on what they hold -/

/-- Two buffers in canonical form that read alike below `n`. -/
structure AgreeBelow (n : Nat) (b b' : Buf) : Prop where
  wf : Buf.wf b = true
  wf' : Buf.wf b' = true
  read : ∀ i, i < n → Buf.read b' i = Buf.read b i

theorem AgreeBelow.mono {n m : Nat} {b b' : Buf} (h : AgreeBelow n b b') (hle : m ≤ n) : AgreeBelow m b b' :=
  ⟨h.wf, h.wf', fun i hi => h.read i (hi.trans_le hle)⟩

/-- The same byte written after the bytes that agree extends them. -/
theorem AgreeBelow.write {n : Nat} {b b' : Buf} (h : AgreeBelow n b b') (hn : n < 1024) (d : Byte) :
    AgreeBelow (n + 1) (Buf.write b n d) (Buf.write b' n d) where
  wf := Buf.write_wf h.wf hn d
  wf' := Buf.write_wf h.wf' hn d
  read i hi := by
    by_cases he : i = n
    · rw [he, Buf.read_write_self h.wf, Buf.read_write_self h.wf']
    · rw [Buf.read_write_ne _ _ he, Buf.read_write_ne _ _ he, h.read i (by omega)]

theorem AgreeBelow.firstBytes {n : Nat} {b b' : Buf} (h : AgreeBelow n b b') : firstBytes b' n = firstBytes b n := by
  rw [← Buf.slice_zero, ← Buf.slice_zero]
  exact Buf.slice_congr fun i _ hi => h.read i (by omega)

/-- RX_BUF and a buffer that agrees with it agree on the payload after a received byte (R160). -/
theorem AgreeBelow.rxBufAfter {c : Config} {d : Byte} {s t : State} {b : Buf}
    (h : AgreeBelow s.rx.cnt.toNat s.rx.buf b) (ht : rxByte c d s = .next t) :
    AgreeBelow t.rx.cnt.toNat (rxBufAfter d s.rx s.rx.buf) (rxBufAfter d s.rx b) := by
  unfold Sys2Proof.Safety.rxBufAfter
  split
  · next hp =>
    obtain ⟨hlt, hcnt⟩ := rxByte_cnt_of_data ht hp
    rw [hcnt]
    exact h.write hlt d
  · next hp => exact h.mono (rxByte_cnt_of_ne_data ht hp)

/-- TX_BUF and a buffer that agrees with it agree on the loaded bytes after a load (R203). -/
theorem AgreeBelow.txBufAfter {d : Byte} {s t : State} {b : Buf} (h : AgreeBelow s.tx.len.toNat s.tx.buf b)
    (ht : txLoad d s = .next t) :
    AgreeBelow t.tx.len.toNat (txBufAfter d s.tx s.tx.buf) (txBufAfter d s.tx b) := by
  rw [txLoad_len ht]
  unfold Sys2Proof.Safety.txBufAfter
  split
  · next hlt => exact h.write hlt d
  · exact h

/-- The state with other bytes in RX_BUF and in TX_BUF. -/
def withBufs (b b' : Buf) (s : State) : State :=
  { s with rx := { s.rx with buf := b }, tx := { s.tx with buf := b' } }

/-- R47's relation: the second state is the first with buffers that agree on the bytes received and loaded so far. -/
theorem sameVisible_iff {s s' : State} :
    SameVisible s s' ↔ ∃ b b', AgreeBelow s.rx.cnt.toNat s.rx.buf b ∧ AgreeBelow s.tx.len.toNat s.tx.buf b' ∧
      s' = withBufs b b' s := by
  constructor
  · intro h
    exact ⟨s'.rx.buf, s'.tx.buf, ⟨h.rxWf.1, h.rxWf.2, h.rxBuf⟩, ⟨h.txWf.1, h.txWf.2, h.txBuf⟩, h.fields⟩
  · rintro ⟨b, b', hb, hb', rfl⟩
    exact ⟨rfl, hb.read, hb'.read, ⟨hb.wf, hb.wf'⟩, ⟨hb'.wf, hb'.wf'⟩⟩

/-! ## The operations of the two framers -/

section Framers

variable {i : Instr} {s t : State} (h : exec i s = .next t) {b : Buf}
include h

/-- An RX operation looks at no byte of RX_BUF from RX_CNT on. An accepted block is the one place that reads RX_BUF, and
there RX_CNT is the whole payload. -/
theorem exec_rx_rest (hinv : UnitInv s) (hu : subUnit i = .rx) (hb : AgreeBelow s.rx.cnt.toNat s.rx.buf b) :
    ∃ b₂, AgreeBelow t.rx.cnt.toNat t.rx.buf b₂ ∧ ∀ o, exec i (graftRx o b s) = .next (graftRx o b₂ t) := by
  by_cases hf : s.fault = .none
  · have hf' (o : State) : (graftRx o b s).fault = .none := hf
    by_cases hd : ∃ d, i = .rxByte d
    · obtain ⟨d, rfl⟩ := hd
      have hrule := (exec_rxByte d hf).symm.trans h
      have hpay : s.rx.phase = .crcl → firstBytes b s.rx.size = firstBytes s.rx.buf s.rx.size := fun hp =>
        hinv.rx.full (.inr hp) ▸ hb.firstBytes
      refine ⟨rxBufAfter d s.rx b, ?_, fun o => (exec_rxByte d (hf' o)).trans (rxByte_graftRx hrule o hpay)⟩
      rw [rxByte_buf hrule]
      exact AgreeBelow.rxBufAfter (s := s.clearRes) hb hrule
    · obtain ⟨f, hq, hex⟩ := exec_rx_quiet hu (not_exists.1 hd)
      cases (hex s hf).symm.trans h
      exact ⟨b, hq.buf s ▸ hb.mono (hq.cnt s), fun o => by rw [hex _ (hf' o), hq.graft]⟩
  · have hr : i ≠ .reset := by rintro rfl; cases hu
    have hg : i ≠ .getFault := by rintro rfl; cases hu
    cases (exec_of_latched hf hr hg).symm.trans h
    exact ⟨b, hb, fun o => exec_of_latched (s := graftRx o b s) hf hr hg⟩

/-- A TX operation looks at no byte of TX_BUF from TX_LEN on. -/
theorem exec_tx_rest (hu : subUnit i = .tx) (hb : AgreeBelow s.tx.len.toNat s.tx.buf b) :
    ∃ b₂, AgreeBelow t.tx.len.toNat t.tx.buf b₂ ∧ ∀ o, exec i (graftTx o b s) = .next (graftTx o b₂ t) := by
  by_cases hf : s.fault = .none
  · have hf' (o : State) : (graftTx o b s).fault = .none := hf
    by_cases hl : ∃ d, i = .txLoad d
    · obtain ⟨d, rfl⟩ := hl
      have hrule := (exec_txLoad d hf).symm.trans h
      refine ⟨txBufAfter d s.tx b, ?_, fun o => (exec_txLoad d (hf' o)).trans (txLoad_graftTx hrule o b)⟩
      rw [txBuf_of_graftTx_self hrule (txLoad_graftTx hrule _ _)]
      exact AgreeBelow.txBufAfter (s := s.clearRes) hb hrule
    by_cases hh : i = .txSendHdr
    · subst hh
      have hrule := (exec_txSendHdr hf).symm.trans h
      have hg := fun o => txSendHdr_graftTx hrule o hb.firstBytes
      refine ⟨b, ?_, fun o => (exec_txSendHdr (hf' o)).trans (hg o).1⟩
      rw [txBuf_of_graftTx_self hrule (txSendHdr_graftTx hrule _ rfl).1]
      exact hb.mono (hg s).2
    by_cases hd : i = .txSendData
    · subst hd
      have hrule := (exec_txSendData hf).symm.trans h
      have hg := fun o => txSendData_graftTx hrule o hb.firstBytes
      refine ⟨b, ?_, fun o => (exec_txSendData (hf' o)).trans (hg o).1⟩
      rw [txBuf_of_graftTx_self hrule (txSendData_graftTx hrule _ rfl).1]
      exact hb.mono (hg s).2
    · obtain ⟨f, hq, hex⟩ := exec_tx_quiet hu (not_exists.1 hl) hh hd
      cases (hex s hf).symm.trans h
      exact ⟨b, hq.buf s ▸ hb.mono (hq.len s), fun o => by rw [hex _ (hf' o), hq.graft]⟩
  · have hr : i ≠ .reset := by rintro rfl; cases hu
    have hg : i ≠ .getFault := by rintro rfl; cases hu
    cases (exec_of_latched hf hr hg).symm.trans h
    exact ⟨b, hb, fun o => exec_of_latched (s := graftTx o b s) hf hr hg⟩

end Framers

/-! ## Every operation -/

/-- Other bytes in the buffers are no part of what a graft of another sub-unit takes along. -/
theorem graft_withBufs {u : SubUnit} (hr : u ≠ .rx) (ht : u ≠ .tx) (b b' : Buf) (s t : State) :
    graft u (withBufs b b' s) t = withBufs b b' (graft u s t) := by
  cases u with
  | rx => exact absurd rfl hr
  | tx => exact absurd rfl ht
  | system | crc | lf => rfl

theorem graftRx_withBufs (b b' b₂ : Buf) (s t : State) :
    graftRx (withBufs b b' s) b₂ t = withBufs b₂ b' (graft .rx s t) := rfl

theorem graftTx_withBufs (b b' b₂ : Buf) (s t : State) :
    graftTx (withBufs b b' s) b₂ t = withBufs b b₂ (graft .tx s t) := rfl

/-- An operation on states that differ in the unobservable bytes answers states that differ only there. -/
theorem exec_withBufs {i : Instr} {s t : State} (hinv : UnitInv s) (h : exec i s = .next t) {b b' : Buf}
    (hb : AgreeBelow s.rx.cnt.toNat s.rx.buf b) (hb' : AgreeBelow s.tx.len.toNat s.tx.buf b') :
    ∃ b₂ b₂', AgreeBelow t.rx.cnt.toNat t.rx.buf b₂ ∧ AgreeBelow t.tx.len.toNat t.tx.buf b₂' ∧
      exec i (withBufs b b' s) = .next (withBufs b₂ b₂' t) := by
  by_cases hr : i = .reset
  · subst hr
    cases (exec_reset s).symm.trans h
    exact ⟨[], [], ⟨rfl, rfl, fun _ _ => rfl⟩, ⟨rfl, rfl, fun _ _ => rfl⟩, exec_reset _⟩
  have hframe := eq_graft_of_exec hr h
  by_cases hrx : subUnit i = .rx
  · obtain ⟨b₂, hb₂, hex⟩ := exec_rx_rest h hinv hrx hb
    have htx : t.tx = s.tx := by rw [hframe, graft_tx (by simp [hrx])]
    refine ⟨b₂, b', hb₂, htx ▸ hb', ?_⟩
    have hg := hex (withBufs b b' s)
    rw [graftRx_withBufs, graftRx_withBufs, graft_self, ← hrx, ← hframe] at hg
    exact hg
  by_cases htx : subUnit i = .tx
  · obtain ⟨b₂, hb₂, hex⟩ := exec_tx_rest h htx hb'
    have hrx' : t.rx = s.rx := by rw [hframe, graft_rx hrx]
    refine ⟨b, b₂, hrx' ▸ hb, hb₂, ?_⟩
    have hg := hex (withBufs b b' s)
    rw [graftTx_withBufs, graftTx_withBufs, graft_self, ← htx, ← hframe] at hg
    exact hg
  · have hrx' : t.rx = s.rx := by rw [hframe, graft_rx hrx]
    have htx' : t.tx = s.tx := by rw [hframe, graft_tx htx]
    refine ⟨b, b', hrx' ▸ hb, htx' ▸ hb', ?_⟩
    have hg := exec_graft hr h (withBufs b b' s)
    rw [graft_withBufs hrx htx, graft_withBufs hrx htx, graft_self, ← hframe] at hg
    exact hg

/-- Settles O54, as a step of the relation R47 describes: the operation keeps `AgreeBelow` on both buffers, and the
result does not see the bytes beyond. -/
theorem bufferRestIsUnobservable : Obligations.BufferRestIsUnobservable := by
  intro i s s' hinv hsame
  obtain ⟨b, b', hb, hb', rfl⟩ := sameVisible_iff.1 hsame
  obtain ⟨t, ht, -⟩ := exec_keeps_unitInv i hinv
  obtain ⟨b₂, b₂', hb₂, hb₂', ht'⟩ := exec_withBufs hinv ht hb hb'
  exact ⟨t, withBufs b₂ b₂' t, ht, ht', rfl, sameVisible_iff.2 ⟨b₂, b₂', hb₂, hb₂', rfl⟩⟩

end Sys2Proof.Safety
end

section
/-! PROOFS. Where the model stops (log 7). Three operations index a 1024-byte buffer at a register that can lie beyond
it: RX_BYTE at RX_CNT, TX_LOAD and TX_SEND_DATA at TX_LEN. Each stops exactly there, and every other operation answers a
next state. -/

namespace Sys2Proof.Safety

open Sys2Proof.Machine

/-! ## An answer that is a next state unless one condition holds -/

/-- `o` is a next state, but under the condition `P` it is the stop `r`; it never refuses. -/
def StopsIff (o : Out) (r : Fault) (P : Prop) : Prop := (P ∧ o = .fault r) ∨ (¬P ∧ ∃ t, o = .next t)

namespace StopsIff

variable {o : Out} {r : Fault} {P : Prop}

theorem of_next (hP : ¬P) (t : State) : StopsIff (.next t) r P := .inr ⟨hP, t, rfl⟩

theorem of_fault (hP : P) : StopsIff (.fault r) r P := .inl ⟨hP, rfl⟩

theorem fault_iff (h : StopsIff o r P) (f : Fault) : o = .fault f ↔ r = f ∧ P := by
  rcases h with ⟨hP, rfl⟩ | ⟨hP, t, rfl⟩ <;> simp [hP]

theorem ne_refused (h : StopsIff o r P) (q : Refusal) : o ≠ .refused q := by
  rcases h with ⟨-, rfl⟩ | ⟨-, t, rfl⟩ <;> simp

/-- Under a latched fault the rule does not run, and so does not stop (R272). -/
theorem under_latch {rule : State → Out} {s : State} (h : StopsIff (rule s.clearRes) r P) :
    StopsIff (unlessLatched s rule) r (s.fault = .none ∧ P) := by
  by_cases hf : s.fault = .none
  · rw [unlessLatched_of_none hf]
    simpa [hf] using h
  · rw [unlessLatched_of_latched hf]
    exact of_next (fun hP => hf hP.1) _

end StopsIff

/-! ## The rules that index a buffer -/

/-- Only a payload byte is stored, at RX_CNT (R160); the payload an accepted block is read from fits (R162). -/
theorem rxByte_stopsIff (c : Config) (d : Byte) (s : State) :
    StopsIff (rxByte c d s) .rxBufRange (s.rx.phase = .data ∧ s.rx.cnt.toNat ≥ 1024) := by
  unfold rxByte
  cases hp : s.rx.phase with
  | idle | lead | seq | cmp | crch | purge | done | failed => exact .of_next (by simp) _
  | data =>
    show StopsIff (rxData d s) _ _
    rw [rxData_eq]
    split
    · exact .of_next (by omega) _
    · exact .of_fault ⟨rfl, by omega⟩
  | crcl =>
    show StopsIff (rxCrcl c d s) _ _
    rcases rxCrcl_cases c d s with ⟨-, e⟩ | ⟨-, -, e⟩ | ⟨-, -, -, e⟩ | ⟨-, e⟩ <;> rw [e] <;> exact .of_next (by simp) _

/-- A byte is loaded at TX_LEN (R203); a full buffer is a fault of the unit and no stop. -/
theorem txLoad_stopsIff (d : Byte) (s : State) : StopsIff (txLoad d s) .txBufRange (s.tx.len.toNat > 1024) := by
  rw [txLoad_eq]
  split
  · exact .of_next (by omega) _
  split
  · exact .of_next (by omega) _
  · exact .of_fault (by omega)

/-- A data block is read up to TX_LEN (R206). -/
theorem txSendData_stopsIff (s : State) :
    StopsIff (txSendData s) .txBufRange (s.tx.len.toNat > 1024 ∧ s.tx.phase = .ready) := by
  rcases txSendData_cases s with ⟨hp, e⟩ | ⟨hp, hl, e⟩ | ⟨hp, hl, e⟩ <;> rw [e]
  · exact .of_next (fun h => hp h.2) _
  · exact .of_fault ⟨hl, hp⟩
  · exact .of_next (fun h => by omega) _

/-! ## Every other operation -/

/-- TX_SEND_HDR reads TX_BUF too, but checks first that at most 128 bytes are loaded (R205). -/
theorem txSendHdr_next (s : State) : ∃ t, txSendHdr s = .next t := by
  rcases txSendHdr_cases s with ⟨-, e⟩ | ⟨-, -, e⟩ | ⟨-, -, e⟩ <;> exact ⟨_, e⟩

/-- An operation other than the three that can stop answers a next state, whether or not a fault is latched. -/
theorem exec_next_of_no_index {i : Instr} (s : State) (hb : ∀ d, i ≠ .rxByte d) (hl : ∀ d, i ≠ .txLoad d)
    (hd : i ≠ .txSendData) : ∃ t, exec i s = .next t := by
  by_cases hr : i = .reset
  · exact ⟨_, hr ▸ exec_reset s⟩
  by_cases hg : i = .getFault
  · exact ⟨_, hg ▸ exec_getFault s⟩
  by_cases hf : s.fault = .none
  · cases hu : subUnit i with
    | system =>
      rcases subUnit_eq_system hu with rfl | rfl | rfl
      · exact ⟨_, exec_nop hf⟩
      · exact absurd rfl hr
      · exact absurd rfl hg
    | crc =>
      rcases subUnit_eq_crc hu with rfl | ⟨d, rfl⟩ | rfl
      · exact ⟨_, exec_crcInit hf⟩
      · exact ⟨_, exec_crcByte d hf⟩
      · exact ⟨_, exec_crcRead hf⟩
    | lf =>
      rcases subUnit_eq_lf hu with ⟨d, rfl⟩ | rfl | rfl
      · exact ⟨_, exec_lfByte d hf⟩
      · exact ⟨_, exec_lfDrain hf⟩
      · exact ⟨_, exec_lfStatus hf⟩
    | rx =>
      obtain ⟨f, -, hex⟩ := exec_rx_quiet hu hb
      exact ⟨_, hex s hf⟩
    | tx =>
      by_cases hh : i = .txSendHdr
      · obtain ⟨t, ht⟩ := txSendHdr_next s.clearRes
        exact ⟨t, hh ▸ (exec_txSendHdr hf).trans ht⟩
      · obtain ⟨f, -, hex⟩ := exec_tx_quiet hu hl hh hd
        exact ⟨_, hex s hf⟩
  · exact ⟨_, exec_of_latched hf hr hg⟩

/-- Settles O51, by the three operations that index a buffer and all the others. -/
theorem execStopsOnlyBeyondABuffer : Obligations.ExecStopsOnlyBeyondABuffer := by
  intro i s
  by_cases hb : ∃ d, i = .rxByte d
  · obtain ⟨d, rfl⟩ := hb
    have h : StopsIff (exec (.rxByte d) s) _ _ := (rxByte_stopsIff Config.unit d s.clearRes).under_latch
    exact ⟨(h.fault_iff _).trans (by simp), (h.fault_iff _).trans (by simp), h.ne_refused⟩
  by_cases hl : ∃ d, i = .txLoad d
  · obtain ⟨d, rfl⟩ := hl
    have h : StopsIff (exec (.txLoad d) s) _ _ := (txLoad_stopsIff d s.clearRes).under_latch
    exact ⟨(h.fault_iff _).trans (by simp), (h.fault_iff _).trans (by simp), h.ne_refused⟩
  by_cases hd : i = .txSendData
  · subst hd
    have h : StopsIff (exec .txSendData s) _ _ := (txSendData_stopsIff s.clearRes).under_latch
    exact ⟨(h.fault_iff _).trans (by simp), (h.fault_iff _).trans (by simp), h.ne_refused⟩
  · obtain ⟨t, ht⟩ := exec_next_of_no_index s (not_exists.1 hb) (not_exists.1 hl) hd
    simp [ht, hb, hl, hd]

end Sys2Proof.Safety
end

section
/-! PROOFS. The encoding (30_encoding.md R80 to R85): a word decodes exactly to the operation its table row reads from
IMM8, that row is the row of the operation's own word, and the words with a row are those outside the reserved ranges of
R84. -/

namespace Sys2Proof.Safety

/-! ## What a table row reads -/

/-- The table row form `f` reads IMM8 = `imm` as the operation `i` (R82, R83). -/
def FormReads : Form → Byte → Instr → Prop
  | .plain j, imm, i => imm = 0x00#8 ∧ j = i
  | .imm8 mk, imm, i => mk imm = i

/-- All the decoder can accept: the operation that the row of the word's OP reads from its IMM8 (R85). -/
theorem decode_eq_ok_iff (w : CmdWord) (i : Instr) :
    decode w = .ok i ↔ ∃ f, findOp opTable w.op = some f ∧ FormReads f w.imm8 i := by
  unfold decode
  cases findOp opTable w.op with
  | none => simp
  | some f =>
    cases f with
    | imm8 mk => simp [FormReads]
    | plain j => by_cases himm : w.imm8 = 0x00#8 <;> simp [FormReads, himm]

/-- Row by row of the table R81: an operation that the row reads from an IMM8 has the word of these two fields. -/
theorem encode_of_row :
    ∀ row ∈ opTable, ∀ (imm : Byte) (i : Instr), FormReads row.2 imm i → encode i = mkWord row.1 imm := by
  simp [opTable, FormReads, encode, opOf, immOf]

/-! ## Decode and encode agree -/

/-- Every operation is what its word decodes to (R81, R82). -/
theorem decode_encode (i : Instr) : decode (encode i) = .ok i := by
  cases i with
  | crcByte d | lfByte d | rxByte d | txResp d | txLoad d => exact decode_mkWord_imm8 rfl d
  | _ => exact decode_mkWord_plain rfl

/-- Every word that decodes is the word of its operation. -/
theorem encode_of_decode {w : CmdWord} {i : Instr} (h : decode w = .ok i) : encode i = w := by
  obtain ⟨f, hf, hr⟩ := (decode_eq_ok_iff w i).1 h
  exact (encode_of_row _ (findOp_mem hf) _ i hr).trans (mkWord_op_imm8 w)

/-- Every operand is a byte, so every operation is well formed (R82). -/
theorem instr_wellFormed (i : Instr) : i.wellFormed = true := by
  cases i with
  | crcByte d | lfByte d | rxByte d | txResp d | txLoad d => exact decide_eq_true (Nat.le_of_lt_succ d.isLt)
  | _ => rfl

/-- Settles O43, by the row of the table an operation's word is read by. -/
theorem decodeEncodeAgree : Obligations.DecodeEncodeAgree :=
  ⟨fun i _ => decode_encode i, fun _ i h => ⟨encode_of_decode h, instr_wellFormed i⟩⟩

/-! ## Which words decode -/

/-- The two checks R83 and R84 ask of a word, read as propositions. -/
theorem wellFormed_iff (w : CmdWord) :
    w.wellFormed = true ↔ opReserved w.op = false ∧ (opTakesByte w.op = true ∨ w.imm8 = 0x00#8) := by
  simp [CmdWord.wellFormed]

/-- The lookup fails exactly where no row has the OP. -/
theorem findOp_eq_none_iff (rows : List (Byte × Form)) (op : Byte) :
    findOp rows op = none ↔ ∀ row ∈ rows, row.1 ≠ op := by
  induction rows with
  | nil => simp [findOp]
  | cons row rows ih => by_cases ho : row.1 = op <;> simp [findOp, ho, ih]

/-- An OP outside the reserved ranges has a row (R84). -/
theorem findOp_of_not_reserved {op : Byte} (h : opReserved op = false) : ∃ f, findOp opTable op = some f := by
  rw [← Option.ne_none_iff_exists', Ne, findOp_eq_none_iff]
  intro hnone
  simp only [opTable, List.forall_mem_cons, ne_eq, ← BitVec.toNat_inj, BitVec.toNat_ofNat] at hnone
  simp only [opReserved, Bool.or_eq_false_iff, Bool.and_eq_false_iff, decide_eq_false_iff_not] at h
  omega

/-- Whether a table row form takes the byte IMM8. -/
def formTakesByte : Form → Bool
  | .plain _ => false
  | .imm8 _ => true

/-- No row has a reserved OP (R84). -/
theorem opReserved_of_row : ∀ row ∈ opTable, opReserved row.1 = false := by decide

/-- The rows that take a byte are those of the five OP values of R82. -/
theorem opTakesByte_of_row : ∀ row ∈ opTable, opTakesByte row.1 = formTakesByte row.2 := by decide

/-- A row form reads an operation from IMM8 exactly when it takes a byte or IMM8 is 0x00 (R83). -/
theorem formReads_iff (f : Form) (imm : Byte) :
    (∃ i, FormReads f imm i) ↔ formTakesByte f = true ∨ imm = 0x00#8 := by
  cases f with
  | plain j => simp [FormReads, formTakesByte]
  | imm8 mk => simp [FormReads, formTakesByte]

/-- A word decodes exactly when it passes the two checks of R83 and R84. -/
theorem decodes_iff_wellFormed (w : CmdWord) : (∃ i, decode w = .ok i) ↔ w.wellFormed = true := by
  rw [wellFormed_iff]
  constructor
  · rintro ⟨i, hi⟩
    obtain ⟨f, hf, hr⟩ := (decode_eq_ok_iff w i).1 hi
    have hrow := findOp_mem hf
    have himm := (formReads_iff f w.imm8).1 ⟨i, hr⟩
    exact ⟨opReserved_of_row _ hrow, by rwa [opTakesByte_of_row _ hrow]⟩
  · rintro ⟨hop, himm⟩
    obtain ⟨f, hf⟩ := findOp_of_not_reserved hop
    rw [opTakesByte_of_row _ (findOp_mem hf)] at himm
    obtain ⟨i, hr⟩ := (formReads_iff f w.imm8).2 himm
    exact ⟨i, (decode_eq_ok_iff w i).2 ⟨f, hf, hr⟩⟩

theorem toNat_op (w : CmdWord) : w.op.toNat = w.toNat / 256 := by
  have := w.isLt
  simp only [CmdWord.op, BitVec.extractLsb'_toNat, Nat.shiftRight_eq_div_pow]
  omega

theorem toNat_imm8 (w : CmdWord) : w.imm8.toNat = w.toNat % 256 := by
  simp [CmdWord.imm8, BitVec.extractLsb'_toNat]

/-- Settles O44: the checks of `CmdWord.wellFormed`, read on the numbers of the two fields. -/
theorem decodeRejectsExactlyIllegalWords : Obligations.DecodeRejectsExactlyIllegalWords := by
  intro w op imm
  have hop : w.op.toNat = op := toNat_op w
  have himm : w.imm8.toNat = imm := toNat_imm8 w
  have hlt : w.op.toNat < 256 := w.op.isLt
  rw [decodes_iff_wellFormed, wellFormed_iff]
  simp only [opReserved, opTakesByte, Bool.or_eq_false_iff, Bool.and_eq_false_iff, decide_eq_false_iff_not,
    Bool.or_eq_true, decide_eq_true_eq, ← BitVec.toNat_inj, BitVec.toNat_ofNat, hop, himm] at hlt ⊢
  omega

/-- Settles O42: each word is evaluated. -/
theorem wordsDecodeAsTheTableSays : Obligations.WordsDecodeAsTheTableSays :=
  ⟨rfl, rfl, rfl, rfl, rfl, rfl, rfl, rfl, rfl, rfl⟩

end Sys2Proof.Safety
end

section
/-! PROOFS. Runs of operations (00_scope.md R67, R69): how a run is put together from its operations and from its parts,
and what a run in which every operation answers the empty record puts on the wire. -/

namespace Sys2Proof.Safety

open Sys2Proof.Machine

/-! ## Putting a run together -/

/-- A run whose first operation answers next `u` goes on from `u`. -/
theorem runOps_cons {i : Instr} {is : List Instr} {s u t : State} {rs : List Res} (hi : exec i s = .next u)
    (his : runOps is u = some (t, rs)) : runOps (i :: is) s = some (t, u.res :: rs) := by
  simp [runOps, hi, his]

/-- A run of one operation. -/
theorem runOps_single {i : Instr} {s t : State} (hi : exec i s = .next t) : runOps [i] s = some (t, [t.res]) :=
  runOps_cons hi rfl

/-- Two runs in a row. -/
theorem runOps_append {is js : List Instr} {s u t : State} {rs qs : List Res} (his : runOps is s = some (u, rs))
    (hjs : runOps js u = some (t, qs)) : runOps (is ++ js) s = some (t, rs ++ qs) := by
  induction is generalizing s rs with
  | nil =>
    cases his
    exact hjs
  | cons i is ih =>
    cases hi : exec i s with
    | next v =>
      simp only [runOps, hi, Option.map_eq_some_iff] at his
      obtain ⟨⟨w, ps⟩, hw, he⟩ := his
      cases he
      exact runOps_cons hi (ih hw)
    | fault r => simp [runOps, hi] at his
    | refused r => simp [runOps, hi] at his

/-! ## The records of a run in two parts -/

theorem wire_append (rs qs : List Res) : wire (rs ++ qs) = wire rs ++ wire qs := by simp [wire]

theorem events_append (rs qs : List Res) : events (rs ++ qs) = events rs ++ events qs := by simp [events]

theorem allOk_append {rs qs : List Res} : allOk (rs ++ qs) ↔ allOk rs ∧ allOk qs := by
  simp [allOk, or_imp, forall_and]

/-! ## Runs in which every operation answers the empty record -/

/-- `n` empty records. -/
abbrev emptyRecords (n : Nat) : List Res := List.replicate n Res.empty

@[simp] theorem wire_emptyRecords (n : Nat) : wire (emptyRecords n) = [] := by simp [wire, Res.empty]

@[simp] theorem events_emptyRecords (n : Nat) : events (emptyRecords n) = [] := by simp [events, Res.empty]

@[simp] theorem allOk_emptyRecords (n : Nat) : allOk (emptyRecords n) := fun r hr => by
  rw [List.eq_of_mem_replicate hr]
  rfl

/-- The operations `is` take `s` to `t`, each answering the empty record. -/
def QuietRun (is : List Instr) (s t : State) : Prop := runOps is s = some (t, emptyRecords is.length)

theorem QuietRun.nil (s : State) : QuietRun [] s s := rfl

theorem QuietRun.single {i : Instr} {s t : State} (h : exec i s = .next t) (hres : t.res = Res.empty) :
    QuietRun [i] s t := by
  rw [QuietRun, runOps_single h, hres]
  rfl

theorem QuietRun.append {is js : List Instr} {s u t : State} (his : QuietRun is s u) (hjs : QuietRun js u t) :
    QuietRun (is ++ js) s t := by
  rw [QuietRun, List.length_append, emptyRecords, List.replicate_add]
  exact runOps_append his hjs

/-- A quiet run before one last operation: its record is the only one that is not empty. -/
theorem QuietRun.runOps_concat {is : List Instr} {i : Instr} {s u t : State} (his : QuietRun is s u)
    (hi : exec i u = .next t) : runOps (is ++ [i]) s = some (t, emptyRecords is.length ++ [t.res]) :=
  runOps_append his (runOps_single hi)

theorem allOk_quiet_concat (n : Nat) {r : Res} : allOk (emptyRecords n ++ [r]) ↔ r.st = .ok := by
  rw [allOk_append, and_iff_right (allOk_emptyRecords n)]
  simp [allOk]

theorem wire_quiet_concat (n : Nat) (r : Res) : wire (emptyRecords n ++ [r]) = r.tx := by
  rw [wire_append, wire_emptyRecords]
  simp [wire]

theorem events_quiet_concat (n : Nat) (r : Res) : events (emptyRecords n ++ [r]) = r.ev := by
  rw [events_append, events_emptyRecords]
  simp [events]

end Sys2Proof.Safety
end

section
/-! PROOFS. CRC_OF over a byte list (30_encoding.md R96, 40_crc.md R111 to R114). -/

namespace Sys2Proof.Safety

open Sys2Proof.Machine

/-- CRC_BYTES steps the accumulator through the list and answers empty records (R113). -/
theorem crcBytes_quietRun (l : List Byte) {s : State} (hf : s.fault = .none) (hres : s.res = Res.empty) :
    QuietRun (crcBytes l) s (s.setCrcAcc (l.foldl crcStep s.crcAcc)) := by
  induction l generalizing s with
  | nil => exact .nil s
  | cons d l ih =>
    have hclear : s.clearRes = s := by rw [State.clearRes, ← hres]
    have hd : QuietRun [.crcByte d] s (s.setCrcAcc (crcStep s.crcAcc d)) :=
      .single (by rw [exec_crcByte d hf, hclear]) hres
    exact hd.append (ih (s := s.setCrcAcc _) hf hres)

/-- CRC_INIT and CRC_BYTES leave CRC-16 of the list in the accumulator (R111). -/
theorem crcInit_crcBytes_quietRun (l : List Byte) {s : State} (hf : s.fault = .none) :
    QuietRun (.crcInit :: crcBytes l) s (s.clearRes.setCrcAcc (crc16 l)) :=
  (QuietRun.single (exec_crcInit hf) rfl).append (crcBytes_quietRun l (s := s.clearRes.setCrcAcc _) hf rfl)

/-- The check value of R5 and R114. -/
theorem crc16_check_value : crc16 (asciiBytes "123456789") = 0x31C3#16 := by decide +kernel

/-- Settles O7, by induction on the list, before the one CRC_READ that answers the accumulator. -/
theorem crcOfReadsCrc16 : Obligations.CrcOfReadsCrc16 := by
  refine ⟨fun l s hf => ?_, crc16_check_value⟩
  have hread := exec_crcRead (s := s.clearRes.setCrcAcc (crc16 l)) hf
  exact ⟨_, (crcInit_crcBytes_quietRun l hf).runOps_concat hread, (allOk_quiet_concat _).2 rfl⟩

end Sys2Proof.Safety
end

section
/-! PROOFS. A block frame (30_encoding.md R89) received in phase LEAD: what RX_BYTE does with each part of it, what the
whole frame but its last byte leaves in the RX registers, and the acceptance of a data block. -/

namespace Sys2Proof.Machine

/-! ## Buffers filled from the start -/

/-- Filling with a list one byte longer is one more write. -/
theorem Buf.fill_concat (m : Buf) (i : Nat) (l : List Byte) (v : Byte) :
    Buf.fill m i (l ++ [v]) = Buf.write (Buf.fill m i l) (i + l.length) v := by
  induction l generalizing m i with
  | nil => rfl
  | cons x l ih =>
    simp only [List.cons_append, Buf.fill, ih, List.length_cons]
    congr 1
    omega

/-- Filling inside the capacity keeps the canonical form. -/
theorem Buf.fill_wf {m : Buf} (h : Buf.wf m = true) {i : Nat} {l : List Byte} (hl : i + l.length ≤ Buf.capacity) :
    Buf.wf (Buf.fill m i l) = true :=
  memWrite_wf (l := l) (i := i) h (by rw [memWrite, if_pos hl])

/-- A buffer filled from its start reads back the list, whatever it held before. -/
theorem Buf.firstBytes_fill {m : Buf} (h : Buf.wf m = true) (l : List Byte) (hl : l.length ≤ Buf.capacity) :
    Safety.firstBytes (Buf.fill m 0 l) l.length = l := by
  rw [← Buf.slice_zero]
  induction l using List.reverseRecOn with
  | nil => rfl
  | append_singleton l v ih =>
    rw [List.length_append, List.length_singleton] at hl ⊢
    have hlt : l.length ≤ Buf.capacity := by omega
    rw [Buf.fill_concat, Nat.zero_add, Buf.slice_write_end (Buf.fill_wf h (by omega)), ih hlt]

/-! ## The two checks a well-formed frame meets (R162) -/

/-- The checksum is put together again from its two bytes (R62). -/
theorem crcJoin_crcHi_crcLo (c : Crc) : crcJoin (crcHi c) (crcLo c) = c := by
  ext i hi
  by_cases hlow : i < 8
  · simp [crcJoin, crcHi, crcLo, hlow, BitVec.getLsbD_eq_getElem hi]
  · have hsub : i - 8 < 8 := by omega
    have hback : 8 + (i - 8) = i := by omega
    simp [crcJoin, crcHi, crcLo, hlow, hsub, hback, BitVec.getLsbD_eq_getElem hi]

/-- A byte and its complement add up to 255 (R89). -/
theorem toNat_add_complement (sq : Byte) : sq.toNat + (255#8 - sq).toNat = 255 := by
  bv_omega

end Sys2Proof.Machine

namespace Sys2Proof.Safety

open Sys2Proof.Machine

/-! ## The RX registers during a frame -/

/-- After the three bytes before the payload (R155, R159). -/
def rxOpened (big : Bool) (sq cm : Byte) (r : Rx) : Rx :=
  { r with phase := .data, big := big, seqb := sq, cmpb := cm, cnt := 0#11, crc := Config.crcInitValue, eotc := 0#2,
           canc := 0#2 }

/-- After the payload bytes `p` of a block that was just opened (R160). -/
def rxFilled (p : List Byte) (r : Rx) : Rx :=
  { r with buf := Buf.fill r.buf 0 p, crc := crc16 p, cnt := BitVec.ofNat 11 p.length,
           phase := if p.length = r.size then .crch else .data }

/-- After a frame with payload `p`, all but its last byte (R161). -/
def rxBeforeLast (big : Bool) (sq : Byte) (p : List Byte) (r : Rx) : Rx :=
  { rxFilled p (rxOpened big sq (255#8 - sq) r) with crch := crcHi (crc16 p), phase := .crcl }

/-- The mode byte of a well-formed frame says how long its payload is (R28, R89). -/
theorem length_eq_rxOpened_size {mode : Byte} {p : List Byte}
    (hm : (mode = SOH ∧ p.length = 128) ∨ (mode = STX ∧ p.length = 1024)) (sq cm : Byte) (r : Rx) :
    p.length = (rxOpened (decide (mode = STX)) sq cm r).size := by
  rcases hm with ⟨rfl, hl⟩ | ⟨rfl, hl⟩ <;> rw [hl] <;> rfl

/-- With no payload byte received, only the opening has happened. -/
theorem rxFilled_nil (big : Bool) (sq cm : Byte) (r : Rx) :
    rxFilled [] (rxOpened big sq cm r) = rxOpened big sq cm r := by
  have hsize : ([] : List Byte).length ≠ (rxOpened big sq cm r).size := Nat.ne_of_lt (Rx.size_pos _)
  rw [rxFilled, if_neg hsize]
  rfl

/-! ## One byte, by the phase it is received in -/

section OneByte

variable {c : Config} {s : State}

/-- A lead byte that opens a block (R155) clears the consecutive counters (R154). -/
theorem rxByte_open {mode : Byte} (hm : mode = SOH ∨ mode = STX) (hp : s.rx.phase = .lead) :
    rxByte c mode s =
      .next (s.setRx { s.rx with eotc := 0#2, canc := 0#2, big := decide (mode = STX), phase := .seq }) := by
  rw [rxByte, hp]
  rcases hm with rfl | rfl <;> rfl

theorem rxByte_seq (d : Byte) (hp : s.rx.phase = .seq) : rxByte c d s = .next (rxSeq d s) := by
  rw [rxByte, hp]

theorem rxByte_cmp (d : Byte) (hp : s.rx.phase = .cmp) : rxByte c d s = .next (rxCmp d s) := by
  rw [rxByte, hp]

theorem rxByte_data (d : Byte) (hp : s.rx.phase = .data) : rxByte c d s = rxData d s := by
  rw [rxByte, hp]

theorem rxByte_crch (d : Byte) (hp : s.rx.phase = .crch) : rxByte c d s = .next (rxCrch d s) := by
  rw [rxByte, hp]

/-- A payload byte after the payload bytes `p`, with room for it (R160). -/
theorem rxByte_filled {p : List Byte} {r : Rx} (d : Byte) (hlt : p.length < r.size) :
    rxByte c d (s.setRx (rxFilled p r)) = .next (s.setRx (rxFilled (p ++ [d]) r)) := by
  have hcap : p.length < 1024 := hlt.trans_le (Rx.size_le r)
  have hphase : (rxFilled p r).phase = .data := if_neg hlt.ne
  have hcnt : (rxFilled p r).cnt.toNat = p.length := by
    rw [rxFilled, BitVec.toNat_ofNat]
    omega
  have hbuf : Buf.write (rxFilled p r).buf p.length d = Buf.fill r.buf 0 (p ++ [d]) := by
    rw [Buf.fill_concat, Nat.zero_add]
    rfl
  have hsucc : (rxFilled p r).cnt + 1#11 = BitVec.ofNat 11 (p ++ [d]).length := by
    rw [List.length_append, BitVec.ofNat_add]
    rfl
  have hsize : (rxFilled p r).size = r.size := rfl
  rw [rxByte_data d hphase, rxData_eq, State.setRx_rx, hcnt, if_pos hcap, hbuf, hsucc, hphase, hsize]
  simp [rxFilled, crc16_append_single, State.setRx]

/-- The last byte of a valid data block delivers the payload RX_BUF holds (R162, R164). -/
theorem rxByte_accept {d : Byte} {p : List Byte} (hp : s.rx.phase = .crcl) (hv : BlockIsValid s.rx d)
    (hh : s.rx.hdr = true) (hread : firstBytes s.rx.buf s.rx.size = p) : rxByte c d s = .next (rxDataBlock p s) := by
  obtain ⟨hsum, hseq, hcrc⟩ := hv
  rw [rxByte, hp]
  show rxCrcl c d s = _
  rcases rxCrcl_cases c d s with ⟨h, -⟩ | ⟨-, h, -⟩ | ⟨-, -, h, -⟩ | ⟨-, e⟩
  · exact absurd hsum h
  · exact absurd hseq h
  · exact absurd hcrc h
  · rw [e, if_pos hh, hread]

end OneByte

/-! ## The run of a frame -/

/-- One byte that answers the empty record, as a run. -/
theorem rxByte_quietRun {d : Byte} {s t : State} (hf : s.fault = .none) (h : rxByte Config.unit d s.clearRes = .next t)
    (hres : t.res = Res.empty) : QuietRun (rxBytes [d]) s t :=
  .single ((exec_rxByte d hf).trans h) hres

theorem rxBytes_append (l l' : List Byte) : rxBytes (l ++ l') = rxBytes l ++ rxBytes l' := List.map_append

section Frame

variable {s : State}

/-- The three bytes before the payload (R155, R159). -/
theorem rxBytes_open_quietRun {mode : Byte} (hm : mode = SOH ∨ mode = STX) (sq cm : Byte) (hf : s.fault = .none)
    (hp : s.rx.phase = .lead) :
    QuietRun (rxBytes [mode, sq, cm]) s (s.clearRes.setRx (rxOpened (decide (mode = STX)) sq cm s.rx)) :=
  (rxByte_quietRun hf (rxByte_open hm hp) rfl).append <|
    (rxByte_quietRun (s := s.clearRes.setRx _) hf (rxByte_seq sq rfl) rfl).append <|
      rxByte_quietRun (s := s.clearRes.setRx _) hf (rxByte_cmp cm rfl) rfl

/-- The payload, by induction on its end: RX_BUF is filled from its start and RX_CRC follows (R160). -/
theorem rxBytes_payload_quietRun (p : List Byte) {r : Rx} (hf : s.fault = .none) (hle : p.length ≤ r.size) :
    QuietRun (rxBytes p) (s.clearRes.setRx (rxFilled [] r)) (s.clearRes.setRx (rxFilled p r)) := by
  induction p using List.reverseRecOn with
  | nil => exact .nil _
  | append_singleton p d ih =>
    rw [List.length_append, List.length_singleton] at hle
    rw [rxBytes_append]
    exact (ih (by omega)).append (rxByte_quietRun hf (rxByte_filled (s := s.clearRes) d (by omega)) rfl)

/-- A whole frame but its last byte, with any sequence number (R89). -/
theorem rxBytes_beforeLast_quietRun {mode : Byte} (sq : Byte) {p : List Byte}
    (hm : (mode = SOH ∧ p.length = 128) ∨ (mode = STX ∧ p.length = 1024)) (hf : s.fault = .none)
    (hp : s.rx.phase = .lead) :
    QuietRun (rxBytes ([mode, sq, 255#8 - sq] ++ p ++ [crcHi (crc16 p)])) s
      (s.clearRes.setRx (rxBeforeLast (decide (mode = STX)) sq p s.rx)) := by
  have hsize := length_eq_rxOpened_size hm sq (255#8 - sq) s.rx
  have hopen := rxBytes_open_quietRun (hm.imp And.left And.left) sq (255#8 - sq) hf hp
  have hfill := rxBytes_payload_quietRun p hf hsize.le
  rw [rxFilled_nil] at hfill
  have hhi := rxByte_crch (c := Config.unit) (crcHi (crc16 p)) (s := s.clearRes.setRx (rxFilled p _)) (if_pos hsize)
  rw [rxBytes_append, rxBytes_append]
  exact (hopen.append hfill).append (rxByte_quietRun hf hhi rfl)

end Frame

/-! ## Acceptance -/

theorem frameOf_eq (mode sq : Byte) (p : List Byte) :
    frameOf mode sq p = ([mode, sq, 255#8 - sq] ++ p ++ [crcHi (crc16 p)]) ++ [crcLo (crc16 p)] := by
  simp [frameOf, crcHi, crcLo]

/-- With the expected sequence number, the last byte of a frame finds a valid block (R162). -/
theorem blockIsValid_beforeLast (big : Bool) (p : List Byte) (r : Rx) :
    BlockIsValid (rxBeforeLast big r.exp p r) (crcLo (crc16 p)) :=
  ⟨toNat_add_complement r.exp, rfl, (crcJoin_crcHi_crcLo (crc16 p)).symm⟩

/-- The last byte of a frame with the expected sequence number delivers its payload, where the length is the mode's
(R164). -/
theorem exec_rxByte_last {big : Bool} {p : List Byte} {s : State} (hf : s.fault = .none) (hh : s.rx.hdr = true)
    (hwf : Buf.wf s.rx.buf = true) (hsize : p.length = (rxBeforeLast big s.rx.exp p s.rx).size) :
    exec (.rxByte (crcLo (crc16 p))) (s.clearRes.setRx (rxBeforeLast big s.rx.exp p s.rx)) =
      .next (rxDataBlock p (s.clearRes.setRx (rxBeforeLast big s.rx.exp p s.rx))) := by
  have hcap : p.length ≤ Buf.capacity := hsize.trans_le (Rx.size_le _)
  have hread : firstBytes (rxBeforeLast big s.rx.exp p s.rx).buf (rxBeforeLast big s.rx.exp p s.rx).size = p := by
    rw [← hsize]
    exact Buf.firstBytes_fill hwf p hcap
  exact (exec_rxByte (s := s.clearRes.setRx _) _ hf).trans
    (rxByte_accept (s := s.clearRes.setRx _) rfl (blockIsValid_beforeLast big p s.rx) hh hread)

/-- Settles O57: every byte of the frame but the last answers the empty record, and the last finds the block valid and
RX_BUF filled with the payload. -/
theorem wellFormedDataFrameIsAccepted : Obligations.WellFormedDataFrameIsAccepted := by
  intro mode p s hf hp hh hwf hm
  have hquiet := rxBytes_beforeLast_quietRun s.rx.exp hm hf hp
  have hlast := exec_rxByte_last hf hh hwf (length_eq_rxOpened_size hm s.rx.exp (255#8 - s.rx.exp) s.rx)
  rw [frameOf_eq, rxBytes_append]
  exact ⟨_, _, hquiet.runOps_concat hlast, (allOk_quiet_concat _).2 rfl, wire_quiet_concat _ _,
    events_quiet_concat _ _, rfl, rfl, hh, rfl, rfl, rfl⟩

end Sys2Proof.Safety
end

section
/-! PROOFS. What the encoding of one operation comes to (30_encoding.md R81 to R83): the table's row for an OP decides
the words of that OP, and a word no row reads raises ILLEGAL_OP. -/

namespace Sys2Proof.Safety

open Sys2Proof.Machine

/-- A word that decodes to no operation raises ILLEGAL_OP, or is refused by the latch (R273). -/
theorem raisesIllegalOp_of_decode_error {w : CmdWord} {e : Reject} (h : decode w = .error e) : RaisesIllegalOp w := by
  intro s rest hport
  rw [step_of_decode_error hport h]
  obtain ⟨hf, hill⟩ | ⟨hf, hill⟩ := illegalWord_cases { s with port := rest }
  · exact ⟨fun _ => hill, fun hne => absurd hf hne⟩
  · exact ⟨fun heq => absurd heq hf, fun _ => hill⟩

/-- The row of an operation without operand gives its word and makes every other IMM8 illegal (R81, R83). -/
theorem encodesPlain_of_row {i : Instr} {op : Byte} (h : findOp opTable op = some (.plain i)) : EncodesPlain i op :=
  ⟨encode_of_decode (decode_mkWord_plain h), decode_mkWord_plain h, fun _ himm =>
    raisesIllegalOp_of_decode_error (decode_mkWord_nonzero h himm)⟩

/-- The row of an operation with the operand IMM8 gives its word for every operand (R81, R82). -/
theorem encodesByte_of_row {mk : Byte → Instr} {op : Byte} (h : findOp opTable op = some (.imm8 mk)) :
    EncodesByte mk op := fun d =>
  ⟨encode_of_decode (decode_mkWord_imm8 h d), decode_mkWord_imm8 h d⟩

end Sys2Proof.Safety
end

section
/-! PROOFS. The laws of CRC-16 (40_crc.md R110, R111, R115, R116). Each is proved of one round, carried to the eight
rounds of a step, and from the step to a whole list. -/

namespace Sys2Proof.Machine

/-! ## Linearity over XOR (R116) -/

/-- One round is linear: the shift is, and the polynomial goes in once for each top bit that is set. -/
theorem crcRound_xor (a b : Crc) : crcRound (a ^^^ b) = crcRound a ^^^ crcRound b := by
  unfold crcRound
  rw [BitVec.getLsbD_xor, BitVec.shiftLeft_xor_distrib]
  generalize a <<< 1 = x, b <<< 1 = y
  cases a.getLsbD 15 <;> cases b.getLsbD 15
  case false.false => rfl
  case false.true => exact BitVec.xor_assoc x y _
  case true.false =>
    change x ^^^ y ^^^ 0x1021#16 = x ^^^ 0x1021#16 ^^^ y
    ac_rfl
  case true.true =>
    calc x ^^^ y = x ^^^ y ^^^ (0x1021#16 ^^^ 0x1021#16) := by rw [BitVec.xor_self, BitVec.xor_zero]
      _ = x ^^^ 0x1021#16 ^^^ (y ^^^ 0x1021#16) := by ac_rfl

theorem crcRounds_xor (n : Nat) (a b : Crc) : crcRounds n (a ^^^ b) = crcRounds n a ^^^ crcRounds n b := by
  induction n generalizing a b with
  | zero => rfl
  | succ n ih => simp only [crcRounds, crcRound_xor, ih]

/-- The step is linear in the CRC and the byte together. -/
theorem crcStep_xor (c c' : Crc) (d d' : Byte) : crcStep (c ^^^ c') (d ^^^ d') = crcStep c d ^^^ crcStep c' d' := by
  unfold crcStep
  rw [← crcRounds_xor, BitVec.setWidth_xor, BitVec.shiftLeft_xor_distrib]
  congr 1
  ac_rfl

/-- Stepping through two lists of one length side by side is stepping through their XOR. -/
theorem foldl_crcStep_xor {a b : List Byte} (h : a.length = b.length) (c c' : Crc) :
    (List.zipWith (fun x y => x ^^^ y) a b).foldl crcStep (c ^^^ c') = a.foldl crcStep c ^^^ b.foldl crcStep c' := by
  induction a generalizing b c c' with
  | nil =>
    obtain rfl := List.length_eq_zero_iff.1 h.symm
    rfl
  | cons x a ih =>
    obtain _ | ⟨y, b⟩ := b
    · cases h
    · rw [List.zipWith_cons_cons, List.foldl_cons, crcStep_xor]
      exact ih (Nat.succ.inj h) _ _

theorem crc16_zipWith_xor {a b : List Byte} (h : a.length = b.length) :
    crc16 (List.zipWith (fun x y => x ^^^ y) a b) = crc16 a ^^^ crc16 b :=
  foldl_crcStep_xor h 0#16 0#16

/-! ## Zero bytes -/

@[simp] theorem crcStep_zero : crcStep 0#16 0#8 = 0#16 := by decide

/-- A run of zero bytes leaves a zero accumulator at zero (R113). -/
theorem foldl_crcStep_replicate_zero (n : Nat) : (List.replicate n 0#8).foldl crcStep 0#16 = 0#16 := by
  induction n with
  | zero => rfl
  | succ n ih => rw [List.replicate_succ, List.foldl_cons, crcStep_zero, ih]

theorem crc16_replicate_zero (n : Nat) : crc16 (List.replicate n 0#8) = 0#16 := foldl_crcStep_replicate_zero n

/-- The two CRC bytes end a frame of zeros, so that frame ends in two zero bytes. -/
theorem makeFrame_replicate_zero (mode sq : Byte) (n : Nat) :
    makeFrame mode sq (List.replicate n 0#8) = [mode, sq, 255#8 - sq] ++ List.replicate n 0#8 ++ [0#8, 0#8] := by
  rw [makeFrame, crc16_replicate_zero]
  rfl

/-! ## The residue (R115) -/

/-- With the top bit clear a round only shifts. -/
theorem crcRound_of_lt {c : Crc} (h : c.toNat < 2 ^ 15) : crcRound c = c <<< 1 := by
  rw [crcRound, if_neg]
  rw [BitVec.getLsbD, Nat.testBit_lt_two_pow h]
  decide

/-- While no set bit reaches the top, the rounds only shift. -/
theorem crcRounds_of_lt (n : Nat) {c : Crc} (h : c.toNat * 2 ^ n < 2 ^ 16) : crcRounds n c = c <<< n := by
  induction n generalizing c with
  | zero => simp [crcRounds]
  | succ n ih =>
    rw [pow_succ', ← mul_assoc] at h
    have hc : c.toNat * 2 < 2 ^ 16 := (Nat.le_mul_of_pos_right _ (Nat.two_pow_pos n)).trans_lt h
    have hdouble : (c <<< 1).toNat = c.toNat * 2 := by
      rw [BitVec.toNat_shiftLeft, Nat.shiftLeft_eq, pow_one, Nat.mod_eq_of_lt hc]
    rw [crcRounds, crcRound_of_lt (by omega), ih (by rwa [hdouble]), Nat.add_comm n 1, BitVec.shiftLeft_add]

/-- XOR with its own high byte leaves the low byte of a CRC. -/
theorem xor_crcHi (c : Crc) : c ^^^ ((crcHi c).setWidth 16 <<< 8) = (crcLo c).setWidth 16 := by
  ext i hi
  by_cases hlow : i < 8
  · simp [crcHi, crcLo, hlow, BitVec.getLsbD_eq_getElem hi]
  · have hsub : i - 8 < 8 := by omega
    have hback : 8 + (i - 8) = i := by omega
    simp [crcHi, crcLo, hlow, hsub, hback, BitVec.getLsbD_eq_getElem hi]

/-- The step over its own high byte moves the low byte of a CRC up: no bit of it reaches the top in eight rounds. -/
theorem crcStep_crcHi (c : Crc) : crcStep c (crcHi c) = (crcLo c).setWidth 16 <<< 8 := by
  have hlt := (crcLo c).isLt
  rw [crcStep, xor_crcHi]
  refine crcRounds_of_lt 8 ?_
  rw [BitVec.toNat_setWidth]
  omega

/-- The two bytes of a CRC, high byte first, step it to zero. -/
theorem crcStep_crcHi_crcLo (c : Crc) : crcStep (crcStep c (crcHi c)) (crcLo c) = 0#16 := by
  rw [crcStep_crcHi, crcStep, BitVec.xor_self]
  rfl

end Sys2Proof.Machine

namespace Sys2Proof.Safety

open Sys2Proof.Machine

/-- Settles O8, by two more steps of the fold: each step takes one of the two bytes out of the CRC. -/
theorem crcResidueIsZero : Obligations.CrcResidueIsZero := by
  intro l
  rw [List.append_cons, crc16_append_single, crc16_append_single]
  exact crcStep_crcHi_crcLo (crc16 l)

/-- Settles O9, by the linearity of a step and its value on zeros. -/
theorem crcIsLinear : Obligations.CrcIsLinear :=
  ⟨fun _ _ h => crc16_zipWith_xor h, crc16_replicate_zero, fun sq => ⟨_, makeFrame_replicate_zero SOH sq 128⟩⟩

end Sys2Proof.Safety
end

section
/-! PROOFS. The operations of the CRC unit (40_crc.md R112 to R114). -/

namespace Sys2Proof.Safety

open Sys2Proof.Machine

/-- The low half of a zero-extended CRC is the CRC. -/
theorem extractLsb'_low_setWidth (c : Crc) : (c.setWidth 32).extractLsb' 0 16 = c := by
  ext i hi
  have hval : i < 32 := by omega
  simp [hval, BitVec.getLsbD_eq_getElem hi]

/-- The high half of a zero-extended CRC is zero. -/
theorem extractLsb'_high_setWidth (c : Crc) : (c.setWidth 32).extractLsb' 16 16 = 0#16 := by
  ext i
  simp

/-- Settles O4, by the row of the table and the rule of CRC_INIT where no fault is latched. -/
theorem crcInitOperation : Obligations.CrcInitOperation :=
  ⟨encodesPlain_of_row rfl, fun _ => exec_crcInit⟩

/-- Settles O5, by the row of the table, the rule of CRC_BYTE, and the steps of R113 on zero bytes and on 0x01. -/
theorem crcByteOperation : Obligations.CrcByteOperation :=
  ⟨encodesByte_of_row rfl, fun d _ => exec_crcByte d, foldl_crcStep_replicate_zero, by decide⟩

/-- Settles O6, by the two halves of the zero-extended accumulator. -/
theorem crcReadOperation : Obligations.CrcReadOperation :=
  ⟨encodesPlain_of_row rfl, fun s hf =>
    ⟨_, exec_crcRead hf, extractLsb'_low_setWidth s.crcAcc, extractLsb'_high_setWidth s.crcAcc⟩⟩

end Sys2Proof.Safety
end

section
/-! PROOFS. The operations of the line framer (41_line_framer.md R131, R133, R134). -/

namespace Sys2Proof.Safety

open Sys2Proof.Machine

/-! ## The three outcomes of LF_BYTE (R131) -/

theorem exec_lfByte_cr {s : State} (hf : s.fault = .none) :
    exec (.lfByte CR) s = .next { s with lbuf := [], res := okRes 0#32 [] [] [.line s.lbuf] } := by
  rw [exec_lfByte CR hf, lfByte, if_pos rfl]
  rfl

theorem exec_lfByte_full {d : Byte} {s : State} (hf : s.fault = .none) (hd : d ≠ CR)
    (hfull : s.lbuf.length = Config.unit.lineMax) :
    exec (.lfByte d) s = .next { s with fault := .lineOverflow, res := Res.faulted } := by
  rw [exec_lfByte d hf, lfByte, if_neg hd, State.clearRes_lbuf, if_pos hfull]
  rfl

theorem exec_lfByte_room {d : Byte} {s : State} (hf : s.fault = .none) (hd : d ≠ CR)
    (hroom : s.lbuf.length ≠ Config.unit.lineMax) :
    exec (.lfByte d) s = .next { s with lbuf := s.lbuf ++ [d], res := okRes 0#32 [] [] [] } := by
  rw [exec_lfByte d hf, lfByte, if_neg hd, State.clearRes_lbuf, if_neg hroom]
  rfl

/-- Settles O10, by the row of the table and the three outcomes of LF_BYTE. -/
theorem lfByteOperation : Obligations.LfByteOperation := by
  refine ⟨encodesByte_of_row rfl, fun d s hf => ⟨?_, exec_lfByte_full hf, exec_lfByte_room hf⟩⟩
  rintro rfl
  exact exec_lfByte_cr hf

/-- Settles O11, by the row of the table and the rule of LF_DRAIN where no fault is latched. -/
theorem lfDrainOperation : Obligations.LfDrainOperation :=
  ⟨encodesPlain_of_row rfl, fun _ => exec_lfDrain⟩

/-- A length below 2^16 lies in the low half of the status word (R44). -/
theorem lfStatusWord_eq_setWidth {l : List Byte} (h : l.length < 2 ^ 16) :
    lfStatusWord l = (BitVec.ofNat 16 l.length).setWidth 32 := by
  rw [lfStatusWord, BitVec.setWidth_ofNat_of_le_of_lt (by decide) h]

/-- Settles O12, by the two halves of the zero-extended length. -/
theorem lfStatusOperation : Obligations.LfStatusOperation := by
  refine ⟨encodesPlain_of_row rfl, fun s hf hlen => ⟨_, exec_lfStatus hf, ?_⟩⟩
  have hlt : s.lbuf.length < 2 ^ 16 := Nat.lt_succ_of_le (hlen.trans (lineMax_le _))
  rw [lfStatusWord_eq_setWidth hlt]
  exact ⟨by rw [extractLsb'_low_setWidth, BitVec.toNat_ofNat, Nat.mod_eq_of_lt hlt], extractLsb'_high_setWidth _⟩

end Sys2Proof.Safety
end

section
/-! PROOFS. LF_BYTES over a chunk (30_encoding.md R96, 41_line_framer.md R135): the run up to one delimiter ends one
line, and the runs of the lines follow each other. -/

namespace Sys2Proof.Safety

open Sys2Proof.Machine

/-! ## Runs of LF_BYTE that emit lines -/

/-- The bytes of `chunk` take `s` to `t`: each is consumed, the events are these lines, nothing goes on the wire, and
only LBUF and the result record differ. -/
structure LineRun (chunk : List Byte) (s t : State) (lines : List (List Byte)) : Prop where
  run : ∃ rs, runOps (lfBytes chunk) s = some (t, rs) ∧ events rs = lines.map Event.line ∧ allOk rs ∧ wire rs = []
  frame : t = { s with lbuf := t.lbuf, res := t.res }

theorem LineRun.nil (s : State) : LineRun [] s s [] where
  run := ⟨[], rfl, rfl, by simp [allOk], rfl⟩
  frame := rfl

theorem LineRun.append {c₁ c₂ : List Byte} {s u t : State} {ls₁ ls₂ : List (List Byte)} (h₁ : LineRun c₁ s u ls₁)
    (h₂ : LineRun c₂ u t ls₂) : LineRun (c₁ ++ c₂) s t (ls₁ ++ ls₂) where
  run := by
    obtain ⟨rs₁, hrun₁, hev₁, hok₁, hwire₁⟩ := h₁.run
    obtain ⟨rs₂, hrun₂, hev₂, hok₂, hwire₂⟩ := h₂.run
    refine ⟨rs₁ ++ rs₂, ?_, ?_, allOk_append.2 ⟨hok₁, hok₂⟩, ?_⟩
    · rw [lfBytes, List.map_append]
      exact runOps_append hrun₁ hrun₂
    · rw [events_append, hev₁, hev₂, List.map_append]
    · rw [wire_append, hwire₁, hwire₂, List.append_nil]
  frame := h₂.frame.trans (by rw [h₁.frame])

theorem LineRun.fault {c : List Byte} {s t : State} {ls : List (List Byte)} (h : LineRun c s t ls) :
    t.fault = s.fault := by
  rw [h.frame]

/-- A delimiter ends the pending line (R131). -/
theorem lineRun_cr {s : State} (hf : s.fault = .none) : ∃ t, LineRun [CR] s t [s.lbuf] ∧ t.lbuf = [] :=
  ⟨_, ⟨⟨_, runOps_single (exec_lfByte_cr hf), rfl, by simp [allOk, okRes], rfl⟩, rfl⟩, rfl⟩

/-- A byte that is no delimiter joins the pending line where there is room (R131). -/
theorem lineRun_room {d : Byte} {s : State} (hf : s.fault = .none) (hd : d ≠ CR)
    (hroom : s.lbuf.length ≠ Config.unit.lineMax) : ∃ t, LineRun [d] s t [] ∧ t.lbuf = s.lbuf ++ [d] :=
  ⟨_, ⟨⟨_, runOps_single (exec_lfByte_room hf hd hroom), rfl, by simp [allOk, okRes], rfl⟩, rfl⟩, rfl⟩

/-- Bytes without a delimiter that fit join the pending line, with no event. -/
theorem lineRun_pending (l : List Byte) {s : State} (hf : s.fault = .none) (hcr : CR ∉ l)
    (hlen : (s.lbuf ++ l).length ≤ Config.unit.lineMax) : ∃ t, LineRun l s t [] ∧ t.lbuf = s.lbuf ++ l := by
  induction l generalizing s with
  | nil => exact ⟨s, .nil s, (List.append_nil _).symm⟩
  | cons d l ih =>
    obtain ⟨hd, hl⟩ := List.ne_and_not_mem_of_not_mem_cons hcr
    have hroom : s.lbuf.length ≠ Config.unit.lineMax := by
      rw [List.length_append, List.length_cons] at hlen
      omega
    obtain ⟨u, hu, hlu⟩ := lineRun_room hf hd.symm hroom
    have hsplit : s.lbuf ++ d :: l = u.lbuf ++ l := by rw [hlu, ← List.append_cons]
    rw [hsplit] at hlen ⊢
    obtain ⟨t, ht, hlt⟩ := ih (hu.fault.trans hf) hl hlen
    exact ⟨t, hu.append ht, hlt⟩

/-- Bytes that complete the pending line `l`, and its delimiter, emit that line. -/
theorem lineRun_line (c : List Byte) {s : State} (hf : s.fault = .none) (hcr : CR ∉ s.lbuf ++ c)
    (hlen : (s.lbuf ++ c).length ≤ Config.unit.lineMax) :
    ∃ t, LineRun (c ++ [CR]) s t [s.lbuf ++ c] ∧ t.lbuf = [] := by
  obtain ⟨u, hu, hlu⟩ := lineRun_pending c hf (mt (List.mem_append_right _) hcr) hlen
  obtain ⟨t, ht, hlt⟩ := lineRun_cr (hu.fault.trans hf)
  exact ⟨t, hlu ▸ hu.append ht, hlt⟩

/-! ## A chunk (R135) -/

/-- Where the pending bytes hold no delimiter, the first line of pending bytes and chunk ends inside the chunk. -/
theorem chunk_eq_of_first_line {pending chunk l tail : List Byte} (hcr : CR ∉ pending)
    (h : pending ++ chunk = l ++ CR :: tail) : ∃ c, l = pending ++ c ∧ chunk = c ++ CR :: tail := by
  obtain hinside | ⟨c, rfl, htail⟩ := List.append_eq_append_iff.1 h
  · exact hinside
  · cases c with
    | nil => exact ⟨[], by simp, htail.symm⟩
    | cons x c =>
      obtain ⟨rfl, -⟩ := List.cons.inj htail
      exact absurd (by simp) hcr

/-- A chunk emits its lines in order and leaves the rest, by induction on the lines. -/
theorem lineRun_chunk {chunk rest : List Byte} {lines : List (List Byte)} {s : State} (hf : s.fault = .none)
    (hcr : CR ∉ s.lbuf) (hchunk : s.lbuf ++ chunk = lines.flatMap (fun l => l ++ [CR]) ++ rest)
    (hfit : ∀ l ∈ rest :: lines, CR ∉ l ∧ l.length ≤ Config.unit.lineMax) :
    ∃ t, LineRun chunk s t lines ∧ t.lbuf = rest := by
  induction lines generalizing s chunk with
  | nil =>
    obtain rfl : s.lbuf ++ chunk = rest := hchunk
    obtain ⟨hrest, hlen⟩ := hfit _ List.mem_cons_self
    exact lineRun_pending chunk hf (mt (List.mem_append_right _) hrest) hlen
  | cons l ls ih =>
    obtain ⟨hrest, hl, hls⟩ := by simpa only [List.forall_mem_cons] using hfit
    have hfirst : s.lbuf ++ chunk = l ++ CR :: (ls.flatMap (fun l => l ++ [CR]) ++ rest) := by simpa using hchunk
    obtain ⟨c, rfl, rfl⟩ := chunk_eq_of_first_line hcr hfirst
    obtain ⟨u, hu, hlu⟩ := lineRun_line c hf hl.1 hl.2
    obtain ⟨t, ht, hlt⟩ := ih (s := u) (hu.fault.trans hf) (by simp [hlu]) (by rw [hlu]; rfl)
      (List.forall_mem_cons.2 ⟨hrest, hls⟩)
    exact ⟨t, List.append_cons c CR _ ▸ hu.append ht, hlt⟩

/-- Settles O13, by induction on the lines of the pending bytes and the chunk. -/
theorem lfChunkYieldsItsLines : Obligations.LfChunkYieldsItsLines := by
  intro chunk rest lines s hf hcr hchunk hfit
  obtain ⟨t, ⟨⟨rs, hrun, hev, hok, hwire⟩, hframe⟩, rfl⟩ := lineRun_chunk hf hcr hchunk hfit
  exact ⟨t, rs, hrun, hev, hok, hwire, hframe⟩

end Sys2Proof.Safety
end

section
/-! PROOFS. What each rule of the receive framer does, case by case (42_ymodem_rx.md R152 to R169): one equation per
phase, lead byte and check. -/

namespace Sys2Proof.Safety

open Sys2Proof.Machine

variable {c : Config} {s : State}

/-- The phases with no transfer in progress: before the first one and after the last (R152, R167, R169). -/
abbrev RxAtRest (p : RxPhase) : Prop := p = .idle ∨ p = .done ∨ p = .failed

/-! ## NakPath (R165) -/

theorem nakPath_at_limit (reason : ErrCode) (h : (s.rx.retry + 1#4).toNat = c.retryLimit) :
    nakPath c reason s =
      { s with rx := { s.rx with cnt := 0#11, retry := s.rx.retry + 1#4, phase := .failed, err := .retryLimitExceeded },
               res := { s.res with ev := s.res.ev ++ [.rxFailed .retryLimitExceeded] } } := by
  rw [nakPath_eq, if_pos h]

theorem nakPath_below_limit (reason : ErrCode) (h : (s.rx.retry + 1#4).toNat ≠ c.retryLimit) :
    nakPath c reason s =
      { s with rx := { s.rx with cnt := 0#11, retry := s.rx.retry + 1#4, phase := .purge, err := reason } } := by
  rw [nakPath_eq, if_neg h]

theorem nakPath_phase (c : Config) (reason : ErrCode) (s : State) :
    (nakPath c reason s).rx.phase = .purge ∨ (nakPath c reason s).rx.phase = .failed := by
  by_cases h : (s.rx.retry + 1#4).toNat = c.retryLimit
  · exact .inr (by rw [nakPath_at_limit reason h])
  · exact .inl (by rw [nakPath_below_limit reason h])

@[simp] theorem nakPath_st (c : Config) (reason : ErrCode) (s : State) : (nakPath c reason s).res.st = s.res.st := by
  rw [nakPath_eq]
  split <;> rfl

/-- An operation that starts from the empty record and takes the NAK path writes what R165 says, on top of the
consecutive counters it left. -/
theorem nakPathFrom_nakPath (reason : ErrCode) (e k : BitVec 2) (s : State) :
    NakPathFrom reason e k s
      (nakPath Config.unit reason (s.clearRes.setRx { s.rx with eotc := e, canc := k })) := by
  unfold NakPathFrom
  split
  · next h => exact nakPath_at_limit reason h
  · next h => exact nakPath_below_limit reason h

/-! ## A lead byte (R154 to R158) -/

theorem rxLead_of_other {d : Byte} (h : leadByte d = .other) :
    rxLead c d s = nakPath c .desync (rxCountLead d s) := by
  simp only [rxLead, h]

/-- A byte that is neither EOT nor CAN clears both consecutive counters (R154). -/
theorem rxCountLead_of_ne {d : Byte} (he : d ≠ EOT) (hk : d ≠ CAN) :
    rxCountLead d s = s.setRx { s.rx with eotc := 0#2, canc := 0#2 } := by
  rw [rxCountLead, if_neg he, if_neg hk]

/-- A consecutive counter reaches 2 from 1 only (R32). -/
theorem succ_toNat_eq_two_iff (n : BitVec 2) : (n + 1#2).toNat = 2 ↔ n = 1#2 := by
  revert n
  decide

theorem rxLead_eot (c : Config) (s : State) : rxLead c EOT s = rxLeadEot (s.setRx { s.rx with canc := 0#2 }) := rfl

theorem rxLead_can (c : Config) (s : State) : rxLead c CAN s = rxLeadCan (s.setRx { s.rx with eotc := 0#2 }) := rfl

/-- The first EOT is NAKed (R156). -/
theorem rxLead_eot_first (h : s.rx.eotc = 0#2) :
    rxLead c EOT s = (s.setRx { s.rx with eotc := 1#2, canc := 0#2 }).emitTx [NAK] := by
  rw [rxLead_eot, rxLeadEot_eq, State.setRx_rx, h]
  rfl

/-- The second consecutive EOT is ACKed and ends the transfer (R156). -/
theorem rxLead_eot_second (h : s.rx.eotc = 1#2) :
    rxLead c EOT s =
      ((s.setRx { s.rx with eotc := 2#2, canc := 0#2, phase := .done }).emitTx [ACK]).emitEv .rxDone := by
  rw [rxLead_eot, rxLeadEot_eq, State.setRx_rx, h]
  rfl

/-- A single CAN is ACKed (R157). -/
theorem rxLead_can_first (h : s.rx.canc = 0#2) :
    rxLead c CAN s = (s.setRx { s.rx with eotc := 0#2, canc := 1#2 }).emitTx [ACK] := by
  rw [rxLead_can, rxLeadCan_eq, State.setRx_rx, h]
  rfl

/-- The second consecutive CAN is ACKed and cancels the transfer (R157). -/
theorem rxLead_can_second (h : s.rx.canc = 1#2) :
    rxLead c CAN s =
      ((s.setRx { s.rx with eotc := 0#2, canc := 2#2, phase := .failed, err := .remoteCancelled }).emitTx [ACK]).emitEv
        (.rxFailed .remoteCancelled) := by
  rw [rxLead_can, rxLeadCan_eq, State.setRx_rx, h]
  rfl

/-! ## The acceptance of a block (R162 to R164) -/

theorem rxHeader_of_null {p : List Byte} (h : ∀ b ∈ p, b = NUL) :
    rxHeader c p s =
      { s with rx := { s.rx with cnt := 0#11, retry := 0#4, err := .none, phase := .done },
               res := { s.res with tx := s.res.tx ++ (if c.nullHeaderAck then [ACK] else []),
                                   ev := s.res.ev ++ [.rxNullHeader, .rxDone] } } := by
  have hall : p.all (· = NUL) = true := by simpa using h
  unfold rxHeader
  rw [if_pos hall]
  cases c.nullHeaderAck <;> simp [rxClearBlock, State.setRx, State.emitEv, State.emitTx]

theorem rxHeader_of_not_null {p : List Byte} (h : ∃ b ∈ p, b ≠ NUL) :
    rxHeader c p s =
      { s with rx := { s.rx with cnt := 0#11, retry := 0#4, err := .none, hdr := true, exp := s.rx.exp + 1#8,
                                 phase := .lead },
               res := { s.res with tx := s.res.tx ++ [ACK, HANDSHAKE], ev := s.res.ev ++ [.rxHeader p] } } := by
  have hall : ¬ p.all (· = NUL) = true := by simpa using h
  unfold rxHeader
  rw [if_neg hall]
  rfl

@[simp] theorem rxHeader_st (c : Config) (p : List Byte) (s : State) : (rxHeader c p s).res.st = s.res.st := by
  by_cases h : ∀ b ∈ p, b = NUL
  · rw [rxHeader_of_null h]
  · rw [rxHeader_of_not_null (by simpa using h)]

/-! ## RX_BYTE by phase (R152) -/

theorem rxByte_atRest (d : Byte) (hp : RxAtRest s.rx.phase) : rxByte c d s = .next (s.retSt .notConsumed) := by
  rcases hp with hp | hp | hp <;> rw [rxByte, hp]

theorem rxByte_purge (d : Byte) (hp : s.rx.phase = .purge) : rxByte c d s = .next s := by
  rw [rxByte, hp]

theorem rxByte_lead (d : Byte) (hp : s.rx.phase = .lead) : rxByte c d s = .next (rxLead c d s) := by
  rw [rxByte, hp]

theorem rxByte_crcl (d : Byte) (hp : s.rx.phase = .crcl) : rxByte c d s = rxCrcl c d s := by
  rw [rxByte, hp]

/-- The first check of a complete block fails (R162). -/
theorem rxByte_bad_complement (d : Byte) (hp : s.rx.phase = .crcl) (hsum : s.rx.seqb.toNat + s.rx.cmpb.toNat ≠ 255) :
    rxByte c d s = .next (nakPath c .complementMismatch s) := by
  rw [rxByte_crcl d hp, rxCrcl, if_pos hsum]

/-- The second check fails after the first holds (R162). -/
theorem rxByte_bad_sequence (d : Byte) (hp : s.rx.phase = .crcl) (hsum : s.rx.seqb.toNat + s.rx.cmpb.toNat = 255)
    (hseq : s.rx.seqb ≠ s.rx.exp) : rxByte c d s = .next (nakPath c .sequenceMismatch s) := by
  rw [rxByte_crcl d hp, rxCrcl, if_neg (not_not.2 hsum), if_pos hseq]

/-- The third check fails after the first two hold (R162). -/
theorem rxByte_bad_checksum {d : Byte} (hp : s.rx.phase = .crcl) (hsum : s.rx.seqb.toNat + s.rx.cmpb.toNat = 255)
    (hseq : s.rx.seqb = s.rx.exp) (hcrc : s.rx.crc ≠ crcJoin s.rx.crch d) :
    rxByte c d s = .next (nakPath c .checksumMismatch s) := by
  rw [rxByte_crcl d hp, rxCrcl, if_neg (not_not.2 hsum), if_neg (not_not.2 hseq), if_pos hcrc]

/-- The last byte of a valid header block hands its payload to R163. -/
theorem rxByte_accept_header {d : Byte} (hp : s.rx.phase = .crcl) (hv : BlockIsValid s.rx d)
    (hh : s.rx.hdr = false) : rxByte c d s = .next (rxHeader c (firstBytes s.rx.buf s.rx.size) s) := by
  obtain ⟨hsum, hseq, hcrc⟩ := hv
  have hcrc' : s.rx.crc = crcJoin s.rx.crch d := hcrc
  rw [rxByte_crcl d hp, rxCrcl, if_neg (not_not.2 hsum), if_neg (not_not.2 hseq), if_neg (not_not.2 hcrc'),
    rxAccept_eq, hh]
  rfl

theorem rxLead_st (c : Config) (d : Byte) (s : State) : (rxLead c d s).res.st = s.res.st := by
  unfold rxLead
  cases leadByte d with
  | soh | stx => rfl
  | eot =>
    simp only [rxLeadEot_eq]
    split <;> rfl
  | can =>
    simp only [rxLeadCan_eq]
    split <;> rfl
  | other => exact nakPath_st c .desync _

/-- Where a transfer is in progress RX_BYTE leaves the status of the result record (R152). -/
theorem rxByte_st {d : Byte} {t : State} (hp : ¬ RxAtRest s.rx.phase) (h : rxByte c d s = .next t) :
    t.res.st = s.res.st := by
  unfold rxByte at h
  cases hq : s.rx.phase <;> simp only [hq] at h
  case idle | done | failed => simp [RxAtRest, hq] at hp
  case purge | seq | cmp | crch => cases h; rfl
  case lead =>
    cases h
    exact rxLead_st c d s
  case data =>
    rw [rxData_eq] at h
    split at h <;> cases h
    rfl
  case crcl =>
    obtain ⟨-, e⟩ | ⟨-, -, e⟩ | ⟨-, -, -, e⟩ | ⟨-, e⟩ := rxCrcl_cases c d s <;> cases e.symm.trans h
    · exact nakPath_st c _ s
    · exact nakPath_st c _ s
    · exact nakPath_st c _ s
    · split
      · rfl
      · exact rxHeader_st c _ s

/-! ## RX_TIMEOUT and RX_ABORT by phase (R167, R169) -/

theorem rxTimeout_atRest (hp : RxAtRest s.rx.phase) : rxTimeout c s = s := by
  rcases hp with hp | hp | hp <;> simp only [rxTimeout, hp]

theorem rxTimeout_purge (hp : s.rx.phase = .purge) :
    rxTimeout c s = (s.emitTx [NAK]).setRx { s.rx with phase := .lead } := by
  simp only [rxTimeout, hp]

/-- In every phase but those at rest and PURGE a timeout takes the NAK path. -/
theorem rxTimeout_in_block (hp : ¬ RxAtRest s.rx.phase) (hpurge : s.rx.phase ≠ .purge) :
    rxTimeout c s = nakPath c .timeout (s.setRx { s.rx with eotc := 0#2, canc := 0#2 }) := by
  cases hq : s.rx.phase with
  | idle | done | failed => simp [RxAtRest, hq] at hp
  | purge => exact absurd hq hpurge
  | lead | seq | cmp | data | crch | crcl => simp only [rxTimeout, hq]

theorem rxAbort_atRest (hp : RxAtRest s.rx.phase) : rxAbort s = s := by
  rcases hp with hp | hp | hp <;> simp only [rxAbort, hp]

theorem rxAbort_active (hp : ¬ RxAtRest s.rx.phase) :
    rxAbort s = rxFail .aborted (s.setRx { s.rx with cnt := 0#11 }) := by
  cases hq : s.rx.phase with
  | idle | done | failed => simp [RxAtRest, hq] at hp
  | lead | seq | cmp | data | crch | crcl | purge => simp only [rxAbort, hq]

end Sys2Proof.Safety
end

section
/-! PROOFS. The fields of a status word (10_state.md R42, R43): a field is read back from where it was put, and two
fields that do not overlap do not disturb each other. -/

namespace Sys2Proof.Machine

theorem getLsbD_field {n : Nat} (v : BitVec n) (lo i : Nat) :
    (field v lo).getLsbD i = (decide (i < 32) && !decide (i < lo) && v.getLsbD (i - lo)) := by
  rw [field, BitVec.getLsbD_shiftLeft, BitVec.getLsbD_setWidth]
  by_cases hi : i < 32
  · have hshift : i - lo < 32 := by omega
    simp [hi, hshift]
  · simp [hi]

/-- A field that fits in the word reads back as its value. -/
theorem extractLsb'_field_self {n : Nat} (v : BitVec n) {lo : Nat} (h : lo + n ≤ 32) :
    (field v lo).extractLsb' lo n = v := by
  refine BitVec.eq_of_getLsbD_eq fun i hi => ?_
  have hword : lo + i < 32 := by omega
  rw [BitVec.getLsbD_extractLsb', getLsbD_field]
  simp [hi, hword]

/-- Bits below or above a field are clear. -/
theorem extractLsb'_field_disjoint {n : Nat} (v : BitVec n) {lo start len : Nat}
    (h : start + len ≤ lo ∨ lo + n ≤ start) : (field v lo).extractLsb' start len = 0#len := by
  refine BitVec.eq_of_getLsbD_eq fun i hi => ?_
  rcases h with h | h
  · have hbelow : start + i < lo := by omega
    simp [getLsbD_field, hbelow]
  · have habove : n ≤ start + i - lo := by omega
    simp [getLsbD_field, BitVec.getLsbD_of_ge v _ habove]

/-- A flag of a word is the one bit read at its place. -/
theorem getLsbD_of_extractLsb'_eq_ofBool {v : Val} {lo : Nat} {b : Bool}
    (h : v.extractLsb' lo 1 = BitVec.ofBool b) : v.getLsbD lo = b := by
  have hbit := congrArg (fun x => x.getLsbD 0) h
  simpa using hbit

/-- RX_STATUS holds each of R42's fields at its place, and nothing above them. -/
theorem rxStatusWord_fields (r : Rx) :
    (rxStatusWord r).extractLsb' 0 4 = r.phase.code ∧ (rxStatusWord r).extractLsb' 4 4 = r.err.code ∧
    (rxStatusWord r).extractLsb' 8 4 = r.retry ∧ (rxStatusWord r).extractLsb' 12 2 = r.eotc ∧
    (rxStatusWord r).extractLsb' 14 2 = r.canc ∧ (rxStatusWord r).extractLsb' 16 8 = r.exp ∧
    (rxStatusWord r).extractLsb' 24 1 = BitVec.ofBool r.hdr ∧ (rxStatusWord r).extractLsb' 25 1 = BitVec.ofBool r.big ∧
    (rxStatusWord r).extractLsb' 26 6 = 0#6 := by
  unfold rxStatusWord
  refine ⟨?_, ?_, ?_, ?_, ?_, ?_, ?_, ?_, ?_⟩ <;>
    simp (disch := omega) only [BitVec.extractLsb'_or, extractLsb'_field_self, extractLsb'_field_disjoint,
      BitVec.or_zero, BitVec.zero_or]

end Sys2Proof.Machine
end

section
/-! PROOFS. The operations of the receive framer (42_ymodem_rx.md R151 to R170). -/

namespace Sys2Proof.Safety

open Sys2Proof.Machine

/-- Settles O14, by the row of the table and the rule of RX_START where no fault is latched. -/
theorem rxStartOperation : Obligations.RxStartOperation :=
  ⟨encodesPlain_of_row rfl, fun _ => exec_rxStart⟩

/-- Settles O15, by the groups of phases of R152; that a byte of an active transfer raises no fault is the frame of the
RX rules. -/
theorem rxByteDispatch : Obligations.RxByteDispatch := by
  refine ⟨encodesByte_of_row rfl, fun d s hf => ⟨fun hp => ?_, fun hp => ?_, fun hp t h => ?_⟩⟩
  · exact (exec_rxByte d hf).trans (rxByte_atRest (s := s.clearRes) d hp)
  · exact (exec_rxByte d hf).trans (rxByte_purge (s := s.clearRes) d hp)
  · have hrule := (exec_rxByte d hf).symm.trans h
    refine ⟨rxByte_st (s := s.clearRes) hp hrule, ?_⟩
    rw [onlyRx_rxByte hrule]
    exact hf

/-- Settles O16, by the two lead bytes that open a block. -/
theorem rxLeadByteOpensBlock : Obligations.RxLeadByteOpensBlock := fun d _ hf hp hd =>
  (exec_rxByte d hf).trans (rxByte_open hd hp)

/-- Settles O17, by the value of the EOT counter. -/
theorem rxLeadEotEndsTransfer : Obligations.RxLeadEotEndsTransfer := by
  intro s hf hp _
  rw [exec_rxByte _ hf, rxByte_lead (s := s.clearRes) _ hp]
  exact ⟨fun h => congrArg _ (rxLead_eot_first (s := s.clearRes) h),
    fun h => congrArg _ (rxLead_eot_second (s := s.clearRes) h)⟩

/-- Settles O18, by the value of the CAN counter. -/
theorem rxLeadCanCancels : Obligations.RxLeadCanCancels := by
  intro s hf hp _
  rw [exec_rxByte _ hf, rxByte_lead (s := s.clearRes) _ hp]
  exact ⟨fun h => congrArg _ (rxLead_can_first (s := s.clearRes) h),
    fun h => congrArg _ (rxLead_can_second (s := s.clearRes) h)⟩

/-- Settles O19: a byte of no other meaning has cleared both consecutive counters before the NAK path. -/
theorem rxLeadDesyncTakesNakPath : Obligations.RxLeadDesyncTakesNakPath := by
  intro d s hf hp hsoh hstx heot hcan
  have hother : leadByte d = .other := by
    rw [leadByte, if_neg hsoh, if_neg hstx, if_neg heot, if_neg hcan]
  refine ⟨_, (exec_rxByte d hf).trans (rxByte_lead (s := s.clearRes) d hp), ?_⟩
  rw [rxLead_of_other hother, rxCountLead_of_ne heot hcan]
  exact nakPathFrom_nakPath .desync 0#2 0#2 s

/-- Settles O20, by the three phases. -/
theorem rxFrameFieldBytes : Obligations.RxFrameFieldBytes := fun d s hf =>
  ⟨fun hp => (exec_rxByte d hf).trans (rxByte_seq (s := s.clearRes) d hp),
    fun hp => (exec_rxByte d hf).trans (rxByte_cmp (s := s.clearRes) d hp),
    fun hp => (exec_rxByte d hf).trans (rxByte_crch (s := s.clearRes) d hp)⟩

/-- Settles O21: the new RX_BUF is the old one after one write, and the laws of a write give the rest. -/
theorem rxPayloadByteIsStored : Obligations.RxPayloadByteIsStored := by
  intro d s hf hp hcnt hwf
  refine ⟨Buf.write s.rx.buf s.rx.cnt.toNat d, ?_, Buf.write_wf hwf hcnt d, Buf.read_write_self hwf _ d,
    fun i hi => Buf.read_write_ne _ d hi⟩
  rw [exec_rxByte d hf, rxByte_data (s := s.clearRes) d hp, rxData_eq, State.clearRes_rx, if_pos hcnt, hp]
  rfl

/-- Settles O22, by the check that fails first. -/
theorem rxRejectsBadBlock : Obligations.RxRejectsBadBlock := by
  intro d s hf hp r recv
  have hnak (reason : ErrCode) : NakPathFrom reason r.eotc r.canc s (nakPath Config.unit reason s.clearRes) :=
    nakPathFrom_nakPath reason s.rx.eotc s.rx.canc s
  rw [exec_rxByte d hf]
  exact ⟨fun hsum => ⟨_, rxByte_bad_complement (s := s.clearRes) d hp hsum, hnak _⟩,
    fun hsum hseq => ⟨_, rxByte_bad_sequence (s := s.clearRes) d hp hsum hseq, hnak _⟩,
    fun hsum hseq hcrc => ⟨_, rxByte_bad_checksum (s := s.clearRes) hp hsum hseq hcrc, hnak _⟩⟩

/-- Settles O23, by whether the header's payload is all zero. -/
theorem rxAcceptsHeaderBlock : Obligations.RxAcceptsHeaderBlock := by
  intro d s hf hp hv hh p
  rw [exec_rxByte d hf, rxByte_accept_header (s := s.clearRes) hp hv hh]
  exact ⟨fun h => congrArg _ (rxHeader_of_null (s := s.clearRes) h),
    fun h => congrArg _ (rxHeader_of_not_null (s := s.clearRes) h)⟩

/-- Settles O24, by the acceptance of a data block with what RX_BUF holds as its payload. -/
theorem rxAcceptsDataBlock : Obligations.RxAcceptsDataBlock := fun d s hf hp hv hh =>
  (exec_rxByte d hf).trans (rxByte_accept (s := s.clearRes) hp hv hh rfl)

/-- Settles O25, by the row of the table and the three groups of phases of R167. -/
theorem rxTimeoutOperation : Obligations.RxTimeoutOperation := by
  refine ⟨encodesPlain_of_row rfl, fun s hf => ?_⟩
  rw [exec_rxTimeout hf]
  refine ⟨fun hp => congrArg _ (rxTimeout_atRest (s := s.clearRes) hp),
    fun hp => congrArg _ (rxTimeout_purge (s := s.clearRes) hp), fun hp => ⟨_, rfl, ?_⟩⟩
  obtain ⟨hactive, hpurge⟩ : ¬ RxAtRest s.rx.phase ∧ s.rx.phase ≠ .purge := by
    rcases hp with h | h | h | h | h | h <;> simp [RxAtRest, h]
  rw [rxTimeout_in_block (s := s.clearRes) hactive hpurge]
  exact nakPathFrom_nakPath .timeout 0#2 0#2 s

/-- Settles O26, by the row of the table and the two groups of phases of R169. -/
theorem rxAbortOperation : Obligations.RxAbortOperation := by
  refine ⟨encodesPlain_of_row rfl, fun s hf => ?_⟩
  rw [exec_rxAbort hf]
  exact ⟨fun hp => congrArg _ (rxAbort_atRest (s := s.clearRes) hp),
    fun hp => congrArg _ (rxAbort_active (s := s.clearRes) hp)⟩

/-- Settles O27, by the row of the table and the fields of the status word. -/
theorem rxStatusOperation : Obligations.RxStatusOperation := by
  refine ⟨encodesPlain_of_row rfl, fun s hf => ⟨_, exec_rxStatus hf, ?_⟩, rfl, rfl⟩
  obtain ⟨hphase, herr, hretry, heotc, hcanc, hexp, hhdr, hbig, hrest⟩ := rxStatusWord_fields s.rx
  exact ⟨hphase, herr, hretry, heotc, hcanc, hexp, getLsbD_of_extractLsb'_eq_ofBool hhdr,
    getLsbD_of_extractLsb'_eq_ofBool hbig, hrest⟩

end Sys2Proof.Safety
end

section
/-! PROOFS. A frame with the wrong sequence number (42_ymodem_rx.md R172): all of it but the last byte is received like
any other, and the second check of R162 refuses it. -/

namespace Sys2Proof.Safety

open Sys2Proof.Machine

/-- The last byte of a well-formed frame whose sequence number is not RX_EXP takes the NAK path. -/
theorem exec_rxByte_last_of_wrong_sequence {big : Bool} {sq : Byte} {p : List Byte} {s : State}
    (hf : s.fault = .none) (hsq : sq ≠ s.rx.exp) :
    exec (.rxByte (crcLo (crc16 p))) (s.clearRes.setRx (rxBeforeLast big sq p s.rx)) =
      .next (nakPath Config.unit .sequenceMismatch (s.clearRes.setRx (rxBeforeLast big sq p s.rx))) :=
  (exec_rxByte (s := s.clearRes.setRx _) _ hf).trans
    (rxByte_bad_sequence (s := s.clearRes.setRx _) _ rfl (toNat_add_complement sq) hsq)

/-- Settles O58: every byte of the frame but the last answers the empty record, and the last takes the NAK path, at the
retry limit or below it. -/
theorem wrongSequenceFrameIsRefused : Obligations.WrongSequenceFrameIsRefused := by
  intro mode sq p s hf hp hsq hm
  have hquiet := rxBytes_beforeLast_quietRun sq hm hf hp
  rw [frameOf_eq, rxBytes_append]
  refine ⟨_, _, hquiet.runOps_concat (exec_rxByte_last_of_wrong_sequence hf hsq), ?_⟩
  rw [allOk_quiet_concat, wire_quiet_concat, events_quiet_concat]
  by_cases hlimit : (s.rx.retry + 1#4).toNat = Config.unit.retryLimit
  · rw [nakPath_at_limit]
    · exact ⟨rfl, rfl, rfl, rfl, rfl, fun hne => absurd hlimit hne, fun _ => ⟨rfl, rfl, rfl⟩, rfl⟩
    · exact hlimit
  · rw [nakPath_below_limit]
    · exact ⟨rfl, rfl, rfl, rfl, rfl, fun _ => ⟨rfl, rfl, rfl⟩, fun heq => absurd heq hlimit, rfl⟩
    · exact hlimit

end Sys2Proof.Safety
end

section
/-! PROOFS. The moves of RX_PHASE (42_ymodem_rx.md R150): the lines of the table that each input can take, with their
conditions. -/

namespace Sys2Proof.Safety

open Sys2Proof.Machine

variable {c : Config} {d : Byte} {s t : State}

/-- The lines from LEAD. -/
theorem rxLead_moves (c : Config) (d : Byte) (hp : s.rx.phase = .lead) :
    (rxLead c d s).rx.phase = .lead ∨
    ((d = SOH ∨ d = STX) ∧ (rxLead c d s).rx.phase = .seq) ∨
    (d = EOT ∧ s.rx.eotc = 1#2 ∧ (rxLead c d s).rx.phase = .done) ∨
    (d = CAN ∧ s.rx.canc = 1#2 ∧ (rxLead c d s).rx.phase = .failed) ∨
    (leadByte d = .other ∧ ((rxLead c d s).rx.phase = .purge ∨ (rxLead c d s).rx.phase = .failed)) := by
  rcases leadByte_cases d with ⟨rfl, -⟩ | ⟨rfl, -⟩ | ⟨rfl, -⟩ | ⟨rfl, -⟩ | ⟨-, -, -, -, hother⟩
  · exact .inr (.inl ⟨.inl rfl, rfl⟩)
  · exact .inr (.inl ⟨.inr rfl, rfl⟩)
  · by_cases he : s.rx.eotc = 1#2
    · rw [rxLead_eot_second he]
      exact .inr (.inr (.inl ⟨rfl, he, rfl⟩))
    · rw [rxLead_eot, rxLeadEot_eq, State.setRx_rx, if_neg (mt (succ_toNat_eq_two_iff _).1 he)]
      exact .inl hp
  · by_cases hk : s.rx.canc = 1#2
    · rw [rxLead_can_second hk]
      exact .inr (.inr (.inr (.inl ⟨rfl, hk, rfl⟩)))
    · rw [rxLead_can, rxLeadCan_eq, State.setRx_rx, if_neg (mt (succ_toNat_eq_two_iff _).1 hk)]
      exact .inl hp
  · rw [rxLead_of_other hother]
    exact .inr (.inr (.inr (.inr ⟨hother, nakPath_phase c .desync _⟩)))

/-- The lines from DATA. -/
theorem rxData_moves (hp : s.rx.phase = .data) (h : rxData d s = .next t) :
    t.rx.phase = .data ∨ (t.rx.phase = .crch ∧ t.rx.cnt.toNat = s.rx.size) := by
  rw [rxData_eq] at h
  split at h <;> cases h
  next hcap =>
    by_cases hlast : s.rx.cnt.toNat + 1 = s.rx.size
    · exact .inr ⟨if_pos hlast, (toNat_succ_of_lt_capacity hcap).trans hlast⟩
    · exact .inl ((if_neg hlast).trans hp)

/-- The lines from CRCL. -/
theorem rxCrcl_moves (h : rxCrcl c d s = .next t) :
    (¬ BlockIsValid s.rx d ∧ (t.rx.phase = .purge ∨ t.rx.phase = .failed)) ∨
    (BlockIsValid s.rx d ∧ (s.rx.hdr = true ∨ t.rx.hdr = true) ∧ t.rx.phase = .lead) ∨
    (BlockIsValid s.rx d ∧ s.rx.hdr = false ∧ .rxNullHeader ∈ t.res.ev ∧ t.rx.phase = .done) := by
  obtain ⟨hsum, e⟩ | ⟨-, hseq, e⟩ | ⟨-, -, hcrc, e⟩ | ⟨hv, e⟩ := rxCrcl_cases c d s <;> cases e.symm.trans h
  · exact .inl ⟨fun ⟨h, _, _⟩ => hsum h, nakPath_phase c _ s⟩
  · exact .inl ⟨fun ⟨_, h, _⟩ => hseq h, nakPath_phase c _ s⟩
  · exact .inl ⟨fun ⟨_, _, h⟩ => hcrc h, nakPath_phase c _ s⟩
  · refine .inr ?_
    cases hh : s.rx.hdr with
    | true => exact .inl ⟨hv, .inl rfl, rfl⟩
    | false =>
      by_cases hnull : ∀ b ∈ firstBytes s.rx.buf s.rx.size, b = NUL
      · rw [if_neg (by simp), rxHeader_of_null hnull]
        exact .inr ⟨hv, rfl, by simp, rfl⟩
      · rw [if_neg (by simp), rxHeader_of_not_null (by simpa using hnull)]
        exact .inl ⟨hv, .inr rfl, rfl⟩

/-- The lines of RX_TIMEOUT. -/
theorem rxTimeout_moves (c : Config) (s : State) :
    (rxTimeout c s).rx.phase = s.rx.phase ∨
    (s.rx.phase = .purge ∧ (rxTimeout c s).rx.phase = .lead) ∨
    ((s.rx.phase = .lead ∨ s.rx.phase = .seq ∨ s.rx.phase = .cmp ∨ s.rx.phase = .data ∨ s.rx.phase = .crch ∨
        s.rx.phase = .crcl) ∧ ((rxTimeout c s).rx.phase = .purge ∨ (rxTimeout c s).rx.phase = .failed)) := by
  cases hp : s.rx.phase with
  | idle | done | failed =>
    rw [rxTimeout_atRest (by simp [RxAtRest, hp])]
    exact .inl hp
  | purge =>
    rw [rxTimeout_purge hp]
    exact .inr (.inl ⟨rfl, rfl⟩)
  | lead | seq | cmp | data | crch | crcl =>
    rw [rxTimeout_in_block (by simp [RxAtRest, hp]) (by simp [hp])]
    exact .inr (.inr ⟨by simp, nakPath_phase c .timeout _⟩)

/-- The lines of RX_ABORT. -/
theorem rxAbort_moves (s : State) :
    (rxAbort s).rx.phase = s.rx.phase ∨
    (s.rx.phase ≠ .idle ∧ s.rx.phase ≠ .done ∧ s.rx.phase ≠ .failed ∧ (rxAbort s).rx.phase = .failed) := by
  by_cases hp : RxAtRest s.rx.phase
  · exact .inl (by rw [rxAbort_atRest hp])
  · rw [rxAbort_active hp]
    simp only [RxAtRest, not_or] at hp
    obtain ⟨hidle, hdone, hfailed⟩ := hp
    exact .inr ⟨hidle, hdone, hfailed, rfl⟩

/-- The lines of RX_BYTE d, as R150 lists them. -/
def RxByteLine (d : Byte) (s t : State) : Prop :=
  (s.rx.phase = .lead ∧ (d = SOH ∨ d = STX) ∧ t.rx.phase = .seq) ∨
  (s.rx.phase = .lead ∧ d = EOT ∧ s.rx.eotc = 1#2 ∧ t.rx.phase = .done) ∨
  (s.rx.phase = .lead ∧ d = CAN ∧ s.rx.canc = 1#2 ∧ t.rx.phase = .failed) ∨
  (s.rx.phase = .lead ∧ leadByte d = .other ∧ (t.rx.phase = .purge ∨ t.rx.phase = .failed)) ∨
  (s.rx.phase = .seq ∧ t.rx.phase = .cmp) ∨
  (s.rx.phase = .cmp ∧ t.rx.phase = .data) ∨
  (s.rx.phase = .data ∧ t.rx.phase = .crch ∧ t.rx.cnt.toNat = s.rx.size) ∨
  (s.rx.phase = .crch ∧ t.rx.phase = .crcl) ∨
  (s.rx.phase = .crcl ∧ ¬ BlockIsValid s.rx d ∧ (t.rx.phase = .purge ∨ t.rx.phase = .failed)) ∨
  (s.rx.phase = .crcl ∧ BlockIsValid s.rx d ∧ (s.rx.hdr = true ∨ t.rx.hdr = true) ∧ t.rx.phase = .lead) ∨
  (s.rx.phase = .crcl ∧ BlockIsValid s.rx d ∧ s.rx.hdr = false ∧ (.rxNullHeader ∈ t.res.ev) ∧ t.rx.phase = .done)

/-- RX_BYTE stays in its phase or takes one of its lines. -/
theorem rxByte_moves (h : rxByte c d s = .next t) : t.rx.phase = s.rx.phase ∨ RxByteLine d s t := by
  unfold rxByte at h
  cases hp : s.rx.phase <;> simp only [hp] at h
  case idle | done | failed | purge =>
    cases h
    exact .inl hp
  case lead =>
    cases h
    simpa [RxByteLine, hp] using rxLead_moves c d hp
  case seq | cmp | crch =>
    cases h
    simp [RxByteLine, hp, rxSeq, rxCmp, rxCrch]
  case data => simpa [RxByteLine, hp] using rxData_moves hp h
  case crcl =>
    right
    simpa [RxByteLine, hp] using rxCrcl_moves h

/-- While a fault is latched only RESET writes an RX register (R272). -/
theorem exec_rx_of_latched {i : Instr} (hf : s.fault ≠ .none) (hr : i ≠ .reset) (h : exec i s = .next t) :
    t.rx = s.rx := by
  by_cases hg : i = .getFault
  · subst hg
    cases (exec_getFault s).symm.trans h
    rfl
  · cases (exec_of_latched hf hr hg).symm.trans h
    rfl

/-- Settles O52, by the operations that write an RX register; every other one, and every one refused by the latch,
leaves RX_PHASE. -/
theorem rxPhaseMovesAsTheTableSays : Obligations.RxPhaseMovesAsTheTableSays := by
  intro i s t hr h
  by_cases hf : s.fault = .none
  · by_cases hi : i = .rxStart ∨ i = .rxTimeout ∨ i = .rxAbort ∨ ∃ d, i = .rxByte d
    · rcases hi with rfl | rfl | rfl | ⟨d, rfl⟩
      · cases (exec_rxStart hf).symm.trans h
        exact .inr (.inl ⟨rfl, rfl⟩)
      · cases (exec_rxTimeout hf).symm.trans h
        simpa using rxTimeout_moves Config.unit s.clearRes
      · cases (exec_rxAbort hf).symm.trans h
        simpa using rxAbort_moves s.clearRes
      · have hmoves := rxByte_moves ((exec_rxByte d hf).symm.trans h)
        exact hmoves.imp_right fun hline => .inr (.inl ⟨d, rfl, hline⟩)
    · simp only [not_or, not_exists] at hi
      obtain ⟨hs, ht, ha, hb⟩ := hi
      exact .inl (by rw [exec_rx hr h hs ht ha hb])
  · exact .inl (by rw [exec_rx_of_latched hf hr h])

end Sys2Proof.Safety
end

section
/-! PROOFS. What each rule of the send framer does, case by case (43_ymodem_tx.md R205 to R220): one equation per phase
and response byte, and the outcomes of a response listed once. -/

namespace Sys2Proof.Safety

open Sys2Proof.Machine

variable {c : Config} {s : State}

/-- The phases with no transfer in progress: before the first one and after the last (R211, R220). -/
abbrev TxAtRest (p : TxPhase) : Prop := p = .idle ∨ p = .done ∨ p = .failed

/-- The phases with a transfer in progress (R220). -/
abbrev TxActive (p : TxPhase) : Prop := p = .waitC ∨ p = .ready ∨ p = .waitAck ∨ p = .waitEot

/-- The wait phases (R212, R218). -/
abbrev TxWaits (p : TxPhase) : Prop := p = .waitC ∨ p = .waitAck ∨ p = .waitEot

theorem txAtRest_of_not_active {p : TxPhase} (h : ¬ TxActive p) : TxAtRest p := by
  cases p <;> simp_all [TxActive, TxAtRest]

/-! ## NoResolve (R215) and the counted retry (R214, R216, R217) -/

theorem txNoResolve_phase (c : Config) (s : State) :
    (txNoResolve c s).tx.phase = s.tx.phase ∨ (txNoResolve c s).tx.phase = .failed := by
  rw [txNoResolve_eq]
  split
  · exact .inr rfl
  · exact .inl rfl

theorem txRetryOrFail_phase (c : Config) (s : State) :
    (txRetryOrFail c s).tx.phase = s.tx.phase ∨ (txRetryOrFail c s).tx.phase = .failed := by
  rw [txRetryOrFail_eq]
  split
  · exact .inr rfl
  · exact .inl rfl

/-- An operation that starts from the empty record and is unresolved writes what R215 says. -/
theorem noResolveFrom_txNoResolve (s : State) :
    NoResolveFrom s (txNoResolve Config.unit (txClearCanc s.clearRes)) := by
  unfold NoResolveFrom
  rw [txNoResolve_eq]
  split
  · next h => exact if_pos h
  · next h => exact if_neg h

/-- An operation that starts from the empty record and counts a retry writes what R214, R216 and R217 say. -/
theorem retryFrom_txRetryOrFail (s : State) : RetryFrom s (txRetryOrFail Config.unit (txClearCanc s.clearRes)) := by
  unfold RetryFrom
  rw [txRetryOrFail_eq]
  split
  · next h => exact if_pos h
  · next h => exact if_neg h

/-- A counted retry emits the last frame below the limit, and nothing at the limit. -/
theorem RetryFrom.emitted {t : State} (h : RetryFrom s t) :
    t.res.tx = if (s.tx.retry + 1#4).toNat = Config.unit.retryLimit then [] else s.tx.frame := by
  unfold RetryFrom at h
  split at h <;> rw [h]
  · next hlimit => rw [if_pos hlimit]; rfl
  · next hlimit => rw [if_neg hlimit]; rfl

/-- In WAIT_EOT a counted retry emits [EOT], because that is the last frame sent (R216, R38). -/
theorem RetryFrom.emitted_in_waitEot {t : State} (h : RetryFrom s t) (hp : s.tx.phase = .waitEot)
    (hinv : TxInv Config.unit s.tx) :
    t.res.tx = if (s.tx.retry + 1#4).toNat = Config.unit.retryLimit then [] else [EOT] := by
  rw [h.emitted, hinv.kindEot (hinv.waitEot hp)]

/-! ## A CAN response (R212) -/

theorem txCan_first (h : s.tx.canc = 0#2) : txCan s = s.setTx { s.tx with canc := 1#2 } := by
  rw [txCan_eq, h]
  rfl

theorem txCan_second (h : s.tx.canc = 1#2) :
    txCan s =
      (s.setTx { s.tx with canc := 2#2, phase := .failed, err := .remoteCancelled }).emitEv
        (.txFailed .remoteCancelled) := by
  rw [txCan_eq, h]
  rfl

theorem txCan_phase (s : State) :
    (txCan s).tx.phase = s.tx.phase ∨ (s.tx.canc = 1#2 ∧ (txCan s).tx.phase = .failed) := by
  rw [txCan_eq]
  split
  · next h => exact .inr ⟨(succ_toNat_eq_two_iff _).1 h, rfl⟩
  · exact .inl rfl

/-! ## TX_RESP by phase and byte (R211 to R216) -/

theorem respByte_eq_handshake_iff {d : Byte} : respByte d = .handshake ↔ d = HANDSHAKE := by
  rcases respByte_cases d with ⟨rfl, -⟩ | ⟨rfl, -⟩ | ⟨rfl, -⟩ | ⟨rfl, -⟩ | ⟨h, -, -, -, e⟩
  iterate 4 decide
  simp [h, e]

theorem respByte_eq_ack_iff {d : Byte} : respByte d = .ack ↔ d = ACK := by
  rcases respByte_cases d with ⟨rfl, -⟩ | ⟨rfl, -⟩ | ⟨rfl, -⟩ | ⟨rfl, -⟩ | ⟨-, h, -, -, e⟩
  iterate 4 decide
  simp [h, e]

theorem respByte_eq_nak_iff {d : Byte} : respByte d = .nak ↔ d = NAK := by
  rcases respByte_cases d with ⟨rfl, -⟩ | ⟨rfl, -⟩ | ⟨rfl, -⟩ | ⟨rfl, -⟩ | ⟨-, -, h, -, e⟩
  iterate 4 decide
  simp [h, e]

theorem txRespWaitC_unresolved {d : Byte} (h : d ≠ HANDSHAKE) : txRespWaitC c d s = txNoResolve c s := by
  have hne := mt respByte_eq_handshake_iff.1 h
  unfold txRespWaitC
  cases hr : respByte d with
  | handshake => exact absurd hr hne
  | ack | nak | can | other => rfl

theorem txRespWaitAck_unresolved {d : Byte} (ha : d ≠ ACK) (hn : d ≠ NAK) :
    txRespWaitAck c d s = txNoResolve c s := by
  have hack := mt respByte_eq_ack_iff.1 ha
  have hnak := mt respByte_eq_nak_iff.1 hn
  unfold txRespWaitAck
  cases hr : respByte d with
  | ack => exact absurd hr hack
  | nak => exact absurd hr hnak
  | handshake | can | other => rfl

theorem txRespWaitEot_retry {d : Byte} (h : d ≠ ACK) : txRespWaitEot c d s = txRetryOrFail c s := by
  have hack := mt respByte_eq_ack_iff.1 h
  unfold txRespWaitEot
  cases hr : respByte d with
  | ack => exact absurd hr hack
  | handshake | nak | can | other => rfl

theorem txResp_atRest (d : Byte) (hp : TxAtRest s.tx.phase) : txResp c d s = s.retSt .notConsumed := by
  rcases hp with hp | hp | hp <;> rw [txResp, hp]

theorem txResp_ready (d : Byte) (hp : s.tx.phase = .ready) : txResp c d s = s := by
  rw [txResp, hp]

theorem txResp_can (hp : TxWaits s.tx.phase) : txResp c CAN s = txCan s := by
  rcases hp with hp | hp | hp <;> rw [txResp, hp] <;> rfl

theorem txResp_waitC_handshake (hp : s.tx.phase = .waitC) :
    txResp c HANDSHAKE s =
      (s.setTx { s.tx with canc := 0#2, attempt := 0#4, phase := .ready }).emitEv .txReady := by
  rw [txResp, hp]
  rfl

theorem txResp_waitC_unresolved {d : Byte} (hp : s.tx.phase = .waitC) (hd : d ≠ HANDSHAKE) (hc : d ≠ CAN) :
    txResp c d s = txNoResolve c (txClearCanc s) := by
  rw [txResp, hp]
  exact (if_neg hc).trans (txRespWaitC_unresolved hd)

theorem txResp_waitAck_ack (hp : s.tx.phase = .waitAck) :
    txResp c ACK s =
      (s.setTx { s.tx with canc := 0#2, seq := s.tx.seq + 1#8, retry := 0#4, attempt := 0#4,
                           phase := .ready }).emitEv .txAcked := by
  rw [txResp, hp]
  rfl

theorem txResp_waitAck_nak (hp : s.tx.phase = .waitAck) :
    txResp c NAK s = txRetryOrFail c (txClearCanc s) := by
  rw [txResp, hp]
  rfl

theorem txResp_waitAck_unresolved {d : Byte} (hp : s.tx.phase = .waitAck) (ha : d ≠ ACK) (hn : d ≠ NAK)
    (hc : d ≠ CAN) : txResp c d s = txNoResolve c (txClearCanc s) := by
  rw [txResp, hp]
  exact (if_neg hc).trans (txRespWaitAck_unresolved ha hn)

theorem txResp_waitEot_ack (hp : s.tx.phase = .waitEot) :
    txResp c ACK s = (s.setTx { s.tx with canc := 0#2, phase := .done }).emitEv .txDone := by
  rw [txResp, hp]
  rfl

theorem txResp_waitEot_retry {d : Byte} (hp : s.tx.phase = .waitEot) (ha : d ≠ ACK) (hc : d ≠ CAN) :
    txResp c d s = txRetryOrFail c (txClearCanc s) := by
  rw [txResp, hp]
  exact (if_neg hc).trans (txRespWaitEot_retry ha)

/-! ## TX_TIMEOUT and TX_ABORT by phase (R218, R220) -/

theorem txTimeout_no_wait (hp : ¬ TxWaits s.tx.phase) : txTimeout c s = s := by
  cases hq : s.tx.phase with
  | waitC | waitAck | waitEot => simp [TxWaits, hq] at hp
  | idle | ready | done | failed => simp only [txTimeout, hq]

theorem txTimeout_unresolved (hp : s.tx.phase = .waitC ∨ s.tx.phase = .waitAck) :
    txTimeout c s = txNoResolve c (txClearCanc s) := by
  rcases hp with hp | hp <;> simp only [txTimeout, hp]

theorem txTimeout_waitEot (hp : s.tx.phase = .waitEot) : txTimeout c s = txRetryOrFail c (txClearCanc s) := by
  simp only [txTimeout, hp]

theorem txAbort_atRest (hp : TxAtRest s.tx.phase) : txAbort s = s := by
  rcases hp with hp | hp | hp <;> simp only [txAbort, hp]

theorem txAbort_active (hp : TxActive s.tx.phase) : txAbort s = txFail .aborted s := by
  rcases hp with hp | hp | hp | hp <;> simp only [txAbort, hp]

/-! ## All a response can do -/

/-- The outcomes of a response `d` from `s`, one per case of R211 to R216. -/
inductive RespOutcome (c : Config) (d : Byte) (s : State) : State → Prop where
  | atRest (hp : TxAtRest s.tx.phase) : RespOutcome c d s (s.retSt .notConsumed)
  | ignored (hp : s.tx.phase = .ready) : RespOutcome c d s s
  | can (hp : TxWaits s.tx.phase) (hd : d = CAN) : RespOutcome c d s (txCan s)
  | ready (hp : s.tx.phase = .waitC) (hd : d = HANDSHAKE) :
      RespOutcome c d s ((s.setTx { s.tx with canc := 0#2, attempt := 0#4, phase := .ready }).emitEv .txReady)
  | unresolvedC (hp : s.tx.phase = .waitC) (hd : d ≠ HANDSHAKE) (hc : d ≠ CAN) :
      RespOutcome c d s (txNoResolve c (txClearCanc s))
  | acked (hp : s.tx.phase = .waitAck) (hd : d = ACK) :
      RespOutcome c d s
        ((s.setTx { s.tx with canc := 0#2, seq := s.tx.seq + 1#8, retry := 0#4, attempt := 0#4,
                              phase := .ready }).emitEv .txAcked)
  | nak (hp : s.tx.phase = .waitAck) (hd : d = NAK) : RespOutcome c d s (txRetryOrFail c (txClearCanc s))
  | unresolvedAck (hp : s.tx.phase = .waitAck) (ha : d ≠ ACK) (hc : d ≠ CAN) :
      RespOutcome c d s (txNoResolve c (txClearCanc s))
  | done (hp : s.tx.phase = .waitEot) (hd : d = ACK) :
      RespOutcome c d s ((s.setTx { s.tx with canc := 0#2, phase := .done }).emitEv .txDone)
  | retryEot (hp : s.tx.phase = .waitEot) (ha : d ≠ ACK) (hc : d ≠ CAN) :
      RespOutcome c d s (txRetryOrFail c (txClearCanc s))

/-- TX_RESP has no other outcome. -/
theorem txResp_outcome (c : Config) (d : Byte) (s : State) : RespOutcome c d s (txResp c d s) := by
  by_cases hw : TxWaits s.tx.phase
  · by_cases hcan : d = CAN
    · subst hcan
      rw [txResp_can hw]
      exact .can hw rfl
    · rcases hw with hp | hp | hp
      · by_cases hd : d = HANDSHAKE
        · subst hd
          rw [txResp_waitC_handshake hp]
          exact .ready hp rfl
        · rw [txResp_waitC_unresolved hp hd hcan]
          exact .unresolvedC hp hd hcan
      · by_cases ha : d = ACK
        · subst ha
          rw [txResp_waitAck_ack hp]
          exact .acked hp rfl
        · by_cases hn : d = NAK
          · subst hn
            rw [txResp_waitAck_nak hp]
            exact .nak hp rfl
          · rw [txResp_waitAck_unresolved hp ha hn hcan]
            exact .unresolvedAck hp ha hcan
      · by_cases ha : d = ACK
        · subst ha
          rw [txResp_waitEot_ack hp]
          exact .done hp rfl
        · rw [txResp_waitEot_retry hp ha hcan]
          exact .retryEot hp ha hcan
  · by_cases hr : s.tx.phase = .ready
    · rw [txResp_ready d hr]
      exact .ignored hr
    · have hrest : TxAtRest s.tx.phase := txAtRest_of_not_active (by simp_all [TxActive, TxWaits])
      rw [txResp_atRest d hrest]
      exact .atRest hrest

end Sys2Proof.Safety
end

section
/-! PROOFS. The operations of the send framer (43_ymodem_tx.md R201 to R222). -/

namespace Sys2Proof.Machine

/-- TX_STATUS holds each of R43's fields at its place, and nothing above them. -/
theorem txStatusWord_fields (t : Tx) :
    (txStatusWord t).extractLsb' 0 4 = t.phase.code ∧ (txStatusWord t).extractLsb' 4 4 = t.err.code ∧
    (txStatusWord t).extractLsb' 8 4 = t.retry ∧ (txStatusWord t).extractLsb' 12 4 = t.attempt ∧
    (txStatusWord t).extractLsb' 16 8 = t.seq ∧ (txStatusWord t).extractLsb' 24 2 = t.kind.code ∧
    (txStatusWord t).extractLsb' 26 2 = t.canc ∧ (txStatusWord t).extractLsb' 28 4 = 0#4 := by
  unfold txStatusWord
  refine ⟨?_, ?_, ?_, ?_, ?_, ?_, ?_, ?_⟩ <;>
    simp (disch := omega) only [BitVec.extractLsb'_or, extractLsb'_field_self, extractLsb'_field_disjoint,
      BitVec.or_zero, BitVec.zero_or]

end Sys2Proof.Machine

namespace Sys2Proof.Safety

open Sys2Proof.Machine

/-! ## The sends (R205 to R207) -/

section Send

variable {s : State}

theorem txSendHdr_not_ready (hp : s.tx.phase ≠ .ready) : txSendHdr s = .next (s.raiseFault .txNotReady) := by
  rw [txSendHdr, if_pos hp]

theorem txSendHdr_too_long (hp : s.tx.phase = .ready) (hlen : s.tx.len.toNat > 128) :
    txSendHdr s = .next (s.raiseFault .txHeaderTooLong) := by
  rw [txSendHdr, if_neg (not_not.2 hp), if_pos hlen]

theorem txSendHdr_ready (hp : s.tx.phase = .ready) (hlen : s.tx.len.toNat ≤ 128) :
    txSendHdr s = .next (txSend .hdr .waitAck
      (frameOf SOH s.tx.seq (firstBytes s.tx.buf s.tx.len.toNat ++ List.replicate (128 - s.tx.len.toNat) NUL))
      (s.setTx { s.tx with len := 0#11 })) := by
  rcases txSendHdr_cases s with ⟨h, -⟩ | ⟨-, h, -⟩ | ⟨-, -, e⟩
  · exact absurd hp h
  · omega
  · exact e

theorem txSendData_not_ready (hp : s.tx.phase ≠ .ready) : txSendData s = .next (s.raiseFault .txNotReady) := by
  rw [txSendData, if_pos hp]

theorem txSendData_ready (hp : s.tx.phase = .ready) (hlen : s.tx.len.toNat ≤ 1024) :
    txSendData s = .next (txSend .data .waitAck
      (frameOf STX s.tx.seq (firstBytes s.tx.buf s.tx.len.toNat ++ List.replicate (1024 - s.tx.len.toNat) SUB))
      (s.setTx { s.tx with len := 0#11 })) := by
  rcases txSendData_cases s with ⟨h, -⟩ | ⟨-, h, -⟩ | ⟨-, -, e⟩
  · exact absurd hp h
  · omega
  · exact e

theorem txSendEot_not_ready (hp : s.tx.phase ≠ .ready) : txSendEot s = s.raiseFault .txNotReady := by
  rw [txSendEot, if_pos hp]

theorem txSendEot_ready (hp : s.tx.phase = .ready) : txSendEot s = txSend .eot .waitEot [EOT] s := by
  rw [txSendEot, if_neg (not_not.2 hp)]

/-- A block's payload has the size it is padded to. -/
theorem length_padded {m : Buf} {n size : Nat} (h : n ≤ size) (pad : Byte) :
    (firstBytes m n ++ List.replicate (size - n) pad).length = size := by
  rw [List.length_append, length_firstBytes, List.length_replicate, Nat.add_sub_cancel' h]

/-- A frame is five bytes longer than its payload (R89). -/
theorem length_frameOf (mode sq : Byte) (p : List Byte) : (frameOf mode sq p).length = p.length + 5 :=
  length_makeFrame mode sq p

end Send

/-! ## The statements -/

/-- Settles O28, by the row of the table and the rule of TX_OPEN where no fault is latched. -/
theorem txOpenOperation : Obligations.TxOpenOperation :=
  ⟨encodesPlain_of_row rfl, fun _ => exec_txOpen⟩

/-- Settles O29, by whether TX_BUF is full; the new TX_BUF is the old one after one write. -/
theorem txLoadOperation : Obligations.TxLoadOperation := by
  refine ⟨encodesByte_of_row rfl, fun d s hf hwf => ?_⟩
  rw [exec_txLoad d hf, txLoad_eq, State.clearRes_tx]
  refine ⟨fun hfull => if_pos hfull, fun hlt => ⟨Buf.write s.tx.buf s.tx.len.toNat d, ?_, Buf.write_wf hwf hlt d,
    Buf.read_write_self hwf _ d, fun i hi => Buf.read_write_ne _ d hi⟩⟩
  rw [if_neg hlt.ne, if_pos hlt]
  rfl

/-- Settles O30, by the row of the table and the three outcomes of R205. -/
theorem txSendHdrOperation : Obligations.TxSendHdrOperation := by
  refine ⟨encodesPlain_of_row rfl, fun s hf => ?_⟩
  rw [exec_txSendHdr hf]
  refine ⟨fun hp => txSendHdr_not_ready (s := s.clearRes) hp,
    fun hp hlen => txSendHdr_too_long (s := s.clearRes) hp hlen,
    fun hp hlen => ⟨_, rfl, ?_, txSendHdr_ready (s := s.clearRes) hp hlen⟩⟩
  rw [length_frameOf, length_padded hlen]

/-- Settles O31, by the row of the table and whether the unit is ready. -/
theorem txSendDataOperation : Obligations.TxSendDataOperation := by
  refine ⟨encodesPlain_of_row rfl, fun s hf => ?_⟩
  rw [exec_txSendData hf]
  refine ⟨fun hp => txSendData_not_ready (s := s.clearRes) hp,
    fun hp hlen => ⟨_, rfl, ?_, txSendData_ready (s := s.clearRes) hp hlen⟩⟩
  rw [length_frameOf, length_padded hlen]

/-- Settles O32, by the row of the table and whether the unit is ready. -/
theorem txSendEotOperation : Obligations.TxSendEotOperation := by
  refine ⟨encodesPlain_of_row rfl, fun s hf => ?_⟩
  rw [exec_txSendEot hf]
  exact ⟨fun hp => congrArg _ (txSendEot_not_ready (s := s.clearRes) hp),
    fun hp => congrArg _ (txSendEot_ready (s := s.clearRes) hp)⟩

/-- Settles O33, by the groups of phases of R211 that do not wait. -/
theorem txRespDispatch : Obligations.TxRespDispatch := by
  refine ⟨encodesByte_of_row rfl, fun d s hf => ?_⟩
  rw [exec_txResp d hf]
  exact ⟨fun hp => congrArg _ (txResp_atRest (s := s.clearRes) d hp),
    fun hp => congrArg _ (txResp_ready (s := s.clearRes) d hp)⟩

/-- Settles O34, by the value of the CAN counter. -/
theorem txRespCanCancels : Obligations.TxRespCanCancels := by
  intro s hf hp
  rw [exec_txResp _ hf, txResp_can (s := s.clearRes) hp]
  exact ⟨fun h => congrArg _ (txCan_first (s := s.clearRes) h),
    fun h => congrArg _ (txCan_second (s := s.clearRes) h)⟩

/-- Settles O35, by whether the byte is 'C'. -/
theorem txRespInWaitC : Obligations.TxRespInWaitC := by
  intro d s hf hp hc
  rw [exec_txResp d hf]
  constructor
  · rintro rfl
    exact congrArg _ (txResp_waitC_handshake (s := s.clearRes) hp)
  · intro hd
    rw [txResp_waitC_unresolved (s := s.clearRes) hp hd hc]
    exact ⟨_, rfl, noResolveFrom_txNoResolve s⟩

/-- Settles O36, by whether the byte is ACK, NAK or another. -/
theorem txRespInWaitAck : Obligations.TxRespInWaitAck := by
  intro d s hf hp hc
  rw [exec_txResp d hf]
  refine ⟨?_, ?_, ?_⟩
  · rintro rfl
    exact congrArg _ (txResp_waitAck_ack (s := s.clearRes) hp)
  · rintro rfl
    rw [txResp_waitAck_nak (s := s.clearRes) hp]
    exact ⟨_, rfl, retryFrom_txRetryOrFail s⟩
  · intro ha hn
    rw [txResp_waitAck_unresolved (s := s.clearRes) hp ha hn hc]
    exact ⟨_, rfl, noResolveFrom_txNoResolve s⟩

/-- Settles O37, by whether the byte is ACK; what a retry emits is the last frame, which is EOT. -/
theorem txRespInWaitEot : Obligations.TxRespInWaitEot := by
  intro d s hf hp hc
  rw [exec_txResp d hf]
  constructor
  · rintro rfl
    exact congrArg _ (txResp_waitEot_ack (s := s.clearRes) hp)
  · intro ha
    have hretry := retryFrom_txRetryOrFail s
    rw [txResp_waitEot_retry (s := s.clearRes) hp ha hc]
    exact ⟨_, rfl, hretry, hretry.emitted_in_waitEot hp⟩

/-- Settles O38, by the row of the table and the three groups of phases of R218. -/
theorem txTimeoutOperation : Obligations.TxTimeoutOperation := by
  refine ⟨encodesPlain_of_row rfl, fun s hf => ?_⟩
  rw [exec_txTimeout hf]
  refine ⟨fun hp => ?_, fun hp => ?_, fun hp => ?_⟩
  · have hwait : ¬ TxWaits s.tx.phase := by rcases hp with h | h | h | h <;> simp [TxWaits, h]
    exact congrArg _ (txTimeout_no_wait (s := s.clearRes) hwait)
  · rw [txTimeout_unresolved (s := s.clearRes) hp]
    exact ⟨_, rfl, noResolveFrom_txNoResolve s⟩
  · have hretry := retryFrom_txRetryOrFail s
    rw [txTimeout_waitEot (s := s.clearRes) hp]
    exact ⟨_, rfl, hretry, hretry.emitted_in_waitEot hp⟩

/-- Settles O39, by the row of the table and the two groups of phases of R220. -/
theorem txAbortOperation : Obligations.TxAbortOperation := by
  refine ⟨encodesPlain_of_row rfl, fun s hf => ?_⟩
  rw [exec_txAbort hf]
  exact ⟨fun hp => congrArg _ (txAbort_active (s := s.clearRes) hp),
    fun hp => congrArg _ (txAbort_atRest (s := s.clearRes) hp)⟩

/-- Settles O40, by the row of the table and the fields of the status word. -/
theorem txStatusOperation : Obligations.TxStatusOperation :=
  ⟨encodesPlain_of_row rfl, fun s hf => ⟨_, exec_txStatus hf, txStatusWord_fields s.tx⟩, rfl, rfl, rfl⟩

end Sys2Proof.Safety
end

section
/-! PROOFS. A data block from one unit to another (43_ymodem_tx.md R206, R214, 42_ymodem_rx.md R162, R164): the sender's
frame is a well-formed one, and the receiver's one ACK is the response the sender waits for. -/

namespace Sys2Proof.Safety

open Sys2Proof.Machine

/-- Settles O59, by the frame TX_SEND_DATA emits (O31), its reception (O57) and the ACK in WAIT_ACK (O36). -/
theorem sentDataBlockIsReceived : Obligations.SentDataBlockIsReceived := by
  intro s u hf hp hlen huf hup huh huwf hexp
  obtain ⟨f, hframe, -, hsend⟩ := (txSendDataOperation.2 s hf).2 hp hlen
  obtain ⟨u1, rs, hrun, -, hwire, hevents, -, hnext, -⟩ :=
    wellFormedDataFrameIsAccepted STX _ u huf hup huh huwf (.inr ⟨rfl, length_padded hlen SUB⟩)
  rw [hexp, ← hframe] at hrun
  rw [hexp] at hnext
  have hack := (txRespInWaitAck ACK { s with
    tx := { s.tx with frame := f, kind := .data, len := 0#11, retry := 0#4, attempt := 0#4, phase := .waitAck },
    res := okRes 0#32 [] f [] } hf rfl (by decide)).1 rfl
  have hresponse := runOps_single hack
  rw [show [Instr.txResp ACK] = (wire rs).map .txResp by rw [hwire]; rfl] at hresponse
  exact ⟨_, u1, rs, _, _, hsend, hrun, hevents, hresponse, rfl, rfl, hnext.symm⟩

end Sys2Proof.Safety
end

section
/-! PROOFS. The moves of TX_PHASE (43_ymodem_tx.md R200): the lines of the table that each input can take, with their
conditions. -/

namespace Sys2Proof.Safety

open Sys2Proof.Machine

variable {c : Config} {d : Byte} {s t : State}

/-- The lines of TX_RESP d, as R200 lists them. -/
def TxRespLine (d : Byte) (s t : State) : Prop :=
  (s.tx.phase = .waitC ∧ d = HANDSHAKE ∧ t.tx.phase = .ready) ∨
  (s.tx.phase = .waitC ∧ (d ≠ HANDSHAKE ∧ d ≠ CAN) ∧ t.tx.phase = .failed) ∨
  (s.tx.phase = .waitAck ∧ d = ACK ∧ t.tx.phase = .ready) ∨
  (s.tx.phase = .waitAck ∧ (d ≠ ACK ∧ d ≠ CAN) ∧ t.tx.phase = .failed) ∨
  (s.tx.phase = .waitEot ∧ d = ACK ∧ t.tx.phase = .done) ∨
  (s.tx.phase = .waitEot ∧ (d ≠ ACK ∧ d ≠ CAN) ∧ t.tx.phase = .failed) ∨
  (TxWaits s.tx.phase ∧ d = CAN ∧ s.tx.canc = 1#2 ∧ t.tx.phase = .failed)

/-- A response stays in its phase or takes one of its lines. -/
theorem RespOutcome.moves (h : RespOutcome c d s t) : t.tx.phase = s.tx.phase ∨ TxRespLine d s t := by
  cases h with
  | atRest | ignored => exact .inl rfl
  | can hp hd => exact (txCan_phase s).imp_right fun ⟨hcanc, hfailed⟩ => by simp [TxRespLine, hp, hd, hcanc, hfailed]
  | ready hp hd => simp [TxRespLine, hp, hd]
  | unresolvedC hp hd hc =>
    exact (txNoResolve_phase c (txClearCanc s)).imp_right (by simp [TxRespLine, hp, hd, hc])
  | acked hp hd => simp [TxRespLine, hp, hd]
  | nak hp hd =>
    have hne : d ≠ ACK ∧ d ≠ CAN := by rw [hd]; decide
    exact (txRetryOrFail_phase c (txClearCanc s)).imp_right (by simp [TxRespLine, hp, hne])
  | unresolvedAck hp ha hc =>
    exact (txNoResolve_phase c (txClearCanc s)).imp_right (by simp [TxRespLine, hp, ha, hc])
  | done hp hd => simp [TxRespLine, hp, hd]
  | retryEot hp ha hc =>
    exact (txRetryOrFail_phase c (txClearCanc s)).imp_right (by simp [TxRespLine, hp, ha, hc])

/-- The lines of TX_TIMEOUT. -/
theorem txTimeout_moves (c : Config) (s : State) :
    (txTimeout c s).tx.phase = s.tx.phase ∨ (TxWaits s.tx.phase ∧ (txTimeout c s).tx.phase = .failed) := by
  by_cases hw : TxWaits s.tx.phase
  · rw [and_iff_right hw]
    rcases hw with hp | hp | hp
    · rw [txTimeout_unresolved (.inl hp)]
      exact txNoResolve_phase c (txClearCanc s)
    · rw [txTimeout_unresolved (.inr hp)]
      exact txNoResolve_phase c (txClearCanc s)
    · rw [txTimeout_waitEot hp]
      exact txRetryOrFail_phase c (txClearCanc s)
  · exact .inl (by rw [txTimeout_no_wait hw])

/-- The lines of TX_ABORT. -/
theorem txAbort_moves (s : State) :
    (txAbort s).tx.phase = s.tx.phase ∨ (TxActive s.tx.phase ∧ (txAbort s).tx.phase = .failed) := by
  by_cases hp : TxActive s.tx.phase
  · exact .inr ⟨hp, by rw [txAbort_active hp]; rfl⟩
  · exact .inl (by rw [txAbort_atRest (txAtRest_of_not_active hp)])

/-- The line of TX_SEND_HDR. -/
theorem txSendHdr_moves (h : txSendHdr s = .next t) :
    t.tx.phase = s.tx.phase ∨ (s.tx.phase = .ready ∧ t.tx.phase = .waitAck) := by
  rcases txSendHdr_cases s with ⟨-, e⟩ | ⟨-, -, e⟩ | ⟨hp, -, e⟩ <;> cases e.symm.trans h
  · exact .inl rfl
  · exact .inl rfl
  · exact .inr ⟨hp, rfl⟩

/-- The line of TX_SEND_DATA. -/
theorem txSendData_moves (h : txSendData s = .next t) :
    t.tx.phase = s.tx.phase ∨ (s.tx.phase = .ready ∧ t.tx.phase = .waitAck) := by
  rcases txSendData_cases s with ⟨-, e⟩ | ⟨-, -, e⟩ | ⟨hp, -, e⟩ <;> cases e.symm.trans h
  · exact .inl rfl
  · exact .inr ⟨hp, rfl⟩

/-- The line of TX_SEND_EOT. -/
theorem txSendEot_moves (s : State) :
    (txSendEot s).tx.phase = s.tx.phase ∨ (s.tx.phase = .ready ∧ (txSendEot s).tx.phase = .waitEot) := by
  rcases txSendEot_cases s with ⟨-, e⟩ | ⟨hp, e⟩ <;> rw [e]
  · exact .inl rfl
  · exact .inr ⟨hp, rfl⟩

/-- TX_LOAD, in any phase (R202), leaves every TX register but TX_BUF and TX_LEN. -/
theorem txLoad_tx (h : txLoad d s = .next t) : ∃ b n, t.tx = { s.tx with buf := b, len := n } := by
  rw [txLoad_eq] at h
  split at h
  · cases h
    exact ⟨_, _, rfl⟩
  · split at h <;> cases h
    exact ⟨_, _, rfl⟩

/-- While a fault is latched only RESET writes a TX register (R272). -/
theorem exec_tx_of_latched {i : Instr} (hf : s.fault ≠ .none) (hr : i ≠ .reset) (h : exec i s = .next t) :
    t.tx = s.tx := by
  by_cases hg : i = .getFault
  · subst hg
    cases (exec_getFault s).symm.trans h
    rfl
  · cases (exec_of_latched hf hr hg).symm.trans h
    rfl

/-- Settles O53, by the operations that write a TX register; every other one, and every one refused by the latch,
leaves TX_PHASE. -/
theorem txPhaseMovesAsTheTableSays : Obligations.TxPhaseMovesAsTheTableSays := by
  intro i s t hr h
  by_cases hf : s.fault = .none
  · cases i with
    | txOpen =>
      cases (exec_txOpen hf).symm.trans h
      exact .inr (.inl ⟨rfl, rfl⟩)
    | txResp d =>
      cases (exec_txResp d hf).symm.trans h
      have hmoves := (txResp_outcome Config.unit d s.clearRes).moves
      simpa [TxRespLine, TxWaits] using hmoves
    | txTimeout =>
      cases (exec_txTimeout hf).symm.trans h
      simpa [TxWaits, or_and_right] using txTimeout_moves Config.unit s.clearRes
    | txLoad d =>
      obtain ⟨b, n, htx⟩ := txLoad_tx ((exec_txLoad d hf).symm.trans h)
      exact .inl (by rw [htx]; rfl)
    | txSendHdr => simpa using txSendHdr_moves ((exec_txSendHdr hf).symm.trans h)
    | txSendData => simpa using txSendData_moves ((exec_txSendData hf).symm.trans h)
    | txSendEot =>
      cases (exec_txSendEot hf).symm.trans h
      simpa using txSendEot_moves s.clearRes
    | txAbort =>
      cases (exec_txAbort hf).symm.trans h
      simpa [TxActive] using txAbort_moves s.clearRes
    | _ => exact .inl (by rw [exec_tx hr h] <;> simp [isSend])
  · exact .inl (by rw [exec_tx_of_latched hf hr h])

end Sys2Proof.Safety
end

section
/-! PROOFS. Resends of a sent frame (43_ymodem_tx.md R223, R217): how often the frame can still be resent is bounded by
what is left of the retry limit, and a run without a new send spends that bound frame by frame. -/

namespace Sys2Proof.Safety

open Sys2Proof.Machine

variable {c : Config}

/-! ## What is left to resend -/

/-- The phases in which TX_FRAME can be resent (R214, R216). -/
abbrev AwaitsAck (p : TxPhase) : Prop := p = .waitAck ∨ p = .waitEot

/-- How often TX_FRAME can still be resent before a new send: each resend counts TX_RETRY up, and a retry that reaches
the limit fails the transfer instead (R214). -/
def resendsLeft (c : Config) (x : Tx) : Nat := if AwaitsAck x.phase then c.retryLimit - 1 - x.retry.toNat else 0

theorem resendsLeft_lt (c : Config) (x : Tx) : resendsLeft c x + 1 ≤ c.retryLimit := by
  have hpos := retryLimit_pos c
  unfold resendsLeft
  split <;> omega

/-- The frames `fs` were put on the wire between the TX registers `x` and `y`: each is TX_FRAME and is taken from what
was left to resend, and TX_FRAME is still the same while it can be resent. -/
structure Spends (c : Config) (fs : List (List Byte)) (x y : Tx) : Prop where
  left : resendsLeft c y + fs.length ≤ resendsLeft c x
  frame : resendsLeft c y ≠ 0 → y.frame = x.frame
  same : ∀ f ∈ fs, f = x.frame

/-- Where nothing happens nothing is spent. -/
theorem Spends.refl (c : Config) (x : Tx) : Spends c [] x x := ⟨Nat.le_refl _, fun _ => rfl, by simp⟩

/-- Two stretches in a row. -/
theorem Spends.append {fs gs : List (List Byte)} {x y z : Tx} (hxy : Spends c fs x y) (hyz : Spends c gs y z) :
    Spends c (fs ++ gs) x z where
  left := by
    have hfs := hxy.left
    have hgs := hyz.left
    rw [List.length_append]
    omega
  frame hz := by
    have hgs := hyz.left
    rw [hyz.frame hz, hxy.frame (by omega)]
  same f hf := by
    rcases List.mem_append.1 hf with hf | hf
    · exact hxy.same f hf
    · have hgs := hyz.left
      have hpos := List.length_pos_of_mem hf
      rw [hyz.same f hf, hxy.frame (by omega)]

/-- What an operation emitted, as a list of frames: nothing emitted is no frame. -/
def framesOf (l : List Byte) : List (List Byte) := if l.isEmpty then [] else [l]

theorem Spends.framesOf_of_single {l : List Byte} {x y : Tx} (h : Spends c [l] x y) : Spends c (framesOf l) x y := by
  unfold framesOf
  split
  · exact ⟨Nat.le_of_succ_le h.left, h.frame, by simp⟩
  · exact h

/-! ## Operations that resend nothing -/

/-- From `x` to `y` nothing was resent: either TX_FRAME cannot be resent any more, or all that decides it is kept. -/
def KeepsResends (x y : Tx) : Prop :=
  ¬ AwaitsAck y.phase ∨ (y.phase = x.phase ∧ y.retry = x.retry ∧ y.frame = x.frame)

theorem KeepsResends.spends {x y : Tx} (h : KeepsResends x y) : Spends c [] x y := by
  rcases h with hp | ⟨hp, hr, hfr⟩
  · have hzero : resendsLeft c y = 0 := if_neg hp
    exact ⟨by simp [hzero], fun hne => absurd hzero hne, by simp⟩
  · have hleft : resendsLeft c y = resendsLeft c x := by rw [resendsLeft, resendsLeft, hp, hr]
    exact ⟨hleft.le, fun _ => hfr, by simp⟩

/-- An answer to a TX input that puts nothing on the wire. -/
structure NoResend (s t : State) : Prop where
  quiet : t.res.tx = s.res.tx
  keeps : KeepsResends s.tx t.tx

theorem noResend_refl (s : State) : NoResend s s := ⟨rfl, .inr ⟨rfl, rfl, rfl⟩⟩

theorem noResend_txCan (s : State) : NoResend s (txCan s) := by
  rw [txCan_eq]
  split
  · exact ⟨rfl, .inl (by simp)⟩
  · exact ⟨rfl, .inr ⟨rfl, rfl, rfl⟩⟩

theorem noResend_txNoResolve (c : Config) (s : State) : NoResend s (txNoResolve c (txClearCanc s)) := by
  rw [txNoResolve_eq]
  split
  · exact ⟨rfl, .inl (by simp)⟩
  · exact ⟨rfl, .inr ⟨rfl, rfl, rfl⟩⟩

theorem keepsResends_txAbort (s : State) : KeepsResends s.tx (txAbort s).tx := by
  by_cases hp : TxActive s.tx.phase
  · rw [txAbort_active hp]
    exact .inl (by simp [txFail])
  · rw [txAbort_atRest (txAtRest_of_not_active hp)]
    exact .inr ⟨rfl, rfl, rfl⟩

/-! ## The TX inputs -/

/-- An answer to a TX input: nothing on the wire, or the counted retry of R214 and R216. -/
def NoResendOrRetry (c : Config) (s t : State) : Prop :=
  NoResend s t ∨ (AwaitsAck s.tx.phase ∧ t = txRetryOrFail c (txClearCanc s))

theorem RespOutcome.noResendOrRetry {d : Byte} {s t : State} (h : RespOutcome c d s t) : NoResendOrRetry c s t := by
  cases h with
  | atRest => exact .inl ⟨rfl, .inr ⟨rfl, rfl, rfl⟩⟩
  | ignored => exact .inl (noResend_refl s)
  | can => exact .inl (noResend_txCan s)
  | ready | acked | done => exact .inl ⟨rfl, .inl (by simp)⟩
  | unresolvedC | unresolvedAck => exact .inl (noResend_txNoResolve c s)
  | nak hp => exact .inr ⟨.inl hp, rfl⟩
  | retryEot hp => exact .inr ⟨.inr hp, rfl⟩

theorem txTimeout_noResendOrRetry (c : Config) (s : State) : NoResendOrRetry c s (txTimeout c s) := by
  by_cases hw : TxWaits s.tx.phase
  · rcases hw with hp | hp | hp
    · rw [txTimeout_unresolved (.inl hp)]
      exact .inl (noResend_txNoResolve c s)
    · rw [txTimeout_unresolved (.inr hp)]
      exact .inl (noResend_txNoResolve c s)
    · exact .inr ⟨.inr hp, txTimeout_waitEot hp⟩
  · rw [txTimeout_no_wait hw]
    exact .inl (noResend_refl s)

/-- A counted retry takes its frame from what is left to resend: below the limit TX_RETRY counts up by one, and at the
limit nothing is emitted. -/
theorem spends_txRetryOrFail {s : State} (hinv : TxInv c s.tx) (hp : AwaitsAck s.tx.phase) (hres : s.res.tx = []) :
    Spends c (framesOf (txRetryOrFail c (txClearCanc s)).res.tx) s.tx (txRetryOrFail c (txClearCanc s)).tx := by
  have hlt : s.tx.retry.toNat < c.retryLimit := (hinv.live (by rcases hp with h | h <;> simp [h])).retry
  have hsucc := toNat_succ_of_lt_retryLimit hlt
  have hempty : (txClearCanc s).res.tx = [] := hres
  rw [txRetryOrFail_eq]
  split
  · have hfailed : KeepsResends s.tx { s.tx with canc := 0#2, retry := s.tx.retry + 1#4, phase := .failed,
                                                 err := .retryLimitExceeded } := .inl (by simp)
    rw [hempty]
    exact hfailed.spends
  · next h =>
    have hbelow : (s.tx.retry + 1#4).toNat ≠ c.retryLimit := h
    rw [hempty]
    refine Spends.framesOf_of_single ⟨?_, fun _ => rfl, by simp [txClearCanc]⟩
    have hnow : resendsLeft c s.tx = c.retryLimit - 1 - s.tx.retry.toNat := if_pos hp
    have hnext : resendsLeft c { s.tx with canc := 0#2, retry := s.tx.retry + 1#4, attempt := 0#4 } =
        c.retryLimit - 1 - (s.tx.retry + 1#4).toNat := if_pos hp
    exact (Nat.add_le_add_right hnext.le 1).trans (by omega)

/-- Either answer to a TX input stays within what is left to resend. -/
theorem NoResendOrRetry.spends {s t : State} (h : NoResendOrRetry c s t) (hinv : TxInv c s.tx)
    (hres : s.res.tx = []) : Spends c (framesOf t.res.tx) s.tx t.tx := by
  rcases h with ⟨hquiet, hkeeps⟩ | ⟨hp, rfl⟩
  · rw [hquiet, hres]
    exact hkeeps.spends
  · exact spends_txRetryOrFail hinv hp hres

/-! ## Every operation but a send, and every run of them -/

/-- An operation that is neither a send nor a TX input leaves what is left to resend, or ends it. -/
theorem exec_keepsResends {i : Instr} {s t : State} (hsend : isSend i = false) (hin : isTxInput i = false)
    (h : exec i s = .next t) : KeepsResends s.tx t.tx := by
  by_cases hr : i = .reset
  · subst hr
    cases (exec_reset s).symm.trans h
    exact .inl (by simp [Tx.reset])
  by_cases hf : s.fault = .none
  · cases i with
    | txOpen =>
      cases (exec_txOpen hf).symm.trans h
      exact .inl (by simp [Tx.opened])
    | txLoad d =>
      obtain ⟨b, n, htx⟩ := txLoad_tx ((exec_txLoad d hf).symm.trans h)
      exact .inr (by rw [htx]; exact ⟨rfl, rfl, rfl⟩)
    | txAbort =>
      cases (exec_txAbort hf).symm.trans h
      exact keepsResends_txAbort s.clearRes
    | txResp | txTimeout => cases hin
    | txSendHdr | txSendData | txSendEot => cases hsend
    | _ => exact .inr (by rw [exec_tx hr h] <;> simp [isSend])
  · exact .inr (by rw [exec_tx_of_latched hf hr h]; exact ⟨rfl, rfl, rfl⟩)

/-- A TX input stays within what is left to resend; a latched fault refuses it (R272). -/
theorem exec_txInput_spends {i : Instr} {s t : State} (hinv : TxInv Config.unit s.tx) (hin : isTxInput i = true)
    (h : exec i s = .next t) : Spends Config.unit (framesOf t.res.tx) s.tx t.tx := by
  by_cases hf : s.fault = .none
  · have hanswer : NoResendOrRetry Config.unit s.clearRes t := by
      cases i with
      | txResp d =>
        cases (exec_txResp d hf).symm.trans h
        exact (txResp_outcome Config.unit d s.clearRes).noResendOrRetry
      | txTimeout =>
        cases (exec_txTimeout hf).symm.trans h
        exact txTimeout_noResendOrRetry Config.unit s.clearRes
      | _ => cases hin
    exact hanswer.spends hinv rfl
  · have hr : i ≠ .reset := by rintro rfl; cases hin
    have hg : i ≠ .getFault := by rintro rfl; cases hin
    cases (exec_of_latched hf hr hg).symm.trans h
    exact .refl Config.unit s.tx

/-- What a TX input resends is counted, and nothing else is. -/
theorem resent_cons {i : Instr} {is : List Instr} {s t : State} (h : exec i s = .next t) :
    resent (i :: is) s = (if isTxInput i then framesOf t.res.tx else []) ++ resent is t := by
  rw [resent, h]
  cases he : t.res.tx.isEmpty <;> simp [framesOf, he]

/-- A run without a send stays within what is left to resend, by induction on the run. -/
theorem resent_spends {is : List Instr} (hsend : ∀ i ∈ is, isSend i = false) {s : State} (hinv : UnitInv s) :
    ∃ y, Spends Config.unit (resent is s) s.tx y := by
  induction is generalizing s with
  | nil => exact ⟨s.tx, .refl Config.unit s.tx⟩
  | cons i is ih =>
    obtain ⟨hi, his⟩ := List.forall_mem_cons.1 hsend
    obtain ⟨t, ht, htinv⟩ := exec_keeps_unitInv i hinv
    obtain ⟨y, hy⟩ := ih his htinv
    refine ⟨y, ?_⟩
    rw [resent_cons ht]
    refine Spends.append ?_ hy
    cases hin : isTxInput i with
    | true => exact exec_txInput_spends hinv.tx hin ht
    | false => exact (exec_keepsResends hi hin ht).spends

/-- Settles O56: what is left to resend is below RETRY_LIMIT in every state, the one after the send among them, and the
run after it stays within that. -/
theorem frameIsResentBelowRetryLimit : Obligations.FrameIsResentBelowRetryLimit := by
  intro send is s t hinv _ ht _ his
  obtain ⟨t', ht', htinv⟩ := exec_keeps_unitInv send hinv
  cases ht.symm.trans ht'
  obtain ⟨y, hspends⟩ := resent_spends his htinv
  have hleft := hspends.left
  have hlimit := resendsLeft_lt Config.unit t.tx
  exact ⟨by omega, hspends.same⟩

end Sys2Proof.Safety
end

section
/-! PROOFS. The system operations (44_system.md R250 to R252): the fault word, the reset values, and what a latched
fault leaves to an operation. -/

namespace Sys2Proof.Machine

/-- The FAULT word is one field, from bit 0 on (R45). -/
theorem faultWord_eq_field (f : FaultCode) : faultWord f = field f.code 0 := by
  rw [faultWord, field, BitVec.shiftLeft_zero]

/-- The layout of R45. -/
theorem faultWord_fields (f : FaultCode) :
    (faultWord f).extractLsb' 0 8 = f.code ∧ (faultWord f).extractLsb' 8 24 = 0#24 := by
  rw [faultWord_eq_field]
  exact ⟨extractLsb'_field_self f.code (by decide), extractLsb'_field_disjoint f.code (by decide)⟩

end Sys2Proof.Machine

namespace Sys2Proof.Safety

open Sys2Proof.Machine

/-- RESET writes every value of R46's table, whatever the state before. -/
theorem atResetValues_resetUnit (s : State) : AtResetValues s.resetUnit.clearRes := by
  constructor <;> rfl

/-- While a fault is latched an operation other than RESET writes the result record only: GET_FAULT answers the fault
word, and the latch refuses every other one (R272). -/
theorem exec_onlyRes_of_latched {i : Instr} {s t : State} (hf : s.fault ≠ .none) (hr : i ≠ .reset)
    (h : exec i s = .next t) : t = { s with res := t.res } := by
  by_cases hg : i = .getFault
  · subst hg
    cases (exec_getFault s).symm.trans h
    rfl
  · cases (exec_of_latched hf hr hg).symm.trans h
    rfl

/-- The only operation that clears FAULT is RESET (R251, R272). -/
theorem eq_reset_of_exec_clears_fault {i : Instr} {s t : State} (h : exec i s = .next t) (hf : s.fault ≠ .none)
    (ht : t.fault = .none) : i = .reset := by
  by_contra hr
  have hkept : t.fault = s.fault := by rw [exec_onlyRes_of_latched hf hr h]
  exact hf (hkept.symm.trans ht)

/-- Settles O1: the power-on state is the one RESET makes of it, RESET never meets the latch, and a latched fault
survives every other operation. -/
theorem resetOperation : Obligations.ResetOperation :=
  ⟨atResetValues_resetUnit State.reset, encodesPlain_of_row rfl,
    fun s => ⟨_, exec_reset s, atResetValues_resetUnit s, rfl, rfl⟩, fun _ _ _ => eq_reset_of_exec_clears_fault⟩

/-- Settles O2, by the row of the table, the rule of NOP where no fault is latched, and the latch's refusal. -/
theorem nopOperation : Obligations.NopOperation :=
  ⟨encodesPlain_of_row rfl, fun _ => ⟨exec_nop, fun hf => exec_of_latched hf (by decide) (by decide)⟩⟩

/-- Settles O3, by the row of the table and the layout of the word GET_FAULT answers in every state. -/
theorem getFaultOperation : Obligations.GetFaultOperation :=
  ⟨encodesPlain_of_row rfl, fun s => ⟨_, exec_getFault s, faultWord_fields s.fault⟩⟩

end Sys2Proof.Safety
end

section
/-! PROOFS. What a latched fault leaves of a run (60_exceptions.md R272): each operation of the run answers one record,
which FAULT and the operation determine, and writes nothing else. -/

namespace Sys2Proof.Safety

open Sys2Proof.Machine

/-- The record an operation other than RESET answers while the fault `f` is latched. -/
def latchedRes (f : FaultCode) (i : Instr) : Res :=
  if i = .getFault then okRes (f.code.setWidth 32) [] [] [] else Res.faulted

theorem exec_latched {i : Instr} {s : State} (hf : s.fault ≠ .none) (hr : i ≠ .reset) :
    exec i s = .next { s with res := latchedRes s.fault i } := by
  by_cases hg : i = .getFault
  · subst hg
    exact exec_getFault s
  · rw [exec_of_latched hf hr hg, latchedRes, if_neg hg]

/-- A run under the latch, by induction on its operations: FAULT stays, so the next operation meets the latch again. -/
theorem runOps_latched {is : List Instr} {s : State} (hf : s.fault ≠ .none) (hr : .reset ∉ is) :
    ∃ t, runOps is s = some (t, is.map (latchedRes s.fault)) ∧ t = { s with res := t.res } := by
  induction is generalizing s with
  | nil => exact ⟨s, rfl, rfl⟩
  | cons i is ih =>
    obtain ⟨hi, his⟩ := List.ne_and_not_mem_of_not_mem_cons hr
    obtain ⟨t, hrun, hframe⟩ := ih (s := { s with res := latchedRes s.fault i }) hf his
    exact ⟨t, runOps_cons (exec_latched hf hi.symm) hrun, hframe⟩

/-- Settles O45, by the run under the latch, whose records are the latched record of each operation. -/
theorem latchedFaultStopsTheUnit : Obligations.LatchedFaultStopsTheUnit := by
  intro is s hf hr
  obtain ⟨t, hrun, hframe⟩ := runOps_latched hf hr
  exact ⟨t, _, hrun, hframe, List.forall₂_map_right_iff.2 (List.forall₂_same.2 fun _ _ => rfl)⟩

end Sys2Proof.Safety
end

section
/-! PROOFS. The status of the result record: the rules of the framers that never raise a fault (60_exceptions.md R275)
never answer FAULTED either. -/

namespace Sys2Proof.Safety

open Sys2Proof.Machine

variable {c : Config} {s t : State}

theorem fault_of_onlyRx (h : OnlyRx s t) : t.fault = s.fault := by
  rw [h]

theorem fault_of_onlyTx (h : OnlyTx s t) : t.fault = s.fault := by
  rw [h]

theorem rxByte_st_ne_faulted {d : Byte} (hs : s.res.st ≠ .faulted) (h : rxByte c d s = .next t) :
    t.res.st ≠ .faulted := by
  by_cases hp : RxAtRest s.rx.phase
  · cases (rxByte_atRest d hp).symm.trans h
    simp
  · rwa [rxByte_st hp h]

@[simp] theorem rxTimeout_st (c : Config) (s : State) : (rxTimeout c s).res.st = s.res.st := by
  by_cases hrest : RxAtRest s.rx.phase
  · rw [rxTimeout_atRest hrest]
  · by_cases hpurge : s.rx.phase = .purge
    · rw [rxTimeout_purge hpurge]
      rfl
    · rw [rxTimeout_in_block hrest hpurge, nakPath_st]
      rfl

@[simp] theorem rxAbort_st (s : State) : (rxAbort s).res.st = s.res.st := by
  by_cases hrest : RxAtRest s.rx.phase
  · rw [rxAbort_atRest hrest]
  · rw [rxAbort_active hrest]
    rfl

@[simp] theorem txNoResolve_st (c : Config) (s : State) : (txNoResolve c s).res.st = s.res.st := by
  rw [txNoResolve_eq]
  split <;> rfl

@[simp] theorem txRetryOrFail_st (c : Config) (s : State) : (txRetryOrFail c s).res.st = s.res.st := by
  rw [txRetryOrFail_eq]
  split <;> rfl

@[simp] theorem txCan_st (s : State) : (txCan s).res.st = s.res.st := by
  rw [txCan_eq]
  split <;> rfl

@[simp] theorem txClearCanc_st (s : State) : (txClearCanc s).res.st = s.res.st := rfl

theorem RespOutcome.st_ne_faulted {d : Byte} (h : RespOutcome c d s t) (hs : s.res.st ≠ .faulted) :
    t.res.st ≠ .faulted := by
  cases h with
  | atRest => simp
  | ignored | ready | acked | done => exact hs
  | can => rwa [txCan_st]
  | unresolvedC | unresolvedAck => rwa [txNoResolve_st, txClearCanc_st]
  | nak | retryEot => rwa [txRetryOrFail_st, txClearCanc_st]

@[simp] theorem txTimeout_st (c : Config) (s : State) : (txTimeout c s).res.st = s.res.st := by
  by_cases hw : TxWaits s.tx.phase
  · rcases hw with hp | hp | hp
    · rw [txTimeout_unresolved (.inl hp), txNoResolve_st, txClearCanc_st]
    · rw [txTimeout_unresolved (.inr hp), txNoResolve_st, txClearCanc_st]
    · rw [txTimeout_waitEot hp, txRetryOrFail_st, txClearCanc_st]
  · rw [txTimeout_no_wait hw]

@[simp] theorem txAbort_st (s : State) : (txAbort s).res.st = s.res.st := by
  by_cases hp : TxActive s.tx.phase
  · rw [txAbort_active hp]
    rfl
  · rw [txAbort_atRest (txAtRest_of_not_active hp)]

end Sys2Proof.Safety
end

section
/-! PROOFS. Which fault an operation raises, and the step of a command word (60_exceptions.md R270, R271, R273). Every
operation under no latched fault either raises the fault R270's table gives it, and changes nothing else, or completes
with no fault and a status other than FAULTED. -/

namespace Sys2Proof.Safety

open Sys2Proof.Machine

/-! ## R270's table -/

/-- The lines of R270's table for the operations, in a state with no fault latched: `i` raises the fault `f` from `s`.
The line of ILLEGAL_OP is about words and not about operations. -/
inductive RaisesFault (s : State) : Instr → FaultCode → Prop where
  | lineOverflow {d : Byte} (hd : d ≠ CR) (hfull : s.lbuf.length = Config.unit.lineMax) :
      RaisesFault s (.lfByte d) .lineOverflow
  | txBufferFull {d : Byte} (hfull : s.tx.len.toNat = 1024) : RaisesFault s (.txLoad d) .txBufferFull
  | txHeaderTooLong (hp : s.tx.phase = .ready) (hlen : s.tx.len.toNat > 128) :
      RaisesFault s .txSendHdr .txHeaderTooLong
  | hdrNotReady (hp : s.tx.phase ≠ .ready) : RaisesFault s .txSendHdr .txNotReady
  | dataNotReady (hp : s.tx.phase ≠ .ready) : RaisesFault s .txSendData .txNotReady
  | eotNotReady (hp : s.tx.phase ≠ .ready) : RaisesFault s .txSendEot .txNotReady

/-- What an operation makes of a state with no fault latched: it raises a fault of the table, and only FAULT and the
record change (R271), or the table has no fault for it, none is recorded, and the status is not FAULTED. -/
inductive RaisesOrCompletes (i : Instr) (s : State) : State → Prop where
  | raises {f : FaultCode} (hr : RaisesFault s i f) : RaisesOrCompletes i s (s.raiseFault f)
  | completes {t : State} (hno : ∀ f, ¬ RaisesFault s i f) (hfault : t.fault = .none) (hst : t.res.st ≠ .faulted) :
      RaisesOrCompletes i s t

section Table

variable {i : Instr} {f g : FaultCode} {s t u : State}

theorem RaisesFault.ne_none (h : RaisesFault s i f) : f ≠ .none := by
  cases h <;> nofun

theorem RaisesFault.ne_illegalOp (h : RaisesFault s i f) : f ≠ .illegalOp := by
  cases h <;> nofun

/-- An operation raises at most one fault (R273). -/
theorem RaisesFault.unique (h : RaisesFault s i f) (h' : RaisesFault s i g) : f = g := by
  cases h with
  | lineOverflow | txBufferFull | dataNotReady | eotNotReady => cases h'; rfl
  | txHeaderTooLong hp =>
    cases h' with
    | txHeaderTooLong => rfl
    | hdrNotReady hp' => exact absurd hp hp'
  | hdrNotReady hp =>
    cases h' with
    | txHeaderTooLong hp' => exact absurd hp' hp
    | hdrNotReady => rfl

theorem raisesFault_lineOverflow_iff :
    RaisesFault s i .lineOverflow ↔ ∃ d, i = .lfByte d ∧ d ≠ CR ∧ s.lbuf.length = Config.unit.lineMax := by
  constructor
  · intro h
    cases h with
    | lineOverflow hd hfull => exact ⟨_, rfl, hd, hfull⟩
  · rintro ⟨d, rfl, hd, hfull⟩
    exact .lineOverflow hd hfull

theorem raisesFault_txBufferFull_iff :
    RaisesFault s i .txBufferFull ↔ ∃ d, i = .txLoad d ∧ s.tx.len.toNat = 1024 := by
  constructor
  · intro h
    cases h with
    | txBufferFull hfull => exact ⟨_, rfl, hfull⟩
  · rintro ⟨d, rfl, hfull⟩
    exact .txBufferFull hfull

theorem raisesFault_txHeaderTooLong_iff :
    RaisesFault s i .txHeaderTooLong ↔ i = .txSendHdr ∧ s.tx.phase = .ready ∧ s.tx.len.toNat > 128 := by
  constructor
  · intro h
    cases h with
    | txHeaderTooLong hp hlen => exact ⟨rfl, hp, hlen⟩
  · rintro ⟨rfl, hp, hlen⟩
    exact .txHeaderTooLong hp hlen

theorem raisesFault_txNotReady_iff :
    RaisesFault s i .txNotReady ↔ (i = .txSendHdr ∨ i = .txSendData ∨ i = .txSendEot) ∧ s.tx.phase ≠ .ready := by
  constructor
  · intro h
    cases h with
    | hdrNotReady hp => exact ⟨.inl rfl, hp⟩
    | dataNotReady hp => exact ⟨.inr (.inl rfl), hp⟩
    | eotNotReady hp => exact ⟨.inr (.inr rfl), hp⟩
  · rintro ⟨rfl | rfl | rfl, hp⟩
    · exact .hdrNotReady hp
    · exact .dataNotReady hp
    · exact .eotNotReady hp

/-! ## The two outcomes -/

theorem RaisesOrCompletes.of_raises (h : exec i s = .next t) (hu : exec i s = .next (s.raiseFault f))
    (hr : RaisesFault s i f) : RaisesOrCompletes i s t := by
  cases hu.symm.trans h
  exact .raises hr

/-- An operation known to answer `u`. -/
theorem RaisesOrCompletes.of_completes (h : exec i s = .next t) (hu : exec i s = .next u)
    (hno : ∀ f, ¬ RaisesFault s i f) (hfault : u.fault = .none) (hst : u.res.st ≠ .faulted) :
    RaisesOrCompletes i s t := by
  cases hu.symm.trans h
  exact .completes hno hfault hst

/-- FAULT tells which fault was raised. -/
theorem RaisesOrCompletes.fault_eq_iff (h : RaisesOrCompletes i s t) (hf : f ≠ .none) :
    t.fault = f ↔ RaisesFault s i f := by
  cases h with
  | raises hr => exact ⟨fun e => e ▸ hr, hr.unique⟩
  | completes hno hfault => exact iff_of_false (fun e => hf (e.symm.trans hfault)) (hno f)

end Table

/-! ## The operations that can raise a fault -/

section Raising

variable {s t : State} (hf : s.fault = .none)
include hf

theorem exec_lfByte_raisesOrCompletes {d : Byte} (h : exec (.lfByte d) s = .next t) :
    RaisesOrCompletes (.lfByte d) s t := by
  by_cases hd : d = CR
  · subst hd
    exact .of_completes h (exec_lfByte_cr hf) (fun | _, .lineOverflow hne _ => hne rfl) hf nofun
  · by_cases hfull : s.lbuf.length = Config.unit.lineMax
    · exact .of_raises h (exec_lfByte_full hf hd hfull) (.lineOverflow hd hfull)
    · exact .of_completes h (exec_lfByte_room hf hd hfull) (fun | _, .lineOverflow _ hlen => hfull hlen) hf nofun

theorem exec_txLoad_raisesOrCompletes {d : Byte} (h : exec (.txLoad d) s = .next t) :
    RaisesOrCompletes (.txLoad d) s t := by
  have hload := (exec_txLoad d hf).symm.trans h
  rw [txLoad_eq] at hload
  split at hload
  · next hfull =>
    cases hload
    exact .raises (.txBufferFull hfull)
  · next hroom =>
    split at hload <;> cases hload
    exact .completes (fun | _, .txBufferFull hfull => hroom hfull) hf nofun

theorem exec_txSendHdr_raisesOrCompletes (h : exec .txSendHdr s = .next t) : RaisesOrCompletes .txSendHdr s t := by
  have hsend := exec_txSendHdr hf
  obtain ⟨hp, e⟩ | ⟨hp, hlen, e⟩ | ⟨hp, hlen, e⟩ := txSendHdr_cases s.clearRes
  · exact .of_raises h (hsend.trans e) (.hdrNotReady hp)
  · exact .of_raises h (hsend.trans e) (.txHeaderTooLong hp hlen)
  · refine .of_completes h (hsend.trans e) (fun f hr => ?_) hf nofun
    cases hr with
    | txHeaderTooLong _ hlong => exact hlen.not_gt hlong
    | hdrNotReady hne => exact hne hp

theorem exec_txSendData_raisesOrCompletes (h : exec .txSendData s = .next t) : RaisesOrCompletes .txSendData s t := by
  have hsend := exec_txSendData hf
  obtain ⟨hp, e⟩ | ⟨-, -, e⟩ | ⟨hp, -, e⟩ := txSendData_cases s.clearRes
  · exact .of_raises h (hsend.trans e) (.dataNotReady hp)
  · cases (hsend.trans e).symm.trans h
  · exact .of_completes h (hsend.trans e) (fun | _, .dataNotReady hne => hne hp) hf nofun

theorem exec_txSendEot_raisesOrCompletes (h : exec .txSendEot s = .next t) : RaisesOrCompletes .txSendEot s t := by
  have hsend := exec_txSendEot hf
  obtain ⟨hp, e⟩ | ⟨hp, e⟩ := txSendEot_cases s.clearRes <;> rw [e] at hsend
  · exact .of_raises h hsend (.eotNotReady hp)
  · exact .of_completes h hsend (fun | _, .eotNotReady hne => hne hp) hf nofun

end Raising

/-- Every operation under no latched fault; only the five of the table raise one (R270, R271). -/
theorem exec_raisesOrCompletes {i : Instr} {s t : State} (hf : s.fault = .none) (h : exec i s = .next t) :
    RaisesOrCompletes i s t := by
  cases i with
  | lfByte d => exact exec_lfByte_raisesOrCompletes hf h
  | txLoad d => exact exec_txLoad_raisesOrCompletes hf h
  | txSendHdr => exact exec_txSendHdr_raisesOrCompletes hf h
  | txSendData => exact exec_txSendData_raisesOrCompletes hf h
  | txSendEot => exact exec_txSendEot_raisesOrCompletes hf h
  | nop => exact .of_completes h (exec_nop hf) nofun hf nofun
  | reset => exact .of_completes h (exec_reset s) nofun rfl nofun
  | getFault => exact .of_completes h (exec_getFault s) nofun hf nofun
  | crcInit => exact .of_completes h (exec_crcInit hf) nofun hf nofun
  | crcByte d => exact .of_completes h (exec_crcByte d hf) nofun hf nofun
  | crcRead => exact .of_completes h (exec_crcRead hf) nofun hf nofun
  | lfDrain => exact .of_completes h (exec_lfDrain hf) nofun hf nofun
  | lfStatus => exact .of_completes h (exec_lfStatus hf) nofun hf nofun
  | rxStart => exact .of_completes h (exec_rxStart hf) nofun hf nofun
  | rxByte d =>
    have hrule := (exec_rxByte d hf).symm.trans h
    exact .completes nofun ((fault_of_onlyRx (onlyRx_rxByte hrule)).trans hf)
      (rxByte_st_ne_faulted (s := s.clearRes) nofun hrule)
  | rxTimeout =>
    exact .of_completes h (exec_rxTimeout hf) nofun ((fault_of_onlyRx (onlyRx_rxTimeout _ _)).trans hf)
      (by simp [Res.empty])
  | rxAbort =>
    exact .of_completes h (exec_rxAbort hf) nofun ((fault_of_onlyRx (onlyRx_rxAbort _)).trans hf)
      (by simp [Res.empty])
  | rxStatus => exact .of_completes h (exec_rxStatus hf) nofun hf nofun
  | txOpen => exact .of_completes h (exec_txOpen hf) nofun hf nofun
  | txResp d =>
    exact .of_completes h (exec_txResp d hf) nofun ((fault_of_onlyTx (onlyTx_txResp _ d _)).trans hf)
      ((txResp_outcome _ d s.clearRes).st_ne_faulted nofun)
  | txTimeout =>
    exact .of_completes h (exec_txTimeout hf) nofun ((fault_of_onlyTx (onlyTx_txTimeout _ _)).trans hf)
      (by simp [Res.empty])
  | txAbort =>
    exact .of_completes h (exec_txAbort hf) nofun ((fault_of_onlyTx (onlyTx_txAbort _)).trans hf)
      (by simp [Res.empty])
  | txStatus => exact .of_completes h (exec_txStatus hf) nofun hf nofun

/-! ## A step whose word is an operation, and one whose word is none -/

/-- What a step does about faults, the latch included: it faults, and writes FAULT and the record only (R271, R272), or
it completes, and FAULT keeps its value or is cleared (R251). -/
inductive FaultsOrCompletes (s t : State) : Prop where
  | faults (ht : t = { s with fault := t.fault, res := Res.faulted }) (hfault : t.fault ≠ .none)
  | completes (hst : t.res.st ≠ .faulted) (hfault : t.fault = s.fault ∨ t.fault = .none)

theorem exec_faultsOrCompletes {i : Instr} {s t : State} (h : exec i s = .next t) : FaultsOrCompletes s t := by
  by_cases hf : s.fault = .none
  · cases exec_raisesOrCompletes hf h with
    | raises hraised => exact .faults rfl hraised.ne_none
    | completes _ hfault hst => exact .completes hst (.inr hfault)
  · by_cases hr : i = .reset
    · subst hr
      cases (exec_reset s).symm.trans h
      exact .completes nofun (.inr rfl)
    · by_cases hg : i = .getFault
      · subst hg
        cases (exec_getFault s).symm.trans h
        exact .completes nofun (.inl rfl)
      · cases (exec_of_latched hf hr hg).symm.trans h
        exact .faults rfl hf

theorem illegalWord_faultsOrCompletes {s t : State} (h : illegalWord s = .next t) : FaultsOrCompletes s t := by
  obtain ⟨-, e⟩ | ⟨hf, e⟩ := illegalWord_cases s <;> cases e.symm.trans h
  · exact .faults rfl nofun
  · exact .faults rfl hf

theorem step_faultsOrCompletes {s t : State} {w : CmdWord} {rest : List CmdWord} (hport : s.port = w :: rest)
    (h : step s = .next t) : FaultsOrCompletes { s with port := rest } t := by
  cases hd : decode w with
  | ok i => exact exec_faultsOrCompletes ((step_of_decode_ok hport hd).symm.trans h)
  | error e => exact illegalWord_faultsOrCompletes ((step_of_decode_error hport hd).symm.trans h)

/-- Settles O46, by the two things a step can do about faults. -/
theorem faultsArePrecise : Obligations.FaultsArePrecise := by
  intro s t w rest hport h
  cases step_faultsOrCompletes hport h with
  | faults ht hfault => exact ⟨fun _ _ => by rw [ht]; rfl, fun _ => ⟨ht, hfault⟩⟩
  | completes hst hfault =>
    exact ⟨fun hchanged hne => absurd hfault (not_or.2 ⟨hchanged, hne⟩), fun hfaulted => absurd hfaulted hst⟩

/-! ## FAULT after a step (R270) -/

/-- From a state with no fault latched, a word that names no operation ends in ILLEGAL_OP. -/
theorem fault_of_step_illegal {s t : State} {w : CmdWord} {rest : List CmdWord} {e : Reject}
    (hport : s.port = w :: rest) (hf : s.fault = .none) (hd : decode w = .error e) (h : step s = .next t) :
    t.fault = .illegalOp := by
  cases ((raisesIllegalOp_of_decode_error hd s rest hport).1 hf).symm.trans h
  rfl

/-- Settles O47: a word that names an operation ends in the fault the table gives that operation, which is never
ILLEGAL_OP, and every other word ends in ILLEGAL_OP. -/
theorem faultsAreRaisedAsTheTableSays : Obligations.FaultsAreRaisedAsTheTableSays := by
  refine ⟨fun s t w rest hport hf h => ?_, rfl⟩
  cases hd : decode w with
  | ok i =>
    have hout := exec_raisesOrCompletes (s := { s with port := rest }) hf ((step_of_decode_ok hport hd).symm.trans h)
    simp only [Except.ok.injEq]
    have hill : t.fault ≠ .illegalOp := fun hfault =>
      ((hout.fault_eq_iff (f := .illegalOp) nofun).1 hfault).ne_illegalOp rfl
    exact ⟨iff_of_false hill (by simp),
      (hout.fault_eq_iff (f := .lineOverflow) nofun).trans raisesFault_lineOverflow_iff,
      (hout.fault_eq_iff (f := .txBufferFull) nofun).trans raisesFault_txBufferFull_iff,
      (hout.fault_eq_iff (f := .txHeaderTooLong) nofun).trans raisesFault_txHeaderTooLong_iff,
      (hout.fault_eq_iff (f := .txNotReady) nofun).trans raisesFault_txNotReady_iff⟩
  | error e => simp [fault_of_step_illegal hport hf hd h]

/-- Settles O41: the step of a word that names an operation, of one that names none, and of none at all. -/
theorem stepRunsDecodedOperation : Obligations.StepRunsDecodedOperation :=
  ⟨fun _ _ _ _ => step_of_decode_ok, fun _ _ => raisesIllegalOp_of_decode_error, fun _ => step_of_port_nil⟩

end Sys2Proof.Safety
end

section
/-! PROOFS. The byte hand-off of a receive transfer (70_reset_and_hazards.md R303, R304): a handler that consumes the
byte ends the hand-off, and any other passes it on. -/

namespace Sys2Proof.Safety

open Sys2Proof.Machine

variable {d : Byte} {s t : State}

/-! ## One handler (R304) -/

section Handler

variable {h : Byte → Instr} {hs : List (Byte → Instr)}

theorem handOff_consumed (hx : exec (h d) s = .next t) (hst : t.res.st = .ok) :
    handOff (h :: hs) d s = some (t, [t.res]) := by
  simp only [handOff, hx, hst, if_true]

theorem handOff_passed_on (hx : exec (h d) s = .next t) (hst : t.res.st ≠ .ok) :
    handOff (h :: hs) d s = (handOff hs d t).map fun p => (p.1, t.res :: p.2) := by
  simp only [handOff, hx, hst, if_false]

end Handler

/-! ## The two handlers of a receive transfer (R303) -/

theorem receiveActive_iff : receiveActive s = true ↔ ¬ RxAtRest s.rx.phase := by
  simp [receiveActive, receiveEnded, RxAtRest]

theorem receiveActive_eq_false_iff : receiveActive s = false ↔ RxAtRest s.rx.phase := by
  rw [← Bool.not_eq_true, receiveActive_iff, not_not]

/-- During a transfer the RX unit consumes the byte, and the LF unit never sees it (R152). -/
theorem handOff_receive_active (d : Byte) (hinv : UnitInv s) (hf : s.fault = .none) (hp : ¬ RxAtRest s.rx.phase) :
    ∃ t, handOff receiveHandlers d s = some (t, [t.res]) ∧ t.res.st = .ok ∧ t.fault = .none ∧ t.lbuf = s.lbuf := by
  obtain ⟨t, hx, -⟩ := exec_keeps_unitInv (.rxByte d) hinv
  have hrule : rxByte Config.unit d s.clearRes = .next t := (exec_rxByte d hf).symm.trans hx
  have hst : t.res.st = .ok := rxByte_st (s := s.clearRes) hp hrule
  have honly : OnlyRx s.clearRes t := onlyRx_rxByte hrule
  exact ⟨t, handOff_consumed hx hst, hst, (fault_of_onlyRx honly).trans hf, by rw [honly]; rfl⟩

/-- The answer of the RX unit to a byte outside a transfer (R152). -/
theorem exec_rxByte_atRest (d : Byte) (hf : s.fault = .none) (hp : RxAtRest s.rx.phase) :
    exec (.rxByte d) s = .next { s with res := notConsumedRes } :=
  (exec_rxByte d hf).trans (rxByte_atRest (s := s.clearRes) d hp)

/-- Outside a transfer the RX unit passes the byte on unchanged, and the hand-off is LF_BYTE's step. -/
theorem handOff_receive_atRest (hf : s.fault = .none) (hp : RxAtRest s.rx.phase)
    (hx : exec (.lfByte d) { s with res := notConsumedRes } = .next t) (hst : t.res.st = .ok) :
    handOff receiveHandlers d s = some (t, [notConsumedRes, t.res]) := by
  rw [receiveHandlers, handOff_passed_on (exec_rxByte_atRest d hf hp) nofun, handOff_consumed hx hst]
  rfl

/-- Settles O60, by the group of phases the RX unit is in; outside a transfer, by the two outcomes of LF_BYTE where LBUF
can take the byte. -/
theorem handOffConsumesEachByteOnce : Obligations.HandOffConsumesEachByteOnce := by
  intro d s hinv hf hroom
  by_cases hp : RxAtRest s.rx.phase
  · have hrest : receiveActive s = false := receiveActive_eq_false_iff.2 hp
    by_cases hd : d = CR
    · subst hd
      exact ⟨_, _, handOff_receive_atRest hf hp (exec_lfByte_cr hf) rfl, hf, rfl, by simp [hrest],
        fun _ => ⟨rfl, rfl, fun _ => ⟨rfl, rfl⟩, fun hne => absurd rfl hne⟩⟩
    · have hlen : s.lbuf.length ≠ Config.unit.lineMax := (hroom.resolve_left hd).ne
      exact ⟨_, _, handOff_receive_atRest hf hp (exec_lfByte_room hf hd hlen) rfl, hf, rfl, by simp [hrest],
        fun _ => ⟨rfl, rfl, fun he => absurd he hd, fun _ => ⟨rfl, rfl⟩⟩⟩
  · have hactive : receiveActive s = true := receiveActive_iff.2 hp
    obtain ⟨t, hrun, hst, hfault, hlbuf⟩ := handOff_receive_active d hinv hf hp
    exact ⟨t, [t.res], hrun, hfault, by simp [hst], fun _ => ⟨hlbuf, rfl⟩, by simp [hactive]⟩

end Sys2Proof.Safety
end
